-- ==== Sys2Proof/Word.lean ====
section
/-! DEFINITION. The values that data-holding storage is made of: the bit, the byte, and the two orders in which a
bit-addressed buffer packs bits into a byte (10_state.md R20, 20_memory.md R51). -/

namespace Sys2Proof

/-- A unit of a bit-addressed buffer: a single bit, `true` for 1 (10_state.md R20). -/
abbrev Bit := Bool

/-- A unit of a byte-addressed buffer: 8 bits, bit 0 the least significant (00_scope.md R12). -/
abbrev Byte := BitVec 8

/-- Which end of the byte is bit 0 of a bit-addressed buffer (10_state.md R20, 20_memory.md R51). -/
inductive BitOrder where
  | lsb
  | msb
  deriving DecidableEq, Repr

end Sys2Proof
end

