-- ==== Sys2Proof/Config.lean ====
section
/-! DEFINITION. What is fixed for the machine: the constants of 00_scope.md R7 and of 30_encoding.md R81, the two
parameters a session is made with, and the free values of unspecified storage. -/

namespace Sys2Proof.Config

/-- A 0 is inserted after this many consecutive 1-bits (00_scope.md R7; 90_conflicts.md C1). -/
def stuffThreshold : Nat := 5

/-- Shortest run of zeros the synchroniser accepts, SYNC_MIN_ZEROS (00_scope.md R7, R8). -/
def syncMinZeros : Nat := 7

/-- Shortest run of ones the synchroniser accepts, SYNC_MIN_ONES (00_scope.md R7, R8). -/
def syncMinOnes : Nat := 6

/-- WATCHDOG_BITS: buffered bits without a marker at which DATA gives up (00_scope.md R7, 44_frame_decoder.md R195). -/
def watchdogBits : Nat := 128

/-- END-OF-FRAME: eight 1-bits and a 0-bit, first unit leftmost (30_encoding.md R81). -/
def eofMarker : List Bit := [true, true, true, true, true, true, true, true, false]

/-- SEPARATOR: six 1-bits and a 0-bit, first unit leftmost (30_encoding.md R81; 90_conflicts.md C3). -/
def sepMarker : List Bit := [true, true, true, true, true, true, false]

/-- SEP_LEN: the separator's length, which TRAILING consumes (44_frame_decoder.md R197). -/
def sepLen : Nat := 7

/-- Power-on value of `FE.Z` (10_state.md R37). -/
def powerOnZ : Byte := 9

/-- Power-on value of `FE.O` (10_state.md R37). -/
def powerOnO : Byte := 6

/-- The two parameters of 00_scope.md R7 that a pipeline session is made with (93_implementation_defined.md U13, U14):
`capBytes` is CAP_BYTES, `payloadOrder` is PAYLOAD_BIT_ORDER. -/
structure Params where
  capBytes     : Nat
  payloadOrder : BitOrder
  deriving DecidableEq, Repr

/-- The defaults of 00_scope.md R7: 64 bytes, BIT_LSB. -/
def defaultParams : Params := { capBytes := 64, payloadOrder := .lsb }

/-- FREE VALUE (log entry 6): a unit of a bit-addressed buffer that became content without having been written
(93_implementation_defined.md U2, "any value"). The argument is the model's own counter, so that no two are known
to be equal. -/
opaque freeBit : Nat → Bit

/-- FREE VALUE (log entry 6): the same for a unit of a byte-addressed buffer. -/
opaque freeByte : Nat → Byte

end Sys2Proof.Config
end

