-- ==== Sys2Proof/Syntax.lean ====
section
/-! DEFINITION. The operations of the block, one constructor per row of spec/opcode_table.json (30_encoding.md R88),
with their operands (R90); the command by which a caller invokes one (R87); and what a caller can ask for at all. -/

namespace Sys2Proof

/-- Addressing modes (30_encoding.md R86). `reserved` is the value 3: a buffer of no valid type for any stage. -/
inductive Mode where
  | byte
  | bitLsb
  | bitMsb
  | reserved
  deriving DecidableEq, Repr

/-- The six registers of 10_state.md R32, in the order of their numbers 0 to 5. -/
inductive Reg where
  | flush
  | phase
  | preambleEmitted
  | z
  | o
  | st
  deriving DecidableEq, Repr

/-- The 23 operations. `xc`, `be`, `fe`, `fd`, `enc`, `dec` and `buf`, `inp`, `out` are references: which stand-alone
unit, which session, which of the caller's buffers (log entry 4). -/
inductive Instr where
  | bufRead (buf off : Nat)
  | bufWrite (buf off v : Nat)
  | bufHasAvail (buf off n : Nat)
  | bufHasSpace (buf off n : Nat)
  | bufConsume (buf n : Nat)
  | bufProduce (buf n : Nat)
  | xcReset (xc : Nat)
  | xcProcess (xc inp out : Nat)
  | xcConfig (xc : Nat) (reg : Reg) (val : Byte)
  | bmcEncReset (be : Nat)
  | bmcEncProcess (be inp out : Nat)
  | bmcDecReset
  | bmcDecProcess (inp out : Nat)
  | frameEncReset (fe : Nat)
  | frameEncProcess (fe inp out : Nat)
  | frameEncConfig (fe : Nat) (reg : Reg) (val : Byte)
  | frameDecReset (fd : Nat)
  | frameDecProcess (fd inp out : Nat)
  | x2dEncReset (enc : Nat)
  | x2dEncProcess (enc inp out : Nat) (flush : Bool)
  | x2dEncConfig (enc : Nat) (reg : Reg) (val : Byte)
  | x2dDecReset (dec : Nat)
  | x2dDecProcess (dec inp out : Nat) (flush : Bool)
  deriving DecidableEq, Repr

/-- The operands that stand beside the command byte, each a whole value (30_encoding.md R90). An operation reads the
ones its row names and no other. -/
structure Operands where
  ref   : Nat  := 0      -- unit state or session reference; the buffer reference of a BUF operation
  inp   : Nat  := 0
  out   : Nat  := 0
  off   : Nat  := 0
  n     : Nat  := 0
  v     : Nat  := 0
  flush : Bool := false
  reg   : Nat  := 0
  val   : Nat  := 0
  deriving DecidableEq, Repr

/-- One invocation: the command byte `cmd[7:0]` and its operands (30_encoding.md R87). -/
structure Command where
  cmd  : Byte
  args : Operands := {}
  deriving DecidableEq, Repr

/-- What the caller makes outside the operations (10_state.md R20, R37; 70_reset_and_hazards.md R272; log entry 14). -/
inductive Creation where
  | buffer (mode : Mode) (nbytes : Nat)
  | xc
  | bmcEnc
  | frameEnc
  | frameDec
  | encSession (p : Config.Params)
  | decSession (p : Config.Params)
  deriving DecidableEq, Repr

/-- One act of the caller: it invokes an operation, or makes a buffer, a unit or a session. -/
inductive Call where
  | invoke (c : Command)
  | make (k : Creation)
  deriving DecidableEq, Repr

end Sys2Proof
end

