-- ==== Sys2Proof/WellFormed.lean ====
section
/-! DEFINITION. Which operations, with which operands, name an operation of the block at all: the checks of
30_encoding.md R89, R92 and 93_implementation_defined.md U10, U11. Only a CONFIG can be ill-formed. -/

namespace Sys2Proof

/-- The register a transcoder owns and a caller may write (10_state.md R32, 30_encoding.md R89). -/
def Reg.xcWritable : Reg → Bool
  | .flush => true
  | _ => false

/-- The registers a frame encoder owns and a caller may write (10_state.md R32, 30_encoding.md R89). -/
def Reg.frameEncWritable : Reg → Bool
  | .z => true
  | .o => true
  | _ => false

/-- Well-formed operations: a CONFIG names a register that its unit owns and the caller may write (R89, R92), and the
flush flag is configured to 0 or 1 (93_implementation_defined.md U11). Every other operation is well-formed. -/
def Instr.WellFormed : Instr → Bool
  | .bufRead _ _ => true
  | .bufWrite _ _ _ => true
  | .bufHasAvail _ _ _ => true
  | .bufHasSpace _ _ _ => true
  | .bufConsume _ _ => true
  | .bufProduce _ _ => true
  | .xcReset _ => true
  | .xcProcess _ _ _ => true
  | .xcConfig _ reg val => reg.xcWritable && decide (val.toNat ≤ 1)
  | .bmcEncReset _ => true
  | .bmcEncProcess _ _ _ => true
  | .bmcDecReset => true
  | .bmcDecProcess _ _ => true
  | .frameEncReset _ => true
  | .frameEncProcess _ _ _ => true
  | .frameEncConfig _ reg _ => reg.frameEncWritable
  | .frameDecReset _ => true
  | .frameDecProcess _ _ _ => true
  | .x2dEncReset _ => true
  | .x2dEncProcess _ _ _ _ => true
  | .x2dEncConfig _ reg _ => reg.frameEncWritable
  | .x2dDecReset _ => true
  | .x2dDecProcess _ _ _ _ => true

end Sys2Proof
end

