-- ==== Sys2Proof/Decode.lean ====
section
/-! DEFINITION. The decoder, from a command and its operands to an operation or a named rejection, and the encoder
back (30_encoding.md R87 to R92). -/

namespace Sys2Proof

/-- Why a command names no operation. All three are the refusal of 93_implementation_defined.md U11. -/
inductive DecodeError where
  /-- The command byte is not in the table of 30_encoding.md R88 (R92). -/
  | reservedCommand (cmd : Byte)
  /-- A CONFIG whose `reg` is no register number of 10_state.md R32. -/
  | noSuchRegister (reg : Nat)
  /-- A CONFIG whose `val` is wider than the widest register, 8 bits (30_encoding.md R90). -/
  | valueTooWide (val : Nat)
  deriving DecidableEq, Repr

/-- Register numbers (10_state.md R32). -/
def Reg.number : Reg → Nat
  | .flush => 0
  | .phase => 1
  | .preambleEmitted => 2
  | .z => 3
  | .o => 4
  | .st => 5

/-- The register with a number, where there is one (10_state.md R32). -/
def Reg.ofNumber? : Nat → Option Reg
  | 0 => some .flush
  | 1 => some .phase
  | 2 => some .preambleEmitted
  | 3 => some .z
  | 4 => some .o
  | 5 => some .st
  | _ => none

/-- Mode numbers (30_encoding.md R86). -/
def Mode.number : Mode → BitVec 2
  | .byte => 0
  | .bitLsb => 1
  | .bitMsb => 2
  | .reserved => 3

/-- `cmd[7:4]` (30_encoding.md R87). -/
def cmdUnit (cmd : Byte) : BitVec 4 := cmd.extractLsb' 4 4

/-- `cmd[3:0]` (30_encoding.md R87). -/
def cmdOp (cmd : Byte) : BitVec 4 := cmd.extractLsb' 0 4

/-- The command byte of a unit and an op (30_encoding.md R87). -/
def cmdByte (unit op : BitVec 4) : Byte := unit ++ op

/-- A CONFIG's register and value operands, or why they are none (30_encoding.md R89, R90). -/
def decodeConfig (a : Operands) (k : Reg → Byte → Instr) : Except DecodeError Instr :=
  match Reg.ofNumber? a.reg with
  | none => .error (.noSuchRegister a.reg)
  | some r => if a.val < 256 then .ok (k r (BitVec.ofNat 8 a.val)) else .error (.valueTooWide a.val)

/-- The decoder: unit and op select the row of 30_encoding.md R88, the row says which operands are read. -/
def decode (c : Command) : Except DecodeError Instr :=
  let a := c.args
  match (cmdUnit c.cmd).toNat, (cmdOp c.cmd).toNat with
  | 0, 0 => .ok (.bufRead a.ref a.off)
  | 0, 1 => .ok (.bufWrite a.ref a.off a.v)
  | 0, 2 => .ok (.bufHasAvail a.ref a.off a.n)
  | 0, 3 => .ok (.bufHasSpace a.ref a.off a.n)
  | 0, 4 => .ok (.bufConsume a.ref a.n)
  | 0, 5 => .ok (.bufProduce a.ref a.n)
  | 1, 0 => .ok (.xcReset a.ref)
  | 1, 1 => .ok (.xcProcess a.ref a.inp a.out)
  | 1, 2 => decodeConfig a (.xcConfig a.ref)
  | 2, 0 => .ok (.bmcEncReset a.ref)
  | 2, 1 => .ok (.bmcEncProcess a.ref a.inp a.out)
  | 3, 0 => .ok .bmcDecReset
  | 3, 1 => .ok (.bmcDecProcess a.inp a.out)
  | 4, 0 => .ok (.frameEncReset a.ref)
  | 4, 1 => .ok (.frameEncProcess a.ref a.inp a.out)
  | 4, 2 => decodeConfig a (.frameEncConfig a.ref)
  | 5, 0 => .ok (.frameDecReset a.ref)
  | 5, 1 => .ok (.frameDecProcess a.ref a.inp a.out)
  | 6, 0 => .ok (.x2dEncReset a.ref)
  | 6, 1 => .ok (.x2dEncProcess a.ref a.inp a.out a.flush)
  | 6, 2 => decodeConfig a (.x2dEncConfig a.ref)
  | 7, 0 => .ok (.x2dDecReset a.ref)
  | 7, 1 => .ok (.x2dDecProcess a.ref a.inp a.out a.flush)
  | _, _ => .error (.reservedCommand c.cmd)

/-- The encoder: the command byte of the row in 30_encoding.md R88, and the row's operands; an operand the row does
not name is zero (log entry 15). -/
def encode : Instr → Command
  | .bufRead b off => { cmd := cmdByte 0 0, args := { ref := b, off := off } }
  | .bufWrite b off v => { cmd := cmdByte 0 1, args := { ref := b, off := off, v := v } }
  | .bufHasAvail b off n => { cmd := cmdByte 0 2, args := { ref := b, off := off, n := n } }
  | .bufHasSpace b off n => { cmd := cmdByte 0 3, args := { ref := b, off := off, n := n } }
  | .bufConsume b n => { cmd := cmdByte 0 4, args := { ref := b, n := n } }
  | .bufProduce b n => { cmd := cmdByte 0 5, args := { ref := b, n := n } }
  | .xcReset x => { cmd := cmdByte 1 0, args := { ref := x } }
  | .xcProcess x i o => { cmd := cmdByte 1 1, args := { ref := x, inp := i, out := o } }
  | .xcConfig x r v => { cmd := cmdByte 1 2, args := { ref := x, reg := r.number, val := v.toNat } }
  | .bmcEncReset x => { cmd := cmdByte 2 0, args := { ref := x } }
  | .bmcEncProcess x i o => { cmd := cmdByte 2 1, args := { ref := x, inp := i, out := o } }
  | .bmcDecReset => { cmd := cmdByte 3 0 }
  | .bmcDecProcess i o => { cmd := cmdByte 3 1, args := { inp := i, out := o } }
  | .frameEncReset x => { cmd := cmdByte 4 0, args := { ref := x } }
  | .frameEncProcess x i o => { cmd := cmdByte 4 1, args := { ref := x, inp := i, out := o } }
  | .frameEncConfig x r v => { cmd := cmdByte 4 2, args := { ref := x, reg := r.number, val := v.toNat } }
  | .frameDecReset x => { cmd := cmdByte 5 0, args := { ref := x } }
  | .frameDecProcess x i o => { cmd := cmdByte 5 1, args := { ref := x, inp := i, out := o } }
  | .x2dEncReset x => { cmd := cmdByte 6 0, args := { ref := x } }
  | .x2dEncProcess x i o f => { cmd := cmdByte 6 1, args := { ref := x, inp := i, out := o, flush := f } }
  | .x2dEncConfig x r v => { cmd := cmdByte 6 2, args := { ref := x, reg := r.number, val := v.toNat } }
  | .x2dDecReset x => { cmd := cmdByte 7 0, args := { ref := x } }
  | .x2dDecProcess x i o f => { cmd := cmdByte 7 1, args := { ref := x, inp := i, out := o, flush := f } }

/-- The command whose bits are `w`: the byte `cmd[7:0]` with every operand zero (the table gives no operand bits). -/
def commandOfWord (nbits w : Nat) : Command := { cmd := BitVec.ofNat 8 (w % 2 ^ nbits) }

/-- What the decoder reads from a table word. -/
def decodeTableWord (nbits w : Nat) : Option Instr :=
  match decode (commandOfWord nbits w) with
  | .ok i => some i
  | .error _ => none

end Sys2Proof
end

