-- ==== Sys2Proof/Machine/State.lean ====
section
/-! DEFINITION. Everything the block holds (10_state.md R20 to R34), the caller's operations waiting and the last
output, the reasons a step can stop, and the state at power-on (R37). -/

namespace Sys2Proof.Machine

/-- The logical content of a buffer whose units are of type `α` (00_scope.md R14, 20_memory.md R53). `content` is the
units at index 0 .. filled - 1, the oldest first. `staged` is the storage behind it, from write offset 0 on: `some u`
where a unit was written and not yet produced, `none` (or past the end of the list) where the storage is unspecified
(10_state.md R22; log entry 5). -/
structure Fifo (α : Type) where
  content : List α
  staged  : List (Option α)
  deriving DecidableEq, Repr

/-- A fifo with nothing in it. -/
def Fifo.empty {α : Type} : Fifo α := { content := [], staged := [] }

/-- A buffer's storage, by addressing mode (10_state.md R20, 30_encoding.md R86): byte units, bit units in one of the
two orders, or the reserved mode, which has no units. -/
inductive Store where
  | bytes (q : Fifo Byte)
  | bits (order : BitOrder) (q : Fifo Bit)
  | reserved
  deriving DecidableEq, Repr

/-- A BitBuffer (10_state.md R20). Its mode is read off the store, its capacity is computed. -/
structure BitBuffer where
  nbytes : Nat
  store  : Store
  deriving DecidableEq, Repr

/-- A freshly made buffer: nothing filled, storage unspecified (10_state.md R22, 70_reset_and_hazards.md R272). -/
def BitBuffer.make (mode : Mode) (nbytes : Nat) : BitBuffer :=
  match mode with
  | .byte => { nbytes := nbytes, store := .bytes .empty }
  | .bitLsb => { nbytes := nbytes, store := .bits .lsb .empty }
  | .bitMsb => { nbytes := nbytes, store := .bits .msb .empty }
  | .reserved => { nbytes := nbytes, store := .reserved }

/-- Transcoder state (10_state.md R28). -/
structure Xc where
  flush : Bool
  deriving DecidableEq, Repr

/-- Biphase-mark encoder state (10_state.md R25): the clock phase. -/
structure BiphaseEnc where
  phase : Bit
  deriving DecidableEq, Repr

/-- Frame-encoder state (10_state.md R27). -/
structure FrameEnc where
  preambleEmitted : Bool
  z : Byte
  o : Byte
  deriving DecidableEq, Repr

/-- The five states of the frame decoder (10_state.md R29, 30_encoding.md R85). -/
inductive FdState where
  | init
  | leadOnes
  | extraZero
  | data
  | trailing
  deriving DecidableEq, Repr

/-- Frame-decoder state (10_state.md R29). -/
structure FrameDec where
  st : FdState
  deriving DecidableEq, Repr

/-- An encode session (10_state.md R33): stages 1 to 4 and the buffers between them. -/
structure EncSession where
  xc1 : Xc
  fe  : FrameEnc
  be  : BiphaseEnc
  xc2 : Xc
  a : BitBuffer
  b : BitBuffer
  c : BitBuffer
  deriving DecidableEq, Repr

/-- A decode session (10_state.md R34). Stage 2, the biphase decoder, is stateless (R26). -/
structure DecSession where
  xc1 : Xc
  fd  : FrameDec
  xc2 : Xc
  a : BitBuffer
  b : BitBuffer
  c : BitBuffer
  deriving DecidableEq, Repr

/-- The six result codes (30_encoding.md R84, 60_exceptions.md R240). -/
inductive ResultCode where
  | ok
  | reset
  | invalidInputType
  | invalidOutputType
  | needInputData
  | needOutputSpace
  deriving DecidableEq, Repr

/-- What a transaction hands back (30_encoding.md R87): a result code; the value of BUF.READ; the truth value of
BUF.HASAVAIL and BUF.HASSPACE; or nothing (60_exceptions.md R241, last row). -/
inductive Response where
  | code (rc : ResultCode)
  | value (v : Nat)
  | truth (b : Bool)
  | nothing
  deriving DecidableEq, Repr

/-- The caller's buffers: the block's only store besides the sessions' own (20_memory.md R50, R52). -/
abbrev Memory := List BitBuffer

/-- The state of the machine. The first seven fields are the spec's; the last three are the model's own boundary (log
entries 1, 2 and 6). -/
structure State where
  /-- Stand-alone transcoders (10_state.md R28). -/
  xcs  : List Xc
  /-- Stand-alone biphase-mark encoders (10_state.md R25). -/
  bes  : List BiphaseEnc
  /-- Stand-alone frame encoders (10_state.md R27). -/
  fes  : List FrameEnc
  /-- Stand-alone frame decoders (10_state.md R29). -/
  fds  : List FrameDec
  /-- Encode sessions (10_state.md R33). -/
  encs : List EncSession
  /-- Decode sessions (10_state.md R34). -/
  decs : List DecSession
  /-- The caller's buffers (10_state.md R20, R23). -/
  bufs : Memory
  /-- What the caller asks for next, oldest first (10_state.md R24 (a)). -/
  calls : List Call
  /-- What the last transaction handed back; no operation reads it (60_exceptions.md R240). -/
  response : Option Response
  /-- How many free values of unspecified storage have been drawn (93_implementation_defined.md U2). -/
  fresh : Nat
  deriving DecidableEq, Repr

/-- Why the machine stops with a fault. All are safe: the model stops where the spec gives the transaction no result
(40_bitbuffer_ops.md R116, 92_eei_decisions.md D21). -/
inductive Fault where
  /-- BUF.READ at `off ≥ filled` (R110, 93_implementation_defined.md U1). Raised by execBufRead. Safe. -/
  | readPastContent
  /-- BUF.WRITE at `filled + off ≥ capacity` (R111, U1). Raised by execBufWrite. Safe. -/
  | writePastCapacity
  /-- BUF.WRITE of a value that is no unit of the buffer (R111, U3). Raised by execBufWrite. Safe. -/
  | valueNotAUnit
  /-- BUF.CONSUME of more than is filled (R114, U1). Raised by execBufConsume. Safe. -/
  | consumePastContent
  /-- BUF.PRODUCE beyond the capacity (R115, U1). Raised by execBufProduce. Safe. -/
  | producePastCapacity
  /-- A BUF primitive on a buffer of the reserved mode (U5). Raised by the six BUF meanings. Safe. -/
  | reservedMode
  /-- XC.PROCESS from a buffer to that same buffer, neither empty nor full: each step of 41_bitwidth_converter.md R132
  puts back the unit it takes, so the loop of R135 reaches no `return`: a stuck state (log entry 8). Raised by
  execXcProcess, alone. Safe. -/
  | neverEnds
  deriving DecidableEq, Repr

/-- Why an operation has no meaning. All are safe: nothing is proved of what the block would do. -/
inductive Refusal where
  /-- No meaning has been written yet. Raised by no arm of this model. Safe. -/
  | notModelled (mnemonic : String)
  /-- The command names no operation (30_encoding.md R92, 93_implementation_defined.md U11). Raised by step. Safe. -/
  | undecodable (e : DecodeError)
  /-- A CONFIG of a register the unit does not own, or may not be written by the caller (R89, R92, U10, U11). Raised
  by the three CONFIG meanings. Safe. -/
  | registerNotWritable (reg : Reg)
  /-- XC.CONFIG of the flush flag with a value other than 0 or 1 (U11). Raised by execXcConfig. Safe. -/
  | flushNotABit (val : Byte)
  /-- A reference that names no buffer of the caller's (log entry 4). Raised by every meaning with one. Safe. -/
  | noSuchBuffer (ref : Nat)
  /-- A reference that names no stand-alone unit or session of the kind (log entry 4). Raised by every meaning with
  one. Safe. -/
  | noSuchUnit (ref : Nat)
  deriving DecidableEq, Repr

/-- Transcoder at power-on (10_state.md R36, R37). -/
def Xc.powerOn : Xc := { flush := false }

/-- Biphase-mark encoder at power-on (10_state.md R25, R36, R37). -/
def BiphaseEnc.powerOn : BiphaseEnc := { phase := true }

/-- Frame encoder at power-on (10_state.md R36, R37). -/
def FrameEnc.powerOn : FrameEnc := { preambleEmitted := false, z := Config.powerOnZ, o := Config.powerOnO }

/-- Frame decoder at power-on (10_state.md R36, R37). -/
def FrameDec.powerOn : FrameDec := { st := .init }

/-- A bit buffer of a session: CAP_BYTES bytes, empty. -/
def BitBuffer.link (order : BitOrder) (p : Config.Params) : BitBuffer :=
  { nbytes := p.capBytes, store := .bits order .empty }

/-- An encode session as made and at power-on (10_state.md R37, 45_pipeline.md R221). -/
def EncSession.powerOn (p : Config.Params) : EncSession :=
  { xc1 := .powerOn, fe := .powerOn, be := .powerOn, xc2 := .powerOn,
    a := .link p.payloadOrder p, b := .link .lsb p, c := .link .msb p }

/-- A decode session as made and at power-on (10_state.md R37, 45_pipeline.md R222). -/
def DecSession.powerOn (p : Config.Params) : DecSession :=
  { xc1 := .powerOn, fd := .powerOn, xc2 := .powerOn,
    a := .link .msb p, b := .link .lsb p, c := .link p.payloadOrder p }

/-- The machine at power-on (10_state.md R37): one unit and one session of each kind, and one 64-byte buffer of each
valid mode, all empty (log entry 3); no call waiting, nothing handed back yet. -/
def State.reset : State :=
  { xcs := [.powerOn], bes := [.powerOn], fes := [.powerOn], fds := [.powerOn],
    encs := [.powerOn Config.defaultParams], decs := [.powerOn Config.defaultParams],
    bufs := [.make .bitLsb 64, .make .bitMsb 64, .make .byte 64],
    calls := [], response := none, fresh := 0 }

end Sys2Proof.Machine
end

