-- ==== Sys2Proof/Machine/Operands.lean ====
section
/-! DEFINITION. How operands and storage are read: a buffer's mode and capacity, where a unit lies in its byte, the
packing of bits into bytes and back, the physical bytes as a view of the content, and the register views and numbers
of 10_state.md R32 and 30_encoding.md R84, R85. -/

namespace Sys2Proof.Machine

/-- `B.mode` (10_state.md R20). -/
def BitBuffer.mode (B : BitBuffer) : Mode :=
  match B.store with
  | .bytes _ => .byte
  | .bits .lsb _ => .bitLsb
  | .bits .msb _ => .bitMsb
  | .reserved => .reserved

/-- `B.capacity` in units (10_state.md R20, 92_eei_decisions.md D22); the reserved mode has no units. -/
def BitBuffer.capacity (B : BitBuffer) : Nat :=
  match B.store with
  | .bytes _ => B.nbytes
  | .bits _ _ => 8 * B.nbytes
  | .reserved => 0

/-- `filled`, in units (10_state.md R20). -/
def Fifo.filled {α : Type} (q : Fifo α) : Nat := q.content.length

/-- `B.filled` (10_state.md R20). -/
def BitBuffer.filled (B : BitBuffer) : Nat :=
  match B.store with
  | .bytes q => q.filled
  | .bits _ q => q.filled
  | .reserved => 0

/-- `shift(mode, k)`: the bit position of the `k`-th unit in its byte (20_memory.md R51). -/
def shift (order : BitOrder) (k : Nat) : Nat :=
  match order with
  | .lsb => k % 8
  | .msb => 7 - k % 8

/-- Sum of `bit << shift(order, j)` over a group of bits whose first has number `j` (41_bitwidth_converter.md R133). -/
def packFrom (order : BitOrder) (j : Nat) : List Bit → Byte
  | [] => 0
  | b :: bs => (if b then BitVec.ofNat 8 (2 ^ shift order j) else 0) + packFrom order (j + 1) bs

/-- The byte of a group of at most eight bits; positions not covered stay 0 (41_bitwidth_converter.md R133). -/
def packByte (order : BitOrder) (bs : List Bit) : Byte := packFrom order 0 bs

/-- The eight bits of a byte in a bit buffer's order (41_bitwidth_converter.md R134). -/
def unpackByte (order : BitOrder) (v : Byte) : List Bit :=
  (List.range 8).map fun k => v.getLsbD (shift order k)

/-- The storage unit at index `i`: content, or a unit written and not yet produced; `none` where the storage is
unspecified (10_state.md R22). -/
def Fifo.cell {α : Type} (q : Fifo α) (i : Nat) : Option α :=
  if i < q.filled then q.content[i]? else (q.staged[i - q.filled]?).join

/-- Bit `p` of the physical byte `B.data[q]` (20_memory.md R51, R55): in a bit mode it is the unit `8q + k` with
`shift(mode, k) = p`, and `k = shift(mode, p)` since `shift` is its own inverse. -/
def BitBuffer.dataBit (B : BitBuffer) (q p : Nat) : Option Bit :=
  match B.store with
  | .bytes f => (f.cell q).map fun v => v.getLsbD p
  | .bits order f => f.cell (8 * q + shift order p)
  | .reserved => none

/-- The physical byte `B.data[q]` where all eight of its bits are specified (20_memory.md R55). -/
def BitBuffer.dataByte (B : BitBuffer) (q : Nat) : Option Byte :=
  ((List.range 8).mapM fun p => B.dataBit q p).map (packByte .lsb)

/-- `rc[2:0]` (30_encoding.md R84). -/
def ResultCode.number : ResultCode → BitVec 3
  | .ok => 0
  | .reset => 1
  | .invalidInputType => 2
  | .invalidOutputType => 3
  | .needInputData => 4
  | .needOutputSpace => 5

/-- `FD.st[2:0]` (30_encoding.md R85). -/
def FdState.number : FdState → BitVec 3
  | .init => 0
  | .leadOnes => 1
  | .extraZero => 2
  | .data => 3
  | .trailing => 4

/-- A transcoder's registers as a caller reads them (10_state.md R32, 30_encoding.md R89). -/
def Xc.register (x : Xc) : Reg → Option Byte
  | .flush => some (if x.flush then 1 else 0)
  | _ => none

/-- A biphase-mark encoder's registers as a caller reads them (10_state.md R32). -/
def BiphaseEnc.register (x : BiphaseEnc) : Reg → Option Byte
  | .phase => some (if x.phase then 1 else 0)
  | _ => none

/-- A frame encoder's registers as a caller reads them (10_state.md R32). -/
def FrameEnc.register (x : FrameEnc) : Reg → Option Byte
  | .preambleEmitted => some (if x.preambleEmitted then 1 else 0)
  | .z => some x.z
  | .o => some x.o
  | _ => none

/-- A frame decoder's registers as a caller reads them (10_state.md R32). -/
def FrameDec.register (x : FrameDec) : Reg → Option Byte
  | .st => some (x.st.number.setWidth 8)
  | _ => none

end Sys2Proof.Machine
end

