-- ==== Sys2Proof/Machine/Flags.lean ====
section
/-! DEFINITION. Every computation of a flag (10_state.md R31): the clock phase, the preamble flag, the flush flag. -/

namespace Sys2Proof.Machine

/-- The unconditional toggle, `phase <- 1 - phase` (42_biphase_mark.md R151). -/
def phaseToggle (phase : Bit) : Bit := !phase

/-- The data-dependent change, `phase <- (phase + b) mod 2` (42_biphase_mark.md R151, R153). -/
def phaseData (phase b : Bit) : Bit := xor phase b

/-- `BMC_ENC.RESET`: the phase is 1 (42_biphase_mark.md R150). -/
def BiphaseEnc.reset (_ : BiphaseEnc) : BiphaseEnc := { phase := true }

/-- `XC.RESET`: the flush flag is 0 (41_bitwidth_converter.md R130). -/
def Xc.reset (x : Xc) : Xc := { x with flush := false }

/-- The flush flag set to a value, by `XC.CONFIG` or by a pipeline (41_bitwidth_converter.md R131, 45_pipeline.md R223). -/
def Xc.setFlush (x : Xc) (f : Bool) : Xc := { x with flush := f }

/-- `FRAME_ENC.RESET`: the preamble is owed again; Z and O are kept (43_frame_encoder.md R170). -/
def FrameEnc.reset (x : FrameEnc) : FrameEnc := { x with preambleEmitted := false }

/-- The preamble flag after a successful `FRAME_ENC.PROCESS` (43_frame_encoder.md R172). -/
def FrameEnc.emitted (x : FrameEnc) : FrameEnc := { x with preambleEmitted := true }

/-- `FRAME_ENC.CONFIG`: register 3 is Z, register 4 is O; no other register may be written (43_frame_encoder.md R171). -/
def FrameEnc.config (x : FrameEnc) (reg : Reg) (val : Byte) : Option FrameEnc :=
  match reg with
  | .z => some { x with z := val }
  | .o => some { x with o := val }
  | .flush => none
  | .phase => none
  | .preambleEmitted => none
  | .st => none

/-- `FRAME_DEC.RESET`: the state is INIT (44_frame_decoder.md R190). -/
def FrameDec.reset (_ : FrameDec) : FrameDec := { st := .init }

end Sys2Proof.Machine
end

