-- ==== Sys2Proof/Machine/Ops.lean ====
section
/-! DEFINITION. The operations everything else is made of: the buffer primitives (40_bitbuffer_ops.md), the handing
back of a result (the block's only counterpart of taking an exception, 60_exceptions.md R243), the updates of State,
the loop of a looping stage, and the frame of a PROCESS transaction. -/

namespace Sys2Proof.Machine

/-! ### Buffer primitives on a sequence of units -/

/-- `readUnit` (R110): the unit at an offset from the start of the content, where there is one. -/
def Fifo.read? {α : Type} (q : Fifo α) (off : Nat) : Option α := q.content[off]?

/-- Storage with the unit at one write offset set. -/
def stageAt {α : Type} : List (Option α) → Nat → α → List (Option α)
  | [], 0, v => [some v]
  | [], k + 1, v => none :: stageAt [] k v
  | _ :: t, 0, v => some v :: t
  | h :: t, k + 1, v => h :: stageAt t k v

/-- `writeUnit` (R111): the offset counts from the end of the content; `filled` does not change. -/
def Fifo.writeUnit {α : Type} (q : Fifo α) (off : Nat) (v : α) : Fifo α :=
  { q with staged := stageAt q.staged off v }

/-- `hasAvailable` (R112). -/
def Fifo.hasAvailable {α : Type} (q : Fifo α) (off n : Nat) : Bool := decide (off + n ≤ q.filled)

/-- `hasSpace` (R113), for a buffer of `cap` units. -/
def Fifo.hasSpace {α : Type} (q : Fifo α) (cap off n : Nat) : Bool := decide (q.filled + off + n ≤ cap)

/-- `consume` (R114): the first `n` units go; the storage behind the new content is unspecified unless nothing moved. -/
def Fifo.consume {α : Type} (q : Fifo α) (n : Nat) : Fifo α :=
  if n = 0 then q else { content := q.content.drop n, staged := [] }

/-- `produce` (R115): the units at write offsets 0 .. n-1 become the last `n` of the content. One that was never
written is the free value `free j` for its offset `j` (93_implementation_defined.md U2). -/
def Fifo.produce {α : Type} (free : Nat → α) (q : Fifo α) (n : Nat) : Fifo α :=
  { content := q.content ++ (List.range n).map fun j => ((q.staged[j]?).join).getD (free j)
    staged := q.staged.drop n }

/-- `writeUnit` at offsets 0, 1, ... and one `produce` of them all: how every stage puts out units (R115, last
sentence). -/
def Fifo.emit {α : Type} (q : Fifo α) (us : List α) : Fifo α :=
  { content := q.content ++ us, staged := q.staged.drop us.length }

/-! ### Buffer primitives on a BitBuffer -/

/-- A pipeline RESET's `filled <- 0`, storage unspecified (45_pipeline.md R226, R227). -/
def BitBuffer.cleared (B : BitBuffer) : BitBuffer :=
  match B.store with
  | .bytes _ => { B with store := .bytes .empty }
  | .bits order _ => { B with store := .bits order .empty }
  | .reserved => B

/-- The canonical form of a fifo of `cap` units: content and staged units fit (10_state.md R21), and the staged list
does not end in an unspecified unit. -/
def Fifo.wf {α : Type} (q : Fifo α) (cap : Nat) : Bool :=
  decide (q.content.length + q.staged.length ≤ cap) &&
    match q.staged.getLast? with
    | some none => false
    | _ => true

/-- The canonical form of a buffer. -/
def BitBuffer.wf (B : BitBuffer) : Bool :=
  match B.store with
  | .bytes q => q.wf B.nbytes
  | .bits _ q => q.wf (8 * B.nbytes)
  | .reserved => true

/-- The canonical form of the caller's store. -/
def Memory.wf (m : Memory) : Bool := m.all BitBuffer.wf

/-! ### State updates -/

/-- The transaction hands back its output and is over. Nothing else is saved, no mode changes, there is no handler and
no return (60_exceptions.md R240, R243, R245). -/
def State.respond (s : State) (r : Response) : State := { s with response := some r }

/-- One transcoder put back under its reference. -/
def State.putXc (s : State) (k : Nat) (x : Xc) : State := { s with xcs := s.xcs.set k x }
/-- One biphase-mark encoder put back under its reference. -/
def State.putBe (s : State) (k : Nat) (x : BiphaseEnc) : State := { s with bes := s.bes.set k x }
/-- One frame encoder put back under its reference. -/
def State.putFe (s : State) (k : Nat) (x : FrameEnc) : State := { s with fes := s.fes.set k x }
/-- One frame decoder put back under its reference. -/
def State.putFd (s : State) (k : Nat) (x : FrameDec) : State := { s with fds := s.fds.set k x }
/-- One encode session put back under its reference. -/
def State.putEnc (s : State) (k : Nat) (x : EncSession) : State := { s with encs := s.encs.set k x }
/-- One decode session put back under its reference. -/
def State.putDec (s : State) (k : Nat) (x : DecSession) : State := { s with decs := s.decs.set k x }
/-- One buffer of the caller's put back under its reference. -/
def State.putBuf (s : State) (k : Nat) (B : BitBuffer) : State := { s with bufs := s.bufs.set k B }

/-- `n` free values of unspecified storage have been drawn (93_implementation_defined.md U2; log entry 6). -/
def State.draw (s : State) (n : Nat) : State := { s with fresh := s.fresh + n }

/-- The next thing the caller asks for, taken off the list (10_state.md R24 (a)). -/
def State.takeCall (s : State) : Option (Call × State) :=
  match s.calls with
  | [] => none
  | c :: rest => some (c, { s with calls := rest })

/-- The caller makes a buffer, a stand-alone unit or a session: it joins those of its kind, as at power-on
(10_state.md R37, 70_reset_and_hazards.md R272 (1); log entry 14). -/
def State.create (s : State) : Creation → State
  | .buffer mode nbytes => { s with bufs := s.bufs ++ [.make mode nbytes] }
  | .xc => { s with xcs := s.xcs ++ [.powerOn] }
  | .bmcEnc => { s with bes := s.bes ++ [.powerOn] }
  | .frameEnc => { s with fes := s.fes ++ [.powerOn] }
  | .frameDec => { s with fds := s.fds ++ [.powerOn] }
  | .encSession p => { s with encs := s.encs ++ [.powerOn p] }
  | .decSession p => { s with decs := s.decs ++ [.powerOn p] }

/-! ### Stages

A PROCESS is handed references to an input and an output buffer (30_encoding.md R90). Each stage is written once, as the
acts it does: what it consumes at the head of its input and what it puts out. The acts are then done on two buffers, or,
where both references name one buffer, on that one: first put out, then consumed, as the pseudocode of every stage has it
(log entry 8). -/

/-- What a transaction on two buffers gives back (00_scope.md R10): the result code, the unit state, the two buffers. -/
structure StageResult (σ : Type) where
  code : ResultCode
  st   : σ
  inp  : BitBuffer
  out  : BitBuffer
  deriving DecidableEq, Repr

/-- What a transaction on one buffer gives back. -/
structure OneResult (σ : Type) where
  code : ResultCode
  st   : σ
  buf  : BitBuffer
  deriving DecidableEq, Repr

/-- The result on two buffers' units themselves, once the modes are known to be acceptable. -/
structure FifoResult (σ α β : Type) where
  code : ResultCode
  st   : σ
  inp  : Fifo α
  out  : Fifo β
  deriving DecidableEq, Repr

/-- The same on one buffer's units. -/
structure OneFifoResult (σ α : Type) where
  code : ResultCode
  st   : σ
  buf  : Fifo α
  deriving DecidableEq, Repr

/-- What one try of a looping stage's step gives (41_bitwidth_converter.md R135, 42_biphase_mark.md R151, R155): it puts
out `us` and consumes `n`, or it is blocked, on input or on output, and does nothing. -/
inductive StepTry (σ β : Type) where
  | done (st : σ) (n : Nat) (us : List β)
  | blocked (rc : ResultCode)
  deriving DecidableEq, Repr

/-- The last thing an atomic stage does in a transaction: it puts out `us`, consumes `n` and returns (43_frame_encoder.md
R172, 44_frame_decoder.md R195). -/
structure Act (σ β : Type) where
  code : ResultCode
  st   : σ
  n    : Nat
  us   : List β
  deriving DecidableEq, Repr

/-- An act that returns a code and does nothing. -/
def Act.none {σ β : Type} (code : ResultCode) (st : σ) : Act σ β := { code := code, st := st, n := 0, us := [] }

/-- An act on two buffers. -/
def Act.two {σ α β : Type} (a : Act σ β) (i : Fifo α) (o : Fifo β) : FifoResult σ α β :=
  { code := a.code, st := a.st, inp := i.consume a.n, out := o.emit a.us }

/-- An act on one buffer. -/
def Act.one {σ α : Type} (a : Act σ α) (q : Fifo α) : OneFifoResult σ α :=
  { code := a.code, st := a.st, buf := (q.emit a.us).consume a.n }

/-- The loop of a looping stage: step after step until one is blocked; OK if at least one was done, else the blocking
code (41_bitwidth_converter.md R135; 92_eei_decisions.md D4). `progress` says whether one was done before. The
first argument bounds the number of steps: each consumes at least one unit, so `filled + 1` is never reached
(log entry 16). -/
def loopSteps {σ α β : Type} (try1 : σ → Fifo α → Fifo β → StepTry σ β) :
    Nat → Bool → σ → Fifo α → Fifo β → FifoResult σ α β
  | 0, progress, st, i, o => { code := if progress then .ok else .needInputData, st := st, inp := i, out := o }
  | fuel + 1, progress, st, i, o =>
    match try1 st i o with
    | .done st' n us => loopSteps try1 fuel true st' (i.consume n) (o.emit us)
    | .blocked rc => { code := if progress then .ok else rc, st := st, inp := i, out := o }

/-- A looping stage's whole transaction on the units of two buffers. -/
def runLoop {σ α β : Type} (try1 : σ → Fifo α → Fifo β → StepTry σ β) (st : σ) (i : Fifo α) (o : Fifo β) :
    FifoResult σ α β :=
  loopSteps try1 (i.filled + 1) false st i o

/-- The same loop where input and output are one buffer; `none` where it is still going on after the number of steps
given. -/
def loopOne {σ α : Type} (try1 : σ → Fifo α → Fifo α → StepTry σ α) :
    Nat → Bool → σ → Fifo α → Option (OneFifoResult σ α)
  | 0, _, _, _ => none
  | fuel + 1, progress, st, q =>
    match try1 st q q with
    | .done st' n us => loopOne try1 fuel true st' ((q.emit us).consume n)
    | .blocked rc => some { code := if progress then .ok else rc, st := st, buf := q }

/-- A looping stage's whole transaction on the units of one buffer of `cap` units. A loop that changes the number of
units by one at each step ends within `filled + cap` steps; one that keeps it never ends (log entry 16). -/
def runOne {σ α : Type} (try1 : σ → Fifo α → Fifo α → StepTry σ α) (cap : Nat) (st : σ) (q : Fifo α) :
    Option (OneFifoResult σ α) :=
  loopOne try1 (q.filled + cap + 1) false st q

/-- A stage that works on bit-addressed buffers only: the input's mode is tested first, then the output's
(30_encoding.md R91, 60_exceptions.md R244). `body` gets the output's capacity in bits. -/
def onBits {σ : Type} (st : σ) (i o : BitBuffer) (body : Nat → Fifo Bit → Fifo Bit → FifoResult σ Bit Bit) :
    StageResult σ :=
  match i.store with
  | .bits iOrder iq =>
    match o.store with
    | .bits oOrder oq =>
      let r := body o.capacity iq oq
      { code := r.code, st := r.st, inp := { i with store := .bits iOrder r.inp },
        out := { o with store := .bits oOrder r.out } }
    | .bytes _ => { code := .invalidOutputType, st := st, inp := i, out := o }
    | .reserved => { code := .invalidOutputType, st := st, inp := i, out := o }
  | .bytes _ => { code := .invalidInputType, st := st, inp := i, out := o }
  | .reserved => { code := .invalidInputType, st := st, inp := i, out := o }

/-- The same stage on one buffer. -/
def onOneBits {σ : Type} (st : σ) (b : BitBuffer) (body : Nat → Fifo Bit → Option (OneFifoResult σ Bit)) :
    Option (OneResult σ) :=
  match b.store with
  | .bits order q =>
    (body b.capacity q).map fun r => { code := r.code, st := r.st, buf := { b with store := .bits order r.buf } }
  | .bytes _ => some { code := .invalidInputType, st := st, buf := b }
  | .reserved => some { code := .invalidInputType, st := st, buf := b }

/-- A PROCESS transaction of the machine: the two references are resolved, the stage runs on the two buffers, or on the
one that both name, its unit state and buffers are put back and the code is handed to the caller. `one` gives `none`
where the stage's loop never ends. -/
def State.process {σ : Type} (s : State) (inp out : Nat) (two : BitBuffer → BitBuffer → StageResult σ)
    (one : BitBuffer → Option (OneResult σ)) (save : State → σ → State) : Host.Outcome State Fault Refusal :=
  match s.bufs[inp]? with
  | none => .refused (.noSuchBuffer inp)
  | some i =>
    match s.bufs[out]? with
    | none => .refused (.noSuchBuffer out)
    | some o =>
      if inp = out then
        match one i with
        | none => .fault .neverEnds
        | some r => .next (((save s r.st).putBuf inp r.buf).respond (.code r.code))
      else
        let r := two i o
        .next ((((save s r.st).putBuf inp r.inp).putBuf out r.out).respond (.code r.code))

/-- An operation on the stand-alone unit or session that a reference names. -/
def withUnit {σ : Type} (units : List σ) (ref : Nat) (k : σ → Host.Outcome State Fault Refusal) :
    Host.Outcome State Fault Refusal :=
  match units[ref]? with
  | none => .refused (.noSuchUnit ref)
  | some u => k u

/-- An operation on the caller's buffer that a reference names. -/
def withBuffer (s : State) (ref : Nat) (k : BitBuffer → Host.Outcome State Fault Refusal) :
    Host.Outcome State Fault Refusal :=
  match s.bufs[ref]? with
  | none => .refused (.noSuchBuffer ref)
  | some B => k B

end Sys2Proof.Machine
end

