-- ==== Sys2Proof/Machine/Buf.lean ====
section
/-! DEFINITION. The six BitBuffer primitives as a caller invokes them (40_bitbuffer_ops.md R110 to R117). A false
precondition is a fault (R116); a primitive on a reserved-mode buffer is one too (93_implementation_defined.md U5). -/

namespace Sys2Proof.Machine

/-- `BUF.READ` (R110). -/
def execBufRead (buf off : Nat) (s : State) : Host.Outcome State Fault Refusal :=
  withBuffer s buf fun B =>
    match B.store with
    | .bytes q =>
      match q.read? off with
      | some v => .next (s.respond (.value v.toNat))
      | none => .fault .readPastContent
    | .bits _ q =>
      match q.read? off with
      | some b => .next (s.respond (.value b.toNat))
      | none => .fault .readPastContent
    | .reserved => .fault .reservedMode

/-- `BUF.WRITE` (R111). -/
def execBufWrite (buf off v : Nat) (s : State) : Host.Outcome State Fault Refusal :=
  withBuffer s buf fun B =>
    match B.store with
    | .bytes q =>
      if q.filled + off < B.capacity then
        if v < 256 then
          .next ((s.putBuf buf { B with store := .bytes (q.writeUnit off (BitVec.ofNat 8 v)) }).respond .nothing)
        else .fault .valueNotAUnit
      else .fault .writePastCapacity
    | .bits order q =>
      if q.filled + off < B.capacity then
        if v < 2 then
          .next ((s.putBuf buf { B with store := .bits order (q.writeUnit off (decide (v = 1))) }).respond .nothing)
        else .fault .valueNotAUnit
      else .fault .writePastCapacity
    | .reserved => .fault .reservedMode

/-- `BUF.HASAVAIL` (R112). -/
def execBufHasAvail (buf off n : Nat) (s : State) : Host.Outcome State Fault Refusal :=
  withBuffer s buf fun B =>
    match B.store with
    | .bytes q => .next (s.respond (.truth (q.hasAvailable off n)))
    | .bits _ q => .next (s.respond (.truth (q.hasAvailable off n)))
    | .reserved => .fault .reservedMode

/-- `BUF.HASSPACE` (R113). -/
def execBufHasSpace (buf off n : Nat) (s : State) : Host.Outcome State Fault Refusal :=
  withBuffer s buf fun B =>
    match B.store with
    | .bytes q => .next (s.respond (.truth (q.hasSpace B.capacity off n)))
    | .bits _ q => .next (s.respond (.truth (q.hasSpace B.capacity off n)))
    | .reserved => .fault .reservedMode

/-- `BUF.CONSUME` (R114). -/
def execBufConsume (buf n : Nat) (s : State) : Host.Outcome State Fault Refusal :=
  withBuffer s buf fun B =>
    match B.store with
    | .bytes q =>
      if n ≤ q.filled then .next ((s.putBuf buf { B with store := .bytes (q.consume n) }).respond .nothing)
      else .fault .consumePastContent
    | .bits order q =>
      if n ≤ q.filled then .next ((s.putBuf buf { B with store := .bits order (q.consume n) }).respond .nothing)
      else .fault .consumePastContent
    | .reserved => .fault .reservedMode

/-- `BUF.PRODUCE` (R115). The unit at write offset `j`, if it was never written, is free value number `fresh + j`
(93_implementation_defined.md U2; log entry 6). -/
def execBufProduce (buf n : Nat) (s : State) : Host.Outcome State Fault Refusal :=
  withBuffer s buf fun B =>
    match B.store with
    | .bytes q =>
      if q.filled + n ≤ B.capacity then
        let q' := q.produce (fun j => Config.freeByte (s.fresh + j)) n
        .next (((s.putBuf buf { B with store := .bytes q' }).draw n).respond .nothing)
      else .fault .producePastCapacity
    | .bits order q =>
      if q.filled + n ≤ B.capacity then
        let q' := q.produce (fun j => Config.freeBit (s.fresh + j)) n
        .next (((s.putBuf buf { B with store := .bits order q' }).draw n).respond .nothing)
      else .fault .producePastCapacity
    | .reserved => .fault .reservedMode

end Sys2Proof.Machine
end

