-- ==== Sys2Proof/Machine/Biphase.lean ====
section
/-! DEFINITION. biphase_mark_encoder and biphase_mark_decoder (42_biphase_mark.md). -/

namespace Sys2Proof.Machine

/-- One step of the encoder (R151): one data bit becomes two line bits, and the phase is the second of them. -/
def bmcEncStep (cap : Nat) (be : BiphaseEnc) (i o : Fifo Bit) : StepTry BiphaseEnc Bit :=
  match i.read? 0 with
  | none => .blocked .needInputData
  | some b =>
    if o.hasSpace cap 0 2 then
      let h0 := phaseToggle be.phase
      let h1 := phaseData h0 b
      .done { phase := h1 } 1 [h0, h1]
    else .blocked .needOutputSpace

/-- One step of the decoder (R155): two line bits become their exclusive or. -/
def bmcDecStep (cap : Nat) (st : Unit) (i o : Fifo Bit) : StepTry Unit Bit :=
  match i.read? 0, i.read? 1 with
  | some h0, some h1 =>
    if o.hasSpace cap 0 1 then .done st 2 [xor h0 h1] else .blocked .needOutputSpace
  | _, _ => .blocked .needInputData

/-- `BMC_ENC.PROCESS` on its two buffers (R151). -/
def bmcEncProcess (be : BiphaseEnc) (i o : BitBuffer) : StageResult BiphaseEnc :=
  onBits be i o fun cap iq oq => runLoop (bmcEncStep cap) be iq oq

/-- `BMC_DEC.PROCESS` on its two buffers (R155); the decoder is stateless (10_state.md R26). -/
def bmcDecProcess (i o : BitBuffer) : StageResult Unit :=
  onBits () i o fun cap iq oq => runLoop (bmcDecStep cap) () iq oq

/-- `BMC_ENC.PROCESS` where both references name one buffer. -/
def bmcEncOne (be : BiphaseEnc) (b : BitBuffer) : Option (OneResult BiphaseEnc) :=
  onOneBits be b fun cap q => runOne (bmcEncStep cap) cap be q

/-- `BMC_DEC.PROCESS` where both references name one buffer. -/
def bmcDecOne (b : BitBuffer) : Option (OneResult Unit) :=
  onOneBits () b fun cap q => runOne (bmcDecStep cap) cap () q

/-- `BMC_ENC.RESET` (R150). -/
def execBmcEncReset (be : Nat) (s : State) : Host.Outcome State Fault Refusal :=
  withUnit s.bes be fun x => .next ((s.putBe be x.reset).respond (.code .reset))

/-- `BMC_ENC.PROCESS` (R151). -/
def execBmcEncProcess (be inp out : Nat) (s : State) : Host.Outcome State Fault Refusal :=
  withUnit s.bes be fun x => s.process inp out (bmcEncProcess x) (bmcEncOne x) fun s' x' => s'.putBe be x'

/-- `BMC_DEC.RESET` (R154): changes nothing. -/
def execBmcDecReset (s : State) : Host.Outcome State Fault Refusal :=
  .next (s.respond (.code .reset))

/-- `BMC_DEC.PROCESS` (R155). -/
def execBmcDecProcess (inp out : Nat) (s : State) : Host.Outcome State Fault Refusal :=
  s.process inp out bmcDecProcess bmcDecOne fun s' _ => s'

end Sys2Proof.Machine
end

