-- ==== Sys2Proof/Machine/FrameDecoder.lean ====
section
/-! DEFINITION. frame_sync_fsm and bit_destuffer (44_frame_decoder.md). -/

namespace Sys2Proof.Machine

/-- The bit destuffer with `c` consecutive 1-bits emitted so far (R196). -/
def destuffFrom (c : Nat) : List Bit → List Bit
  | [] => []
  | true :: bs => true :: destuffFrom (c + 1) bs
  | false :: bs => if Config.stuffThreshold ≤ c then destuffFrom 0 bs else false :: destuffFrom 0 bs

/-- `destuff` (R196): the counter is a local that starts at 0 (10_state.md R30). -/
def destuff (bs : List Bit) : List Bit := destuffFrom 0 bs

/-- `scanRun` (before R192): the value and the length of the initial run, where there is one that is confirmed, that
is where a bit of the other value follows it. -/
def confirmedRun (bs : List Bit) : Option (Bit × Nat) :=
  match bs with
  | [] => none
  | v :: t =>
    let r := 1 + (t.takeWhile (· == v)).length
    if r < bs.length then some (v, r) else none

/-- The least index at which END-OF-FRAME stands (R195). -/
def findMarker : List Bit → Option Nat
  | [] => none
  | b :: bs => if Config.eofMarker.isPrefixOf (b :: bs) then some 0 else (findMarker bs).map (· + 1)

/-- What one state's step gives (R191): it goes on, having consumed `n` units and perhaps gone to another state, or it
returns. -/
inductive FdStep where
  | goOn (st : FdState) (n : Nat)
  | ret (a : Act FdState Bit)
  deriving DecidableEq, Repr

/-- State INIT (R192). -/
def stepInit (i : Fifo Bit) : FdStep :=
  match confirmedRun i.content with
  | none => .ret (.none .needInputData .init)
  | some (v, r) => .goOn (if v = false ∧ Config.syncMinZeros ≤ r then .leadOnes else .init) r

/-- State LEAD_ONES (R193). -/
def stepLeadOnes (i : Fifo Bit) : FdStep :=
  match confirmedRun i.content with
  | none => .ret (.none .needInputData .leadOnes)
  | some (v, r) => .goOn (if v = true ∧ Config.syncMinOnes ≤ r then .extraZero else .init) r

/-- State EXTRA_ZERO (R194): the bit is not examined. -/
def stepExtraZero (i : Fifo Bit) : FdStep :=
  if i.hasAvailable 0 1 then .goOn .data 1 else .ret (.none .needInputData .extraZero)

/-- State DATA (R195): the first marker ends the frame; without one, 128 buffered bits are discarded. -/
def stepData (cap : Nat) (i o : Fifo Bit) : FdStep :=
  match findMarker i.content with
  | none =>
    .ret (if Config.watchdogBits ≤ i.filled then { code := .needInputData, st := .init, n := i.filled, us := [] }
      else .none .needInputData .data)
  | some p =>
    let y := destuff (i.content.take p)
    .ret (if o.hasSpace cap 0 y.length then { code := .ok, st := .trailing, n := p + Config.eofMarker.length, us := y }
      else .none .needOutputSpace .data)

/-- State TRAILING (R197): the seven bits are not compared with the separator. -/
def stepTrailing (i : Fifo Bit) : FdStep :=
  if i.hasAvailable 0 Config.sepLen then .goOn .data Config.sepLen else .ret (.none .needInputData .trailing)

/-- The step of the current state (R191); `cap` and `o` are the output's. -/
def fdStep (cap : Nat) (st : FdState) (i o : Fifo Bit) : FdStep :=
  match st with
  | .init => stepInit i
  | .leadOnes => stepLeadOnes i
  | .extraZero => stepExtraZero i
  | .data => stepData cap i o
  | .trailing => stepTrailing i

/-- The loop of R191. The first argument bounds the rounds: each that goes on consumes at least one bit, so
`filled + 1` rounds always reach a return (log entry 16). -/
def fdLoop (cap : Nat) : Nat → FdState → Fifo Bit → Fifo Bit → FifoResult FdState Bit Bit
  | 0, st, i, o => { code := .needInputData, st := st, inp := i, out := o }
  | fuel + 1, st, i, o =>
    match fdStep cap st i o with
    | .goOn st' n => fdLoop cap fuel st' (i.consume n) o
    | .ret a => a.two i o

/-- The same loop where input and output are one buffer. -/
def fdLoopOne (cap : Nat) : Nat → FdState → Fifo Bit → OneFifoResult FdState Bit
  | 0, st, q => { code := .needInputData, st := st, buf := q }
  | fuel + 1, st, q =>
    match fdStep cap st q q with
    | .goOn st' n => fdLoopOne cap fuel st' (q.consume n)
    | .ret a => a.one q

/-- `FRAME_DEC.PROCESS` on its two buffers (R191). -/
def frameDecProcess (fd : FrameDec) (i o : BitBuffer) : StageResult FrameDec :=
  onBits fd i o fun cap iq oq =>
    let r := fdLoop cap (iq.filled + 1) fd.st iq oq
    { code := r.code, st := { st := r.st }, inp := r.inp, out := r.out }

/-- `FRAME_DEC.PROCESS` where both references name one buffer. -/
def frameDecOne (fd : FrameDec) (b : BitBuffer) : Option (OneResult FrameDec) :=
  onOneBits fd b fun cap q =>
    let r := fdLoopOne cap (q.filled + 1) fd.st q
    some { code := r.code, st := { st := r.st }, buf := r.buf }

/-- `FRAME_DEC.RESET` (R190). -/
def execFrameDecReset (fd : Nat) (s : State) : Host.Outcome State Fault Refusal :=
  withUnit s.fds fd fun x => .next ((s.putFd fd x.reset).respond (.code .reset))

/-- `FRAME_DEC.PROCESS` (R191). -/
def execFrameDecProcess (fd inp out : Nat) (s : State) : Host.Outcome State Fault Refusal :=
  withUnit s.fds fd fun x => s.process inp out (frameDecProcess x) (frameDecOne x) fun s' x' => s'.putFd fd x'

end Sys2Proof.Machine
end

