-- ==== Sys2Proof/Machine/FrameEncoder.lean ====
section
/-! DEFINITION. streaming_framer_with_preamble and bit_stuffer (43_frame_encoder.md). -/

namespace Sys2Proof.Machine

/-- The bit stuffer with `c` consecutive 1-bits written so far (R173). -/
def stuffFrom (c : Nat) : List Bit → List Bit
  | [] => []
  | true :: bs =>
    if c + 1 = Config.stuffThreshold then true :: false :: stuffFrom 0 bs else true :: stuffFrom (c + 1) bs
  | false :: bs => false :: stuffFrom 0 bs

/-- `stuff` (R173): the counter is a local that starts at 0 (10_state.md R30). -/
def stuff (bs : List Bit) : List Bit := stuffFrom 0 bs

/-- The preamble: Z zeros, O ones, one extra zero (30_encoding.md R80, R172). -/
def FrameEnc.preamble (fe : FrameEnc) : List Bit :=
  List.replicate fe.z.toNat false ++ List.replicate fe.o.toNat true ++ [false]

/-- The frame of one call (R172): the preamble only if it is still owed, the body, the two markers. -/
def FrameEnc.frame (fe : FrameEnc) (bs : List Bit) : List Bit :=
  (if fe.preambleEmitted then [] else fe.preamble) ++ stuff bs ++ Config.eofMarker ++ Config.sepMarker

/-- What `FRAME_ENC.PROCESS` does (R172): all the bits present become one frame, or nothing happens. -/
def frameEncAct (fe : FrameEnc) (cap : Nat) (i o : Fifo Bit) : Act FrameEnc Bit :=
  if i.filled = 0 then .none .needInputData fe
  else
    let f := fe.frame i.content
    if o.hasSpace cap 0 f.length then { code := .ok, st := fe.emitted, n := i.filled, us := f }
    else .none .needOutputSpace fe

/-- `FRAME_ENC.PROCESS` on its two buffers (R172). -/
def frameEncProcess (fe : FrameEnc) (i o : BitBuffer) : StageResult FrameEnc :=
  onBits fe i o fun cap iq oq => (frameEncAct fe cap iq oq).two iq oq

/-- `FRAME_ENC.PROCESS` where both references name one buffer. -/
def frameEncOne (fe : FrameEnc) (b : BitBuffer) : Option (OneResult FrameEnc) :=
  onOneBits fe b fun cap q => some ((frameEncAct fe cap q q).one q)

/-- `FRAME_ENC.RESET` (R170). -/
def execFrameEncReset (fe : Nat) (s : State) : Host.Outcome State Fault Refusal :=
  withUnit s.fes fe fun x => .next ((s.putFe fe x.reset).respond (.code .reset))

/-- `FRAME_ENC.PROCESS` (R172). -/
def execFrameEncProcess (fe inp out : Nat) (s : State) : Host.Outcome State Fault Refusal :=
  withUnit s.fes fe fun x => s.process inp out (frameEncProcess x) (frameEncOne x) fun s' x' => s'.putFe fe x'

/-- `FRAME_ENC.CONFIG` (R171); a register that is not Z or O is refused (93_implementation_defined.md U10, U11). -/
def execFrameEncConfig (fe : Nat) (reg : Reg) (val : Byte) (s : State) : Host.Outcome State Fault Refusal :=
  withUnit s.fes fe fun x =>
    match x.config reg val with
    | some x' => .next ((s.putFe fe x').respond (.code .ok))
    | none => .refused (.registerNotWritable reg)

end Sys2Proof.Machine
end

