-- ==== Sys2Proof/Machine/Transcoder.lean ====
section
/-! DEFINITION. bitwidth_converter: XC.RESET, XC.PROCESS with its three cases, XC.CONFIG (41_bitwidth_converter.md). -/

namespace Sys2Proof.Machine

/-- One step of the like-to-like case (R132): one unit is copied. Blocked on input where no unit is available, on
output where `cap` units are filled. -/
def copyStep {σ α : Type} (cap : Nat) (st : σ) (i o : Fifo α) : StepTry σ α :=
  match i.read? 0 with
  | none => .blocked .needInputData
  | some u => if o.hasSpace cap 0 1 then .done st 1 [u] else .blocked .needOutputSpace

/-- One step of the bits-to-bytes case (R133): eight bits, or with the flush flag the one to seven that are left. -/
def packStep (order : BitOrder) (cap : Nat) (x : Xc) (i : Fifo Bit) (o : Fifo Byte) : StepTry Xc Byte :=
  let k := min 8 i.filled
  if (if x.flush then 1 else 8) ≤ k then
    if o.hasSpace cap 0 1 then .done x k [packByte order (i.content.take k)]
    else .blocked .needOutputSpace
  else .blocked .needInputData

/-- One step of the bytes-to-bits case (R134): one byte becomes eight bits. -/
def unpackStep {σ : Type} (order : BitOrder) (cap : Nat) (st : σ) (i : Fifo Byte) (o : Fifo Bit) : StepTry σ Bit :=
  match i.read? 0 with
  | none => .blocked .needInputData
  | some v => if o.hasSpace cap 0 8 then .done st 1 (unpackByte order v) else .blocked .needOutputSpace

/-- `XC.PROCESS` on its two buffers (R135): the modes select the case; only the reserved mode is of no valid type
(30_encoding.md R91). -/
def xcProcess (x : Xc) (i o : BitBuffer) : StageResult Xc :=
  match i.store with
  | .bytes iq =>
    match o.store with
    | .bytes oq =>
      let r := runLoop (copyStep o.capacity) x iq oq
      { code := r.code, st := r.st, inp := { i with store := .bytes r.inp }, out := { o with store := .bytes r.out } }
    | .bits oOrder oq =>
      let r := runLoop (unpackStep oOrder o.capacity) x iq oq
      { code := r.code, st := r.st, inp := { i with store := .bytes r.inp },
        out := { o with store := .bits oOrder r.out } }
    | .reserved => { code := .invalidOutputType, st := x, inp := i, out := o }
  | .bits iOrder iq =>
    match o.store with
    | .bytes oq =>
      let r := runLoop (packStep iOrder o.capacity) x iq oq
      { code := r.code, st := r.st, inp := { i with store := .bits iOrder r.inp },
        out := { o with store := .bytes r.out } }
    | .bits oOrder oq =>
      let r := runLoop (copyStep o.capacity) x iq oq
      { code := r.code, st := r.st, inp := { i with store := .bits iOrder r.inp },
        out := { o with store := .bits oOrder r.out } }
    | .reserved => { code := .invalidOutputType, st := x, inp := i, out := o }
  | .reserved => { code := .invalidInputType, st := x, inp := i, out := o }

/-- `XC.PROCESS` where both references name one buffer: its two modes are alike, so the case is R132's. -/
def xcOne (x : Xc) (b : BitBuffer) : Option (OneResult Xc) :=
  match b.store with
  | .bytes q =>
    (runOne (copyStep b.capacity) b.capacity x q).map fun r =>
      { code := r.code, st := r.st, buf := { b with store := .bytes r.buf } }
  | .bits order q =>
    (runOne (copyStep b.capacity) b.capacity x q).map fun r =>
      { code := r.code, st := r.st, buf := { b with store := .bits order r.buf } }
  | .reserved => some { code := .invalidInputType, st := x, buf := b }

/-- `XC.RESET` (R130). -/
def execXcReset (xc : Nat) (s : State) : Host.Outcome State Fault Refusal :=
  withUnit s.xcs xc fun x => .next ((s.putXc xc x.reset).respond (.code .reset))

/-- `XC.PROCESS` (R135). -/
def execXcProcess (xc inp out : Nat) (s : State) : Host.Outcome State Fault Refusal :=
  withUnit s.xcs xc fun x => s.process inp out (xcProcess x) (xcOne x) fun s' x' => s'.putXc xc x'

/-- `XC.CONFIG` (R131): register 0, value 0 or 1; anything else is refused (93_implementation_defined.md U10, U11). -/
def execXcConfig (xc : Nat) (reg : Reg) (val : Byte) (s : State) : Host.Outcome State Fault Refusal :=
  withUnit s.xcs xc fun x =>
    if reg.xcWritable then
      if val.toNat ≤ 1 then .next ((s.putXc xc (x.setFlush (decide (val = 1)))).respond (.code .ok))
      else .refused (.flushNotABit val)
    else .refused (.registerNotWritable reg)

end Sys2Proof.Machine
end

