-- ==== Sys2Proof/Machine/Pipeline.lean ====
section
/-! DEFINITION. The two pipelines (45_pipeline.md): four stages in a fixed order through three buffers, each call from
stage 1, ended by the first stage whose code is not OK (R224, R225; 92_eei_decisions.md D29). -/

namespace Sys2Proof.Machine

/-- The flush operand copied into both transcoders before stage 1 (R223). -/
def EncSession.setFlush (e : EncSession) (f : Bool) : EncSession :=
  { e with xc1 := e.xc1.setFlush f, xc2 := e.xc2.setFlush f }

/-- The flush operand copied into both transcoders before stage 1 (R223). -/
def DecSession.setFlush (d : DecSession) (f : Bool) : DecSession :=
  { d with xc1 := d.xc1.setFlush f, xc2 := d.xc2.setFlush f }

/-- A pipeline on its two end buffers: `front` is stages 1 to 3 on the input, `back` stage 4 on the output. It ends with
the first stage that is not OK (R224, R225); a call that ends before stage 4 does not touch the output. -/
def pipeTwo {σ : Type} (front : BitBuffer → OneResult σ) (back : σ → BitBuffer → OneResult σ) (i o : BitBuffer) :
    StageResult σ :=
  let f := front i
  if f.code ≠ .ok then { code := f.code, st := f.st, inp := f.buf, out := o }
  else
    let b := back f.st o
    { code := b.code, st := b.st, inp := f.buf, out := b.buf }

/-- A pipeline whose two ends are one buffer: stage 4 puts out into what stage 1 left of it. -/
def pipeOne {σ : Type} (front : BitBuffer → OneResult σ) (back : σ → BitBuffer → OneResult σ) (b : BitBuffer) :
    OneResult σ :=
  let f := front b
  if f.code ≠ .ok then f else back f.st f.buf

/-- Stages 1 to 3 of `X2D_ENC.PROCESS` (R224). -/
def x2dEncFront (session : EncSession) (flush : Bool) (i : BitBuffer) : OneResult EncSession :=
  let e := session.setFlush flush
  let r1 := xcProcess e.xc1 i e.a
  let e1 := { e with xc1 := r1.st, a := r1.out }
  if r1.code ≠ .ok then { code := r1.code, st := e1, buf := r1.inp } else
  let r2 := frameEncProcess e1.fe e1.a e1.b
  let e2 := { e1 with fe := r2.st, a := r2.inp, b := r2.out }
  if r2.code ≠ .ok then { code := r2.code, st := e2, buf := r1.inp } else
  let r3 := bmcEncProcess e2.be e2.b e2.c
  { code := r3.code, st := { e2 with be := r3.st, b := r3.inp, c := r3.out }, buf := r1.inp }

/-- Stage 4 of `X2D_ENC.PROCESS` (R224). -/
def x2dEncBack (e : EncSession) (o : BitBuffer) : OneResult EncSession :=
  let r := xcProcess e.xc2 e.c o
  { code := r.code, st := { e with xc2 := r.st, c := r.inp }, buf := r.out }

/-- `X2D_ENC.PROCESS` on the session and the two end buffers (R224). -/
def x2dEncProcess (session : EncSession) (flush : Bool) (i o : BitBuffer) : StageResult EncSession :=
  pipeTwo (x2dEncFront session flush) x2dEncBack i o

/-- `X2D_ENC.PROCESS` where both references name one buffer. -/
def x2dEncOne (session : EncSession) (flush : Bool) (b : BitBuffer) : Option (OneResult EncSession) :=
  some (pipeOne (x2dEncFront session flush) x2dEncBack b)

/-- Stages 1 to 3 of `X2D_DEC.PROCESS` (R225). -/
def x2dDecFront (session : DecSession) (flush : Bool) (i : BitBuffer) : OneResult DecSession :=
  let d := session.setFlush flush
  let r1 := xcProcess d.xc1 i d.a
  let d1 := { d with xc1 := r1.st, a := r1.out }
  if r1.code ≠ .ok then { code := r1.code, st := d1, buf := r1.inp } else
  let r2 := bmcDecProcess d1.a d1.b
  let d2 := { d1 with a := r2.inp, b := r2.out }
  if r2.code ≠ .ok then { code := r2.code, st := d2, buf := r1.inp } else
  let r3 := frameDecProcess d2.fd d2.b d2.c
  { code := r3.code, st := { d2 with fd := r3.st, b := r3.inp, c := r3.out }, buf := r1.inp }

/-- Stage 4 of `X2D_DEC.PROCESS` (R225). -/
def x2dDecBack (d : DecSession) (o : BitBuffer) : OneResult DecSession :=
  let r := xcProcess d.xc2 d.c o
  { code := r.code, st := { d with xc2 := r.st, c := r.inp }, buf := r.out }

/-- `X2D_DEC.PROCESS` on the session and the two end buffers (R225). -/
def x2dDecProcess (session : DecSession) (flush : Bool) (i o : BitBuffer) : StageResult DecSession :=
  pipeTwo (x2dDecFront session flush) x2dDecBack i o

/-- `X2D_DEC.PROCESS` where both references name one buffer. -/
def x2dDecOne (session : DecSession) (flush : Bool) (b : BitBuffer) : Option (OneResult DecSession) :=
  some (pipeOne (x2dDecFront session flush) x2dDecBack b)

/-- `X2D_ENC.RESET` on the session (R226): the four stages' RESETs, and the three buffers emptied. -/
def EncSession.reset (e : EncSession) : EncSession :=
  { xc1 := e.xc1.reset, fe := e.fe.reset, be := e.be.reset, xc2 := e.xc2.reset,
    a := e.a.cleared, b := e.b.cleared, c := e.c.cleared }

/-- `X2D_DEC.RESET` on the session (R227). -/
def DecSession.reset (d : DecSession) : DecSession :=
  { xc1 := d.xc1.reset, fd := d.fd.reset, xc2 := d.xc2.reset,
    a := d.a.cleared, b := d.b.cleared, c := d.c.cleared }

/-- `X2D_ENC.RESET` (R226). -/
def execX2dEncReset (enc : Nat) (s : State) : Host.Outcome State Fault Refusal :=
  withUnit s.encs enc fun e => .next ((s.putEnc enc e.reset).respond (.code .reset))

/-- `X2D_ENC.PROCESS` (R224). -/
def execX2dEncProcess (enc inp out : Nat) (flush : Bool) (s : State) : Host.Outcome State Fault Refusal :=
  withUnit s.encs enc fun e => s.process inp out (x2dEncProcess e flush) (x2dEncOne e flush) fun s' e' => s'.putEnc enc e'

/-- `X2D_ENC.CONFIG` (R228): FRAME_ENC.CONFIG of the session's frame encoder. -/
def execX2dEncConfig (enc : Nat) (reg : Reg) (val : Byte) (s : State) : Host.Outcome State Fault Refusal :=
  withUnit s.encs enc fun e =>
    match e.fe.config reg val with
    | some fe' => .next ((s.putEnc enc { e with fe := fe' }).respond (.code .ok))
    | none => .refused (.registerNotWritable reg)

/-- `X2D_DEC.RESET` (R227). -/
def execX2dDecReset (dec : Nat) (s : State) : Host.Outcome State Fault Refusal :=
  withUnit s.decs dec fun d => .next ((s.putDec dec d.reset).respond (.code .reset))

/-- `X2D_DEC.PROCESS` (R225). -/
def execX2dDecProcess (dec inp out : Nat) (flush : Bool) (s : State) : Host.Outcome State Fault Refusal :=
  withUnit s.decs dec fun d => s.process inp out (x2dDecProcess d flush) (x2dDecOne d flush) fun s' d' => s'.putDec dec d'

end Sys2Proof.Machine
end

