-- ==== Sys2Proof/Machine/Dispatch.lean ====
section
/-! DEFINITION. One arm per operation of 30_encoding.md R88. -/

namespace Sys2Proof.Machine

def exec (i : Instr) (s : State) : Host.Outcome State Fault Refusal :=
  match i with
  | .bufRead buf off => Sys2Proof.Machine.execBufRead buf off s
  | .bufWrite buf off v => Sys2Proof.Machine.execBufWrite buf off v s
  | .bufHasAvail buf off n => Sys2Proof.Machine.execBufHasAvail buf off n s
  | .bufHasSpace buf off n => Sys2Proof.Machine.execBufHasSpace buf off n s
  | .bufConsume buf n => Sys2Proof.Machine.execBufConsume buf n s
  | .bufProduce buf n => Sys2Proof.Machine.execBufProduce buf n s
  | .xcReset xc => Sys2Proof.Machine.execXcReset xc s
  | .xcProcess xc inp out => Sys2Proof.Machine.execXcProcess xc inp out s
  | .xcConfig xc reg val => Sys2Proof.Machine.execXcConfig xc reg val s
  | .bmcEncReset be => Sys2Proof.Machine.execBmcEncReset be s
  | .bmcEncProcess be inp out => Sys2Proof.Machine.execBmcEncProcess be inp out s
  | .bmcDecReset => Sys2Proof.Machine.execBmcDecReset s
  | .bmcDecProcess inp out => Sys2Proof.Machine.execBmcDecProcess inp out s
  | .frameEncReset fe => Sys2Proof.Machine.execFrameEncReset fe s
  | .frameEncProcess fe inp out => Sys2Proof.Machine.execFrameEncProcess fe inp out s
  | .frameEncConfig fe reg val => Sys2Proof.Machine.execFrameEncConfig fe reg val s
  | .frameDecReset fd => Sys2Proof.Machine.execFrameDecReset fd s
  | .frameDecProcess fd inp out => Sys2Proof.Machine.execFrameDecProcess fd inp out s
  | .x2dEncReset enc => Sys2Proof.Machine.execX2dEncReset enc s
  | .x2dEncProcess enc inp out flush => Sys2Proof.Machine.execX2dEncProcess enc inp out flush s
  | .x2dEncConfig enc reg val => Sys2Proof.Machine.execX2dEncConfig enc reg val s
  | .x2dDecReset dec => Sys2Proof.Machine.execX2dDecReset dec s
  | .x2dDecProcess dec inp out flush => Sys2Proof.Machine.execX2dDecProcess dec inp out flush s

end Sys2Proof.Machine
end

