-- ==== Sys2Proof/Machine/Step.lean ====
section
/-! DEFINITION. One step of the machine: the next thing the caller asks for. -/

namespace Sys2Proof.Machine

/-- One step: the caller's next call is taken off the list and carried out whole (00_scope.md R9, R10). With no call
waiting nothing happens: "Nothing happens in the block between transactions" (60_exceptions.md R247). A command that
names no operation is refused (30_encoding.md R92). -/
def step (s : State) : Host.Outcome State Fault Refusal :=
  match s.takeCall with
  | none => .next s
  | some (.make k, s') => .next (s'.create k)
  | some (.invoke c, s') =>
    match decode c with
    | .ok i => exec i s'
    | .error e => .refused (.undecodable e)

/-- The command whose bits are `w`, with every operand zero, as the caller's very next call. -/
def State.withFetchWord (s : State) (nbits w : Nat) : State :=
  { s with calls := .invoke (commandOfWord nbits w) :: s.calls }

end Sys2Proof.Machine
end

