-- ==== Sys2Proof/Safety.lean ====
section
/-! DEFINITION. The terms the claims are stated in: the invariant of the machine, a safe run, what an operation may
touch, and the reference functions on bit sequences that the spec gives in prose or tables. -/

namespace Sys2Proof

/-! ### Kinds of operations, and what each may touch -/

/-- The kinds of operation of 30_encoding.md R88. -/
inductive Kind where
  | buf
  | reset
  | config
  | stage
  | pipeline
  deriving DecidableEq, Repr

/-- The kind of each operation: a BUF primitive, a RESET, a CONFIG, a stand-alone unit's PROCESS, or a pipeline's. -/
def Instr.kind : Instr → Kind
  | .bufRead _ _ => .buf
  | .bufWrite _ _ _ => .buf
  | .bufHasAvail _ _ _ => .buf
  | .bufHasSpace _ _ _ => .buf
  | .bufConsume _ _ => .buf
  | .bufProduce _ _ => .buf
  | .xcReset _ => .reset
  | .xcProcess _ _ _ => .stage
  | .xcConfig _ _ _ => .config
  | .bmcEncReset _ => .reset
  | .bmcEncProcess _ _ _ => .stage
  | .bmcDecReset => .reset
  | .bmcDecProcess _ _ => .stage
  | .frameEncReset _ => .reset
  | .frameEncProcess _ _ _ => .stage
  | .frameEncConfig _ _ _ => .config
  | .frameDecReset _ => .reset
  | .frameDecProcess _ _ _ => .stage
  | .x2dEncReset _ => .reset
  | .x2dEncProcess _ _ _ _ => .pipeline
  | .x2dEncConfig _ _ _ => .config
  | .x2dDecReset _ => .reset
  | .x2dDecProcess _ _ _ _ => .pipeline

/-- What an operation may touch: at most one unit or session, and the buffers it names (10_state.md R35,
20_memory.md R50, 60_exceptions.md R248, R251). -/
structure Footprint where
  xc   : Option Nat := none
  be   : Option Nat := none
  fe   : Option Nat := none
  fd   : Option Nat := none
  enc  : Option Nat := none
  dec  : Option Nat := none
  bufs : List Nat := []
  deriving DecidableEq, Repr

/-- The footprint of each operation: the operands of its row in 30_encoding.md R88. The primitives that only read a
buffer change none. -/
def Instr.footprint : Instr → Footprint
  | .bufRead _ _ => {}
  | .bufWrite b _ _ => { bufs := [b] }
  | .bufHasAvail _ _ _ => {}
  | .bufHasSpace _ _ _ => {}
  | .bufConsume b _ => { bufs := [b] }
  | .bufProduce b _ => { bufs := [b] }
  | .xcReset x => { xc := some x }
  | .xcProcess x i o => { xc := some x, bufs := [i, o] }
  | .xcConfig x _ _ => { xc := some x }
  | .bmcEncReset x => { be := some x }
  | .bmcEncProcess x i o => { be := some x, bufs := [i, o] }
  | .bmcDecReset => {}
  | .bmcDecProcess i o => { bufs := [i, o] }
  | .frameEncReset x => { fe := some x }
  | .frameEncProcess x i o => { fe := some x, bufs := [i, o] }
  | .frameEncConfig x _ _ => { fe := some x }
  | .frameDecReset x => { fd := some x }
  | .frameDecProcess x i o => { fd := some x, bufs := [i, o] }
  | .x2dEncReset x => { enc := some x }
  | .x2dEncProcess x i o _ => { enc := some x, bufs := [i, o] }
  | .x2dEncConfig x _ _ => { enc := some x }
  | .x2dDecReset x => { dec := some x }
  | .x2dDecProcess x i o _ => { dec := some x, bufs := [i, o] }

end Sys2Proof

namespace Sys2Proof.Machine

/-! ### The invariant -/

/-- The bit order of a bit buffer. -/
def BitBuffer.order? (B : BitBuffer) : Option BitOrder :=
  match B.store with
  | .bits order _ => some order
  | .bytes _ => none
  | .reserved => none

/-- The units of a bit buffer (00_scope.md R14). -/
def BitBuffer.bits? (B : BitBuffer) : Option (List Bit) :=
  match B.store with
  | .bits _ q => some q.content
  | .bytes _ => none
  | .reserved => none

/-- The units of a byte buffer (00_scope.md R14). -/
def BitBuffer.bytes? (B : BitBuffer) : Option (List Byte) :=
  match B.store with
  | .bytes q => some q.content
  | .bits _ _ => none
  | .reserved => none

/-- An encode session is wired as 45_pipeline.md R221 says, and its buffers are in canonical form. -/
def EncSession.wf (e : EncSession) : Bool :=
  e.a.wf && e.b.wf && e.c.wf && e.a.order?.isSome && e.b.order? == some .lsb && e.c.order? == some .msb

/-- A decode session is wired as 45_pipeline.md R222 says, its buffers are in canonical form, the frame decoder does
not rest in EXTRA_ZERO (44_frame_decoder.md R194), and where it rests in LEAD_ONES what it has buffered is ones, at
least one (R193). -/
def DecSession.wf (d : DecSession) : Bool :=
  d.a.wf && d.b.wf && d.c.wf && d.a.order? == some .msb && d.b.order? == some .lsb && d.c.order?.isSome &&
    d.fd.st != .extraZero &&
    (d.fd.st != .leadOnes || ((d.b.bits?.getD []).all id && (d.b.bits?.getD []) != []))

/-- What holds of the machine between transactions. -/
def State.inv (s : State) : Bool :=
  Memory.wf s.bufs && s.encs.all EncSession.wf && s.decs.all DecSession.wf && s.fds.all fun fd => fd.st != .extraZero

/-- A safe run: no number of steps ends in a fault. -/
def State.SafeRun (s : State) : Prop := ∀ (k : Nat) (r : Fault), Sys2Proof.core.run k s ≠ .fault r

/-- Operations one after the other, ended by the first that does not answer OK: how a pipeline runs its stages
(45_pipeline.md R224, R225). -/
def runWhileOk : List Instr → State → Host.Outcome State Fault Refusal
  | [], s => .next s
  | i :: rest, s =>
    match exec i s with
    | .next t => if t.response = some (.code .ok) then runWhileOk rest t else .next t
    | .fault r => .fault r
    | .refused r => .refused r

/-! ### What stays, what moves -/

/-- Everything outside a footprint is as it was: the other units and sessions, the other buffers, the caller's waiting
calls; and no unit, session or buffer came or went. -/
def UnchangedOutside (fp : Footprint) (s t : State) : Prop :=
  (t.xcs.length = s.xcs.length ∧ ∀ k, fp.xc ≠ some k → t.xcs[k]? = s.xcs[k]?) ∧
  (t.bes.length = s.bes.length ∧ ∀ k, fp.be ≠ some k → t.bes[k]? = s.bes[k]?) ∧
  (t.fes.length = s.fes.length ∧ ∀ k, fp.fe ≠ some k → t.fes[k]? = s.fes[k]?) ∧
  (t.fds.length = s.fds.length ∧ ∀ k, fp.fd ≠ some k → t.fds[k]? = s.fds[k]?) ∧
  (t.encs.length = s.encs.length ∧ ∀ k, fp.enc ≠ some k → t.encs[k]? = s.encs[k]?) ∧
  (t.decs.length = s.decs.length ∧ ∀ k, fp.dec ≠ some k → t.decs[k]? = s.decs[k]?) ∧
  (t.bufs.length = s.bufs.length ∧ ∀ k, k ∉ fp.bufs → t.bufs[k]? = s.bufs[k]?) ∧
  t.calls = s.calls

/-- Two states that hold the same in a footprint: the unit or session, and the buffers. -/
def AgreeOn (fp : Footprint) (s t : State) : Prop :=
  (∀ k, fp.xc = some k → s.xcs[k]? = t.xcs[k]?) ∧
  (∀ k, fp.be = some k → s.bes[k]? = t.bes[k]?) ∧
  (∀ k, fp.fe = some k → s.fes[k]? = t.fes[k]?) ∧
  (∀ k, fp.fd = some k → s.fds[k]? = t.fds[k]?) ∧
  (∀ k, fp.enc = some k → s.encs[k]? = t.encs[k]?) ∧
  (∀ k, fp.dec = some k → s.decs[k]? = t.decs[k]?) ∧
  (∀ k, k ∈ fp.bufs → s.bufs[k]? = t.bufs[k]?)

/-- Two buffers with the same mode and size, the second's content being the first's less a prefix (40_bitbuffer_ops.md
R114). -/
def BitBuffer.ConsumedTo (B B' : BitBuffer) : Prop :=
  B'.nbytes = B.nbytes ∧
  match B.store, B'.store with
  | .bytes q, .bytes q' => ∃ k, q'.content = q.content.drop k
  | .bits order q, .bits order' q' => order' = order ∧ ∃ k, q'.content = q.content.drop k
  | .reserved, .reserved => True
  | _, _ => False

/-- Two buffers with the same mode and size, the second's content being the first's with units appended
(40_bitbuffer_ops.md R115). -/
def BitBuffer.ProducedTo (B B' : BitBuffer) : Prop :=
  B'.nbytes = B.nbytes ∧
  match B.store, B'.store with
  | .bytes q, .bytes q' => ∃ us, q'.content = q.content ++ us
  | .bits order q, .bits order' q' => order' = order ∧ ∃ us, q'.content = q.content ++ us
  | .reserved, .reserved => True
  | _, _ => False

/-- Two buffers with the same mode and size. -/
def BitBuffer.SameShape (B B' : BitBuffer) : Prop := B'.nbytes = B.nbytes ∧ B'.mode = B.mode

end Sys2Proof.Machine

namespace Sys2Proof

/-- The rows of 60_exceptions.md R241: which kind of operation may return which code. -/
def Kind.mayReturn (k : Kind) (rc : Machine.ResultCode) : Bool :=
  match k with
  | .buf => false
  | .reset => rc == .reset
  | .config => rc == .ok
  | .stage => rc != .reset
  | .pipeline => rc != .reset

end Sys2Proof

namespace Sys2Proof.Spec

/-- The line bits of a data bit sequence, `p` being the line bit emitted just before (30_encoding.md R82): the cell of
`b` is `h0 = 1 - p`, `h1 = h0 ^ b`. -/
def lineBits (p : Bit) : List Bit → List Bit
  | [] => []
  | b :: bs => (!p) :: xor (!p) b :: lineBits (xor (!p) b) bs

/-- The last line bit of `lineBits p bs`, `p` itself where there is none. -/
def linePhase (p : Bit) : List Bit → Bit
  | [] => p
  | b :: bs => linePhase (xor (!p) b) bs

/-- The data bits of a line: `b = h0 ^ h1` of each pair; a last odd bit is left (30_encoding.md R82). -/
def dataBits : List Bit → List Bit
  | h0 :: h1 :: hs => xor h0 h1 :: dataBits hs
  | [_] => []
  | [] => []

/-- The bits of a sequence of bytes, each in the bit order given (30_encoding.md R83). -/
def bitsOfBytes (order : BitOrder) (vs : List Byte) : List Bit :=
  vs.flatMap (Sys2Proof.Machine.unpackByte order)

/-- The first `k` bytes of a bit sequence, eight bits each, the last group padded with zeros if it is short
(30_encoding.md R83, 41_bitwidth_converter.md R133). -/
def bytesOfBits (order : BitOrder) (k : Nat) (bs : List Bit) : List Byte :=
  (List.range k).map fun m => Sys2Proof.Machine.packByte order ((bs.drop (8 * m)).take 8)

/-- How many bytes the transcoder makes of `n` bits where room for bytes is no limit (41_bitwidth_converter.md R133). -/
def packedBytes (flush : Bool) (n : Nat) : Nat := if flush then (n + 7) / 8 else n / 8

/-- The bits that FRAME_DEC takes before a body, from each of its states (44_frame_decoder.md R192, R193, R194, R195,
R197): the preamble, what is left of it, nothing, or the seven bits of a separator. -/
def Lead (st : Sys2Proof.Machine.FdState) (lead : List Bit) : Prop :=
  match st with
  | .init => ∃ z n, 7 ≤ z ∧ 6 ≤ n ∧ lead = List.replicate z false ++ List.replicate n true ++ [false]
  | .leadOnes => ∃ n, 6 ≤ n ∧ lead = List.replicate n true ++ [false]
  | .extraZero => lead.length = 1
  | .data => lead = []
  | .trailing => lead.length = 7

end Sys2Proof.Spec
end

