-- ==== Sys2Proof/Certificates/Slice0/Obligations.lean ====
section
/-! DEFINITION. The statements. `s.bufs[k]? = some ⟨nb, .bits order q⟩` reads: reference `k` names a bit buffer of `nb`
bytes, in that bit order, with content `q.content` and staged units `q.staged`. A state written out with `with` says at
once what an operation leaves unchanged. -/

open Sys2Proof Sys2Proof.Machine

/-! ### Decoding and the step -/

/-- 30_encoding.md R88: the command byte of every row, written out from the table, names the row's operation. -/
def Obligations.TableWordsDecode : Prop :=
  decode { cmd := 0x00#8, args := { ref := 2, off := 5 } } = .ok (.bufRead 2 5) ∧
  decode { cmd := 0x01#8, args := { ref := 2, off := 5, v := 1 } } = .ok (.bufWrite 2 5 1) ∧
  decode { cmd := 0x02#8, args := { ref := 2, off := 5, n := 3 } } = .ok (.bufHasAvail 2 5 3) ∧
  decode { cmd := 0x03#8, args := { ref := 2, off := 5, n := 3 } } = .ok (.bufHasSpace 2 5 3) ∧
  decode { cmd := 0x04#8, args := { ref := 2, n := 3 } } = .ok (.bufConsume 2 3) ∧
  decode { cmd := 0x05#8, args := { ref := 2, n := 3 } } = .ok (.bufProduce 2 3) ∧
  decode { cmd := 0x10#8, args := { ref := 4 } } = .ok (.xcReset 4) ∧
  decode { cmd := 0x11#8, args := { ref := 4, inp := 1, out := 2 } } = .ok (.xcProcess 4 1 2) ∧
  decode { cmd := 0x12#8, args := { ref := 4, reg := 0, val := 1 } } = .ok (.xcConfig 4 .flush 1) ∧
  decode { cmd := 0x20#8, args := { ref := 4 } } = .ok (.bmcEncReset 4) ∧
  decode { cmd := 0x21#8, args := { ref := 4, inp := 1, out := 2 } } = .ok (.bmcEncProcess 4 1 2) ∧
  decode { cmd := 0x30#8 } = .ok .bmcDecReset ∧
  decode { cmd := 0x31#8, args := { inp := 1, out := 2 } } = .ok (.bmcDecProcess 1 2) ∧
  decode { cmd := 0x40#8, args := { ref := 4 } } = .ok (.frameEncReset 4) ∧
  decode { cmd := 0x41#8, args := { ref := 4, inp := 1, out := 2 } } = .ok (.frameEncProcess 4 1 2) ∧
  decode { cmd := 0x42#8, args := { ref := 4, reg := 3, val := 12 } } = .ok (.frameEncConfig 4 .z 12) ∧
  decode { cmd := 0x50#8, args := { ref := 4 } } = .ok (.frameDecReset 4) ∧
  decode { cmd := 0x51#8, args := { ref := 4, inp := 1, out := 2 } } = .ok (.frameDecProcess 4 1 2) ∧
  decode { cmd := 0x60#8, args := { ref := 4 } } = .ok (.x2dEncReset 4) ∧
  decode { cmd := 0x61#8, args := { ref := 4, inp := 1, out := 2, flush := true } } = .ok (.x2dEncProcess 4 1 2 true) ∧
  decode { cmd := 0x62#8, args := { ref := 4, reg := 4, val := 8 } } = .ok (.x2dEncConfig 4 .o 8) ∧
  decode { cmd := 0x70#8, args := { ref := 4 } } = .ok (.x2dDecReset 4) ∧
  decode { cmd := 0x71#8, args := { ref := 4, inp := 1, out := 2, flush := true } } = .ok (.x2dDecProcess 4 1 2 true)

/-- Decoding inverts encoding on every well-formed operation, with every operand at every value; and a command that
decodes has the command byte of the operation it decodes to, with the operands that operation reads. -/
def Obligations.DecodeEncodeAgree : Prop :=
  (∀ i : Instr, i.WellFormed = true → decode (encode i) = .ok i) ∧
  (∀ (c : Command) (i : Instr), decode c = .ok i → (encode i).cmd = c.cmd ∧ decode (encode i) = .ok i)

/-- 30_encoding.md R92: a command byte outside the table of R88 is refused by the decoder, and so is, there or by the
meaning, a CONFIG whose `reg` is not a register the unit owns, whatever number it is. Which of the two refuses a CONFIG
(log entry 10), and that commands wait in `calls` (log entry 1), is the model's choice. -/
def Obligations.ReservedCommandsRefused : Prop :=
  ∀ (s : State) (c : Command) (rest : List Call), s.calls = .invoke c :: rest →
    (c.cmd ∉ [0x00#8, 0x01#8, 0x02#8, 0x03#8, 0x04#8, 0x05#8, 0x10#8, 0x11#8, 0x12#8, 0x20#8, 0x21#8, 0x30#8, 0x31#8,
        0x40#8, 0x41#8, 0x42#8, 0x50#8, 0x51#8, 0x60#8, 0x61#8, 0x62#8, 0x70#8, 0x71#8] →
      step s = .refused (.undecodable (.reservedCommand c.cmd))) ∧
    (c.cmd = 0x12#8 → c.args.reg ≠ 0 → ∃ r, step s = .refused r) ∧
    (c.cmd = 0x42#8 → c.args.reg ≠ 3 → c.args.reg ≠ 4 → ∃ r, step s = .refused r) ∧
    (c.cmd = 0x62#8 → c.args.reg ≠ 3 → c.args.reg ≠ 4 → ∃ r, step s = .refused r)

/-- A step takes the caller's next call off the list and runs the operation it decodes to, whole; with no call waiting
nothing happens (60_exceptions.md R247). That calls wait in a list is the model's choice (log entry 1). -/
def Obligations.StepRunsDecodedOperation : Prop :=
  (∀ (s : State) (c : Command) (rest : List Call) (i : Instr), s.calls = .invoke c :: rest → decode c = .ok i →
    step s = exec i { s with calls := rest }) ∧
  (∀ s : State, s.calls = [] → step s = .next s)

/-- 10_state.md R37, 45_pipeline.md R221 and R222: what a step makes of a caller's request for a session: a session at
its power-on values, its three buffers empty and wired as the tables say. That a caller makes sessions by an entry of
`calls` is the model's choice (log entry 14). -/
def Obligations.MadeSessionsAreAtPowerOn : Prop :=
  ∀ (s : State) (p : Config.Params) (rest : List Call),
    (s.calls = .make (.encSession p) :: rest →
      ∃ e : EncSession, step s = .next { s with calls := rest, encs := s.encs ++ [e] } ∧
        e.xc1.flush = false ∧ e.xc2.flush = false ∧ e.be.phase = true ∧ e.fe.preambleEmitted = false ∧
        e.fe.z.toNat = 9 ∧ e.fe.o.toNat = 6 ∧
        e.a.order? = some p.payloadOrder ∧ e.b.order? = some .lsb ∧ e.c.order? = some .msb ∧
        (∀ B ∈ [e.a, e.b, e.c], B.nbytes = p.capBytes ∧ B.capacity = 8 * p.capBytes ∧ B.filled = 0)) ∧
    (s.calls = .make (.decSession p) :: rest →
      ∃ d : DecSession, step s = .next { s with calls := rest, decs := s.decs ++ [d] } ∧
        d.xc1.flush = false ∧ d.xc2.flush = false ∧ d.fd.st = .init ∧
        d.a.order? = some .msb ∧ d.b.order? = some .lsb ∧ d.c.order? = some p.payloadOrder ∧
        (∀ B ∈ [d.a, d.b, d.c], B.nbytes = p.capBytes ∧ B.capacity = 8 * p.capBytes ∧ B.filled = 0))

/-! ### Power-on -/

/-- 10_state.md R36, R37: the register values at power-on, read under the numbers of R32, of the stand-alone units and of
the sessions' stages. That power-on has these values is the spec's decision D2 (log entry 11); which units exist at reset
is the model's choice (log entry 3). -/
def Obligations.PowerOnRegisters : Prop :=
  (∀ x ∈ State.reset.xcs, x.register .flush = some 0) ∧
  (∀ x ∈ State.reset.bes, x.register .phase = some 1) ∧
  (∀ x ∈ State.reset.fes, x.register .preambleEmitted = some 0 ∧ x.register .z = some 9 ∧ x.register .o = some 6) ∧
  (∀ x ∈ State.reset.fds, x.register .st = some 0) ∧
  (∀ e ∈ State.reset.encs,
    e.xc1.register .flush = some 0 ∧ e.xc2.register .flush = some 0 ∧ e.be.register .phase = some 1 ∧
    e.fe.register .preambleEmitted = some 0 ∧ e.fe.register .z = some 9 ∧ e.fe.register .o = some 6 ∧
    e.a.filled = 0 ∧ e.b.filled = 0 ∧ e.c.filled = 0) ∧
  (∀ d ∈ State.reset.decs,
    d.xc1.register .flush = some 0 ∧ d.xc2.register .flush = some 0 ∧ d.fd.register .st = some 0 ∧
    d.a.filled = 0 ∧ d.b.filled = 0 ∧ d.c.filled = 0)

/-- 10_state.md R37: power-on leaves every unit as its RESET leaves it, so a RESET at power-on changes nothing but the
output. Which units exist at reset is the model's choice (log entry 3). -/
def Obligations.PowerOnIsAsReset : Prop :=
  ∀ i ∈ [Instr.xcReset 0, .bmcEncReset 0, .bmcDecReset, .frameEncReset 0, .frameDecReset 0, .x2dEncReset 0, .x2dDecReset 0],
    exec i State.reset = .next { State.reset with response := some (.code .reset) }

/-- The invariant holds at power-on, with the units, sessions and buffers of log entry 3. -/
def Obligations.PowerOnInvariant : Prop := State.reset.inv = true

/-! ### The buffer primitives -/

/-- 40_bitbuffer_ops.md R110: BUF.READ of a unit of the content answers it and changes nothing else; the unit is the
bit at `loc(B, off)` of the physical storage; at or past `filled` it is a fault. -/
def Obligations.BufReadAnswersTheUnit : Prop :=
  ∀ (s : State) (buf off nb : Nat),
    (∀ (order : BitOrder) (q : Fifo Bit) (b : Bit), s.bufs[buf]? = some ⟨nb, .bits order q⟩ → q.content[off]? = some b →
      exec (.bufRead buf off) s = .next { s with response := some (.value b.toNat) } ∧
      (BitBuffer.mk nb (.bits order q)).dataBit (off / 8) (shift order off) = some b) ∧
    (∀ (q : Fifo Byte) (v : Byte), s.bufs[buf]? = some ⟨nb, .bytes q⟩ → q.content[off]? = some v →
      exec (.bufRead buf off) s = .next { s with response := some (.value v.toNat) } ∧
      (BitBuffer.mk nb (.bytes q)).dataByte off = some v) ∧
    (∀ B : BitBuffer, s.bufs[buf]? = some B → B.mode ≠ .reserved → B.filled ≤ off →
      exec (.bufRead buf off) s = .fault .readPastContent)

/-- 40_bitbuffer_ops.md R111: BUF.WRITE within its bounds sets the one storage unit at index `filled + off`, leaves
every other storage unit and the content as they were, and changes nothing else. -/
def Obligations.BufWriteSetsOneUnit : Prop :=
  ∀ (s : State) (buf off v nb : Nat),
    (∀ (order : BitOrder) (q : Fifo Bit), s.bufs[buf]? = some ⟨nb, .bits order q⟩ → q.filled + off < 8 * nb → v < 2 →
      ∃ q' : Fifo Bit, exec (.bufWrite buf off v) s =
          .next { s with bufs := s.bufs.set buf ⟨nb, .bits order q'⟩, response := some .nothing } ∧
        q'.content = q.content ∧ ∀ k, q'.cell k = if k = q.filled + off then some (decide (v = 1)) else q.cell k) ∧
    (∀ q : Fifo Byte, s.bufs[buf]? = some ⟨nb, .bytes q⟩ → q.filled + off < nb → v < 256 →
      ∃ q' : Fifo Byte, exec (.bufWrite buf off v) s =
          .next { s with bufs := s.bufs.set buf ⟨nb, .bytes q'⟩, response := some .nothing } ∧
        q'.content = q.content ∧ ∀ k, q'.cell k = if k = q.filled + off then some (BitVec.ofNat 8 v) else q.cell k)

/-- 40_bitbuffer_ops.md R112, R113: BUF.HASAVAIL answers whether `off + n ≤ filled`, BUF.HASSPACE whether
`filled + off + n ≤ capacity`; neither changes anything. -/
def Obligations.BufTestsAnswerTheBounds : Prop :=
  ∀ (s : State) (buf off n : Nat) (B : BitBuffer), s.bufs[buf]? = some B → B.mode ≠ .reserved →
    exec (.bufHasAvail buf off n) s = .next { s with response := some (.truth (decide (off + n ≤ B.filled))) } ∧
    exec (.bufHasSpace buf off n) s = .next { s with response := some (.truth (decide (B.filled + off + n ≤ B.capacity))) }

/-- 40_bitbuffer_ops.md R114: BUF.CONSUME removes the first `n` units; with `n = 0` it changes nothing. -/
def Obligations.BufConsumeRemovesFromTheHead : Prop :=
  ∀ (s : State) (buf n nb : Nat),
    (∀ (order : BitOrder) (q : Fifo Bit), s.bufs[buf]? = some ⟨nb, .bits order q⟩ → n ≤ q.filled →
      ∃ q' : Fifo Bit, exec (.bufConsume buf n) s =
          .next { s with bufs := s.bufs.set buf ⟨nb, .bits order q'⟩, response := some .nothing } ∧
        q'.content = q.content.drop n ∧ q'.filled = q.filled - n ∧ (n = 0 → q' = q)) ∧
    (∀ q : Fifo Byte, s.bufs[buf]? = some ⟨nb, .bytes q⟩ → n ≤ q.filled →
      ∃ q' : Fifo Byte, exec (.bufConsume buf n) s =
          .next { s with bufs := s.bufs.set buf ⟨nb, .bytes q'⟩, response := some .nothing } ∧
        q'.content = q.content.drop n ∧ q'.filled = q.filled - n ∧ (n = 0 → q' = q))

/-- 40_bitbuffer_ops.md R115: BUF.PRODUCE makes the `n` units at write offsets 0 .. n-1 the last `n` of the content. A
unit that was written keeps its value; nothing is said of one that was not (93_implementation_defined.md U2). -/
def Obligations.BufProduceAppendsWhatWasWritten : Prop :=
  ∀ (s : State) (buf n nb : Nat),
    (∀ (order : BitOrder) (q : Fifo Bit), s.bufs[buf]? = some ⟨nb, .bits order q⟩ → q.filled + n ≤ 8 * nb →
      ∃ us : List Bit, us.length = n ∧ (∀ j b, j < n → q.cell (q.filled + j) = some b → us[j]? = some b) ∧
        exec (.bufProduce buf n) s =
          .next { s with bufs := s.bufs.set buf ⟨nb, .bits order ⟨q.content ++ us, q.staged.drop n⟩⟩,
                         response := some .nothing, fresh := s.fresh + n }) ∧
    (∀ q : Fifo Byte, s.bufs[buf]? = some ⟨nb, .bytes q⟩ → q.filled + n ≤ nb →
      ∃ us : List Byte, us.length = n ∧ (∀ j v, j < n → q.cell (q.filled + j) = some v → us[j]? = some v) ∧
        exec (.bufProduce buf n) s =
          .next { s with bufs := s.bufs.set buf ⟨nb, .bytes ⟨q.content ++ us, q.staged.drop n⟩⟩,
                         response := some .nothing, fresh := s.fresh + n })

/-- 40_bitbuffer_ops.md R116 (92_eei_decisions.md D21; 93_implementation_defined.md U1, U3, U5): a primitive with a
false precondition is a fault. -/
def Obligations.BufPreconditionsFault : Prop :=
  ∀ (s : State) (buf off n v : Nat) (B : BitBuffer), s.bufs[buf]? = some B →
    (B.mode ≠ .reserved → B.filled ≤ off → exec (.bufRead buf off) s = .fault .readPastContent) ∧
    (B.mode ≠ .reserved → B.capacity ≤ B.filled + off → exec (.bufWrite buf off v) s = .fault .writePastCapacity) ∧
    (B.mode ≠ .reserved → B.filled + off < B.capacity → (if B.mode = .byte then 256 else 2) ≤ v →
      exec (.bufWrite buf off v) s = .fault .valueNotAUnit) ∧
    (B.mode ≠ .reserved → B.filled < n → exec (.bufConsume buf n) s = .fault .consumePastContent) ∧
    (B.mode ≠ .reserved → B.capacity < B.filled + n → exec (.bufProduce buf n) s = .fault .producePastCapacity) ∧
    (B.mode = .reserved → ∀ i ∈ [Instr.bufRead buf off, .bufWrite buf off v, .bufHasAvail buf off n,
      .bufHasSpace buf off n, .bufConsume buf n, .bufProduce buf n], exec i s = .fault .reservedMode)

/-- 40_bitbuffer_ops.md R115, last sentence: what every stage does to put units out, `emit`, is a `writeUnit` at each
offset in turn and one `produce` of them all, in a buffer of units of any type. -/
def Obligations.EmitIsWritesThenProduce : Prop :=
  ∀ (α : Type) (q : Fifo α) (us : List α) (free : Nat → α),
    ((us.zipIdx.foldl (fun p u => Fifo.writeUnit p u.2 u.1) q).produce free us.length).content = (q.emit us).content ∧
    ((us.zipIdx.foldl (fun p u => Fifo.writeUnit p u.2 u.1) q).produce free us.length).staged = (q.emit us).staged

/-! ### RESET and CONFIG -/

/-- 41_bitwidth_converter.md R130, 42_biphase_mark.md R150 and R154, 43_frame_encoder.md R170, 44_frame_decoder.md
R190: a stand-alone unit's RESET sets that unit's state, answers RESET, and changes nothing else: no buffer, and not Z
or O. -/
def Obligations.UnitResets : Prop :=
  ∀ (s : State) (k : Nat),
    (∀ x : Xc, s.xcs[k]? = some x →
      exec (.xcReset k) s = .next { s with xcs := s.xcs.set k ⟨false⟩, response := some (.code .reset) }) ∧
    (∀ x : BiphaseEnc, s.bes[k]? = some x →
      exec (.bmcEncReset k) s = .next { s with bes := s.bes.set k ⟨true⟩, response := some (.code .reset) }) ∧
    exec .bmcDecReset s = .next { s with response := some (.code .reset) } ∧
    (∀ (pre : Bool) (z o : Byte), s.fes[k]? = some ⟨pre, z, o⟩ →
      exec (.frameEncReset k) s = .next { s with fes := s.fes.set k ⟨false, z, o⟩, response := some (.code .reset) }) ∧
    (∀ x : FrameDec, s.fds[k]? = some x →
      exec (.frameDecReset k) s = .next { s with fds := s.fds.set k ⟨.init⟩, response := some (.code .reset) })

/-- 45_pipeline.md R226, R227: a pipeline RESET resets the stage states, keeps Z and O, empties the three buffers
without changing their mode or size, answers RESET, and changes nothing else. -/
def Obligations.PipelineResets : Prop :=
  ∀ (s : State) (k : Nat),
    (∀ (e : EncSession), s.encs[k]? = some e →
      ∃ e' : EncSession,
        exec (.x2dEncReset k) s = .next { s with encs := s.encs.set k e', response := some (.code .reset) } ∧
        e'.xc1 = ⟨false⟩ ∧ e'.fe = { e.fe with preambleEmitted := false } ∧ e'.be = ⟨true⟩ ∧ e'.xc2 = ⟨false⟩ ∧
        e'.a.filled = 0 ∧ e'.b.filled = 0 ∧ e'.c.filled = 0 ∧
        e.a.SameShape e'.a ∧ e.b.SameShape e'.b ∧ e.c.SameShape e'.c) ∧
    (∀ (d : DecSession), s.decs[k]? = some d →
      ∃ d' : DecSession,
        exec (.x2dDecReset k) s = .next { s with decs := s.decs.set k d', response := some (.code .reset) } ∧
        d'.xc1 = ⟨false⟩ ∧ d'.fd = ⟨.init⟩ ∧ d'.xc2 = ⟨false⟩ ∧
        d'.a.filled = 0 ∧ d'.b.filled = 0 ∧ d'.c.filled = 0 ∧
        d.a.SameShape d'.a ∧ d.b.SameShape d'.b ∧ d.c.SameShape d'.c)

/-- 41_bitwidth_converter.md R131, 43_frame_encoder.md R171, 45_pipeline.md R228: a CONFIG of a register the unit owns
writes that register alone and answers OK. -/
def Obligations.ConfigsWriteOneRegister : Prop :=
  ∀ (s : State) (k : Nat) (val : Byte),
    (∀ x : Xc, s.xcs[k]? = some x → val.toNat ≤ 1 →
      exec (.xcConfig k .flush val) s =
        .next { s with xcs := s.xcs.set k ⟨decide (val.toNat = 1)⟩, response := some (.code .ok) }) ∧
    (∀ (pre : Bool) (z o : Byte), s.fes[k]? = some ⟨pre, z, o⟩ →
      exec (.frameEncConfig k .z val) s =
        .next { s with fes := s.fes.set k ⟨pre, val, o⟩, response := some (.code .ok) } ∧
      exec (.frameEncConfig k .o val) s =
        .next { s with fes := s.fes.set k ⟨pre, z, val⟩, response := some (.code .ok) }) ∧
    (∀ e : EncSession, s.encs[k]? = some e →
      exec (.x2dEncConfig k .z val) s =
        .next { s with encs := s.encs.set k { e with fe := ⟨e.fe.preambleEmitted, val, e.fe.o⟩ },
                       response := some (.code .ok) } ∧
      exec (.x2dEncConfig k .o val) s =
        .next { s with encs := s.encs.set k { e with fe := ⟨e.fe.preambleEmitted, e.fe.z, val⟩ },
                       response := some (.code .ok) })

/-- 30_encoding.md R89 and 93_implementation_defined.md U10, U11: a CONFIG that is not well-formed is refused: a
register the unit does not own, one that is read-only to the caller, a flush value other than 0 or 1. -/
def Obligations.IllFormedConfigsRefused : Prop :=
  ∀ (i : Instr) (s : State), i.WellFormed = false → ∃ r, exec i s = .refused r

/-! ### The transcoder -/

/-- 41_bitwidth_converter.md R132, R135: between two like buffers XC.PROCESS copies as many units as there are and as
fit, whatever the bit orders, answers OK if that is at least one, and changes nothing else. From a buffer to itself,
neither empty nor full, its loop never ends, which is a stop (log entry 8). -/
def Obligations.XcCopiesLikeToLike : Prop :=
  ∀ (s : State) (x inp out ni no k : Nat) (u : Xc) (oi oo : BitOrder) (qb pb : Fifo Bit) (qy py : Fifo Byte),
    s.xcs[x]? = some u →
    (inp ≠ out → 0 < k → s.bufs[inp]? = some ⟨ni, .bits oi qb⟩ → s.bufs[out]? = some ⟨no, .bits oo pb⟩ →
      k = min qb.filled (8 * no - pb.filled) →
      exec (.xcProcess x inp out) s =
        .next { s with bufs := (s.bufs.set inp ⟨ni, .bits oi ⟨qb.content.drop k, []⟩⟩).set out
                                 ⟨no, .bits oo ⟨pb.content ++ qb.content.take k, pb.staged.drop k⟩⟩,
                       response := some (.code .ok) }) ∧
    (inp ≠ out → 0 < k → s.bufs[inp]? = some ⟨ni, .bytes qy⟩ → s.bufs[out]? = some ⟨no, .bytes py⟩ →
      k = min qy.filled (no - py.filled) →
      exec (.xcProcess x inp out) s =
        .next { s with bufs := (s.bufs.set inp ⟨ni, .bytes ⟨qy.content.drop k, []⟩⟩).set out
                                 ⟨no, .bytes ⟨py.content ++ qy.content.take k, py.staged.drop k⟩⟩,
                       response := some (.code .ok) }) ∧
    (s.bufs[inp]? = some ⟨ni, .bits oi qb⟩ → 0 < qb.filled → qb.filled < 8 * ni →
      exec (.xcProcess x inp inp) s = .fault .neverEnds) ∧
    (s.bufs[inp]? = some ⟨ni, .bytes qy⟩ → 0 < qy.filled → qy.filled < ni →
      exec (.xcProcess x inp inp) s = .fault .neverEnds)

/-- 41_bitwidth_converter.md R133, R135: bits to bytes. Each byte takes eight bits, the `j`-th of them at bit `j` of the
byte from a BIT_LSB buffer and at bit `7 - j` from a BIT_MSB buffer (30_encoding.md R83); with the flush flag a last group
of one to seven bits becomes a byte too, its other positions 0; without it that group stays. -/
def Obligations.XcPacksBitsIntoBytes : Prop :=
  ∀ (s : State) (x inp out ni no k : Nat) (flush : Bool) (order : BitOrder) (q : Fifo Bit) (p : Fifo Byte),
    s.xcs[x]? = some ⟨flush⟩ → s.bufs[inp]? = some ⟨ni, .bits order q⟩ → s.bufs[out]? = some ⟨no, .bytes p⟩ →
    k = min (if flush then (q.filled + 7) / 8 else q.filled / 8) (no - p.filled) → 0 < k →
    exec (.xcProcess x inp out) s =
      .next { s with bufs := (s.bufs.set inp ⟨ni, .bits order ⟨q.content.drop (8 * k), []⟩⟩).set out
                               ⟨no, .bytes ⟨p.content ++ Spec.bytesOfBits order k q.content, p.staged.drop k⟩⟩,
                     response := some (.code .ok) } ∧
    (Spec.bytesOfBits order k q.content).length = k ∧
    ∀ m < k, ∀ j < 8, ((Spec.bytesOfBits order k q.content)[m]?).map (fun v => v.getLsbD (if order = .lsb then j else 7 - j)) =
      some (if 8 * m + j < q.filled then q.content.getD (8 * m + j) false else false)

/-- 41_bitwidth_converter.md R134, R135: bytes to bits. Each byte becomes eight bits, the `j`-th being bit `j` of the byte
in a BIT_LSB buffer and bit `7 - j` in a BIT_MSB buffer (30_encoding.md R83); a byte for which fewer than eight units are
free stays. -/
def Obligations.XcUnpacksBytesIntoBits : Prop :=
  ∀ (s : State) (x inp out ni no k : Nat) (u : Xc) (order : BitOrder) (q : Fifo Byte) (p : Fifo Bit),
    s.xcs[x]? = some u → s.bufs[inp]? = some ⟨ni, .bytes q⟩ → s.bufs[out]? = some ⟨no, .bits order p⟩ →
    k = min q.filled ((8 * no - p.filled) / 8) → 0 < k →
    exec (.xcProcess x inp out) s =
      .next { s with bufs := (s.bufs.set inp ⟨ni, .bytes ⟨q.content.drop k, []⟩⟩).set out
                               ⟨no, .bits order ⟨p.content ++ Spec.bitsOfBytes order (q.content.take k),
                                                 p.staged.drop (8 * k)⟩⟩,
                     response := some (.code .ok) } ∧
    (Spec.bitsOfBytes order (q.content.take k)).length = 8 * k ∧
    ∀ m < k, ∀ j < 8, (Spec.bitsOfBytes order (q.content.take k))[8 * m + j]? =
      (q.content[m]?).map (fun v => v.getLsbD (if order = .lsb then j else 7 - j))

/-- 41_bitwidth_converter.md R134, last sentence of its pseudocode's reading: where `out.filled` is a multiple of 8, a
byte expanded into bits is stored unchanged as the physical byte `out.data[out.filled / 8]`, in either bit order. -/
def Obligations.UnpackedByteIsThePhysicalByte : Prop :=
  ∀ (nb m : Nat) (order : BitOrder) (p : Fifo Bit) (v : Byte), p.filled = 8 * m →
    (BitBuffer.mk nb (.bits order (p.emit (unpackByte order v)))).dataByte m = some v

/-- 41_bitwidth_converter.md R136: bytes expanded into an empty bit buffer of either order and packed again, with or
without the flush flag, are the original bytes. -/
def Obligations.TranscoderRoundTrip : Prop :=
  ∀ (s : State) (x a b c na nb nc : Nat) (u : Xc) (order : BitOrder) (vs : List Byte) (sa sc : List (Option Byte))
    (sb : List (Option Bit)),
    s.xcs[x]? = some u → a ≠ b → b ≠ c → a ≠ c → vs ≠ [] → vs.length ≤ nb → vs.length ≤ nc →
    s.bufs[a]? = some ⟨na, .bytes ⟨vs, sa⟩⟩ → s.bufs[b]? = some ⟨nb, .bits order ⟨[], sb⟩⟩ →
    s.bufs[c]? = some ⟨nc, .bytes ⟨[], sc⟩⟩ →
    ∃ t1 t2, exec (.xcProcess x a b) s = .next t1 ∧ t1.response = some (.code .ok) ∧
      exec (.xcProcess x b c) t1 = .next t2 ∧ t2.response = some (.code .ok) ∧
      t2.bufs[c]?.bind BitBuffer.bytes? = some vs

/-! ### The biphase-mark codec -/

/-- 42_biphase_mark.md R151: BMC_ENC.PROCESS turns as many data bits as there are, and as two line bits each fit, into
cells; the phase is then the last line bit; everything else stays. On one buffer as input and output (log entry 8), a step puts the two
line bits of the first bit at the end and takes that bit away, and the transaction goes on from there, its code being OK. -/
def Obligations.BmcEncodesDataBits : Prop :=
  ∀ (s : State) (be inp out ni no k : Nat) (p : Bit) (oi oo : BitOrder) (q r : Fifo Bit),
    s.bes[be]? = some ⟨p⟩ → s.bufs[inp]? = some ⟨ni, .bits oi q⟩ →
    (inp ≠ out → s.bufs[out]? = some ⟨no, .bits oo r⟩ → k = min q.filled ((8 * no - r.filled) / 2) → 0 < k →
      exec (.bmcEncProcess be inp out) s =
        .next { s with bes := s.bes.set be ⟨Spec.linePhase p (q.content.take k)⟩,
                       bufs := (s.bufs.set inp ⟨ni, .bits oi ⟨q.content.drop k, []⟩⟩).set out
                                 ⟨no, .bits oo ⟨r.content ++ Spec.lineBits p (q.content.take k), r.staged.drop (2 * k)⟩⟩,
                       response := some (.code .ok) }) ∧
    (∀ (b : Bit) (t : List Bit), q.content = b :: t → q.filled + 2 ≤ 8 * ni →
      ∃ u, exec (.bmcEncProcess be inp inp)
            { s with bes := s.bes.set be ⟨xor (!p) b⟩, bufs := s.bufs.set inp ⟨ni, .bits oi ⟨t ++ [!p, xor (!p) b], []⟩⟩ } =
          .next u ∧
        exec (.bmcEncProcess be inp inp) s = .next { u with response := some (.code .ok) })

/-- 42_biphase_mark.md R155: BMC_DEC.PROCESS turns as many pairs of line bits as there are, and as fit, into their
exclusive ors; an odd last bit stays; everything else stays. On one buffer as input and output (log entry 8), a step puts the exclusive
or of the first two bits at the end and takes the two away, and the transaction goes on from there, its code being OK. -/
def Obligations.BmcDecodesLineBits : Prop :=
  ∀ (s : State) (inp out ni no k : Nat) (oi oo : BitOrder) (q r : Fifo Bit), s.bufs[inp]? = some ⟨ni, .bits oi q⟩ →
    (inp ≠ out → s.bufs[out]? = some ⟨no, .bits oo r⟩ → k = min (q.filled / 2) (8 * no - r.filled) → 0 < k →
      exec (.bmcDecProcess inp out) s =
        .next { s with bufs := (s.bufs.set inp ⟨ni, .bits oi ⟨q.content.drop (2 * k), []⟩⟩).set out
                                 ⟨no, .bits oo ⟨r.content ++ Spec.dataBits (q.content.take (2 * k)), r.staged.drop k⟩⟩,
                       response := some (.code .ok) }) ∧
    (∀ (h0 h1 : Bit) (t : List Bit), q.content = h0 :: h1 :: t → q.filled + 1 ≤ 8 * ni →
      ∃ u, exec (.bmcDecProcess inp inp) { s with bufs := s.bufs.set inp ⟨ni, .bits oi ⟨t ++ [xor h0 h1], []⟩⟩ } =
          .next u ∧
        exec (.bmcDecProcess inp inp) s = .next { u with response := some (.code .ok) })

/-- 42_biphase_mark.md R152: after a BMC_ENC.PROCESS that encoded anything the phase equals the last line bit emitted. -/
def Obligations.PhaseIsLastLineBit : Prop :=
  ∀ (s t : State) (be inp out : Nat), exec (.bmcEncProcess be inp out) s = .next t → t.response = some (.code .ok) →
    ∃ p : Bit, t.bes[be]? = some ⟨p⟩ ∧ ((t.bufs[out]?.bind BitBuffer.bits?).getD []).getLast? = some p

/-- 42_biphase_mark.md R157: what BMC_ENC.PROCESS makes of any data bits, from either phase, BMC_DEC.PROCESS turns back
into them; and it does so of the inverted line too. -/
def Obligations.BiphaseRoundTrip : Prop :=
  ∀ (s : State) (be a b c na nb nc : Nat) (u : BiphaseEnc) (oa ob oc : BitOrder) (bs : List Bit)
    (sa sb sc : List (Option Bit)),
    s.bes[be]? = some u → a ≠ b → b ≠ c → a ≠ c → bs ≠ [] → 2 * bs.length ≤ 8 * nb → bs.length ≤ 8 * nc →
    s.bufs[a]? = some ⟨na, .bits oa ⟨bs, sa⟩⟩ → s.bufs[b]? = some ⟨nb, .bits ob ⟨[], sb⟩⟩ →
    s.bufs[c]? = some ⟨nc, .bits oc ⟨[], sc⟩⟩ →
    ∃ t1 t2 line,
      exec (.bmcEncProcess be a b) s = .next t1 ∧ t1.response = some (.code .ok) ∧
      t1.bufs[b]? = some ⟨nb, .bits ob line⟩ ∧ line.content.length = 2 * bs.length ∧
      exec (.bmcDecProcess b c) t1 = .next t2 ∧ t2.bufs[c]?.bind BitBuffer.bits? = some bs ∧
      ∃ t3, exec (.bmcDecProcess b c) (t1.putBuf b ⟨nb, .bits ob ⟨line.content.map not, []⟩⟩) = .next t3 ∧
        t3.bufs[c]?.bind BitBuffer.bits? = some bs

/-- 42_biphase_mark.md R156: BMC_DEC.PROCESS of an encoder-made line with one stray line bit in front decodes all ones
after its first pair, and leaves the line's last bit. -/
def Obligations.MisalignedLineDecodesToOnes : Prop :=
  ∀ (s : State) (inp out ni no : Nat) (oi oo : BitOrder) (p stray : Bit) (bs : List Bit) (g : List (Option Bit)) (r : Fifo Bit),
    inp ≠ out → bs ≠ [] → s.bufs[inp]? = some ⟨ni, .bits oi ⟨stray :: Spec.lineBits p bs, g⟩⟩ →
    s.bufs[out]? = some ⟨no, .bits oo r⟩ → r.filled + bs.length ≤ 8 * no →
    ∃ b0 : Bit, exec (.bmcDecProcess inp out) s =
      .next { s with bufs := (s.bufs.set inp ⟨ni, .bits oi ⟨[Spec.linePhase p bs], []⟩⟩).set out
                               ⟨no, .bits oo ⟨r.content ++ b0 :: List.replicate (bs.length - 1) true,
                                              r.staged.drop bs.length⟩⟩,
                     response := some (.code .ok) }

/-! ### The frame encoder -/

/-- 43_frame_encoder.md R172 (30_encoding.md R80, R81): FRAME_ENC.PROCESS with a frame that fits turns all the bits
present into one frame: the preamble if it is still owed, the stuffed bits, END-OF-FRAME, SEPARATOR. On one buffer as
input and output (log entry 8), the frame takes the place of the bits. -/
def Obligations.FrameEncoderEmitsOneFrame : Prop :=
  ∀ (s : State) (fe inp out ni no : Nat) (pre : Bool) (z o : Byte) (oi oo : BitOrder) (q p : Fifo Bit) (f : List Bit),
    s.fes[fe]? = some ⟨pre, z, o⟩ → s.bufs[inp]? = some ⟨ni, .bits oi q⟩ → q.content ≠ [] →
    f = (if pre then [] else List.replicate z.toNat false ++ List.replicate o.toNat true ++ [false]) ++ stuff q.content ++
      [true, true, true, true, true, true, true, true, false] ++ [true, true, true, true, true, true, false] →
    (inp ≠ out → s.bufs[out]? = some ⟨no, .bits oo p⟩ → p.filled + f.length ≤ 8 * no →
      exec (.frameEncProcess fe inp out) s =
        .next { s with fes := s.fes.set fe ⟨true, z, o⟩,
                       bufs := (s.bufs.set inp ⟨ni, .bits oi ⟨[], []⟩⟩).set out
                                 ⟨no, .bits oo ⟨p.content ++ f, p.staged.drop f.length⟩⟩,
                       response := some (.code .ok) }) ∧
    (q.filled + f.length ≤ 8 * ni →
      exec (.frameEncProcess fe inp inp) s =
        .next { s with fes := s.fes.set fe ⟨true, z, o⟩, bufs := s.bufs.set inp ⟨ni, .bits oi ⟨f, []⟩⟩,
                       response := some (.code .ok) })

/-- 43_frame_encoder.md R172: with no input bits the answer is NEED_INPUT_DATA, with a frame that does not fit
NEED_OUTPUT_SPACE, and then nothing is written, nothing consumed, and the preamble is still owed. -/
def Obligations.FrameEncoderIsAllOrNothing : Prop :=
  ∀ (s : State) (fe inp out ni no : Nat) (x : FrameEnc) (oi oo : BitOrder) (q p : Fifo Bit),
    s.fes[fe]? = some x → s.bufs[inp]? = some ⟨ni, .bits oi q⟩ → s.bufs[out]? = some ⟨no, .bits oo p⟩ →
    (q.content = [] → exec (.frameEncProcess fe inp out) s = .next { s with response := some (.code .needInputData) }) ∧
    (q.content ≠ [] →
      8 * no < p.filled + (if x.preambleEmitted then 0 else x.z.toNat + x.o.toNat + 1) + (stuff q.content).length + 16 →
      exec (.frameEncProcess fe inp out) s = .next { s with response := some (.code .needOutputSpace) })

/-- 43_frame_encoder.md R174 (90_conflicts.md C1): no stuffed body holds six consecutive 1-bits, and five are followed
by a 0. -/
def Obligations.StuffedBodyHasNoSixOnes : Prop :=
  ∀ xs : List Bit,
    ¬ [true, true, true, true, true, true] <:+: stuff xs ∧
    ∀ pre post, stuff xs = pre ++ [true, true, true, true, true] ++ post → ∃ post', post = false :: post'

/-- 43_frame_encoder.md R173: five ones in a row are followed by a stuffed 0 and the count starts anew, fewer are copied
with the 0 that ends them; the number of stuffed bits is at most a fifth of the bits, and just that for all ones. -/
def Obligations.StuffedLengthBounds : Prop :=
  (∀ t : List Bit, stuff ([true, true, true, true, true] ++ t) = [true, true, true, true, true, false] ++ stuff t) ∧
  (∀ (r : Nat) (t : List Bit), r < 5 → stuff (List.replicate r true ++ false :: t) = List.replicate r true ++ false :: stuff t) ∧
  (∀ r : Nat, r < 5 → stuff (List.replicate r true) = List.replicate r true) ∧
  (∀ xs : List Bit, xs.length ≤ (stuff xs).length ∧ (stuff xs).length ≤ xs.length + xs.length / 5) ∧
  (∀ n : Nat, (stuff (List.replicate n true)).length = n + n / 5)

/-- 44_frame_decoder.md R196: destuffing inverts stuffing; and on any bits, a 0 behind five or more ones is dropped, a 0
behind fewer is copied, and every 1 is copied. -/
def Obligations.DestuffInvertsStuff : Prop :=
  (∀ xs : List Bit, destuff (stuff xs) = xs) ∧
  (∀ (r : Nat) (t : List Bit), 5 ≤ r → destuff (List.replicate r true ++ false :: t) = List.replicate r true ++ destuff t) ∧
  (∀ (r : Nat) (t : List Bit), r < 5 →
    destuff (List.replicate r true ++ false :: t) = List.replicate r true ++ false :: destuff t) ∧
  (∀ r : Nat, destuff (List.replicate r true) = List.replicate r true)

/-! ### The frame decoder -/

/-- 44_frame_decoder.md R195: the first END-OF-FRAME in a stuffed body followed by the marker is that marker, whatever
follows, even where the body's last ones run on into it. -/
def Obligations.FirstMarkerEndsTheBody : Prop :=
  ∀ (xs rest : List Bit), findMarker (stuff xs ++ Config.eofMarker ++ rest) = some (stuff xs).length

/-- 44_frame_decoder.md R195: in DATA, with a first marker and room for the destuffed bits before it, FRAME_DEC.PROCESS
delivers them, consumes through the marker, goes to TRAILING and answers OK; everything else stays. On one buffer as input
and output (log entry 8), the destuffed bits stand behind what followed the marker. -/
def Obligations.DataDeliversTheFrame : Prop :=
  ∀ (s : State) (fd inp out ni no : Nat) (oi oo : BitOrder) (body rest : List Bit) (g : List (Option Bit)) (p : Fifo Bit),
    s.fds[fd]? = some ⟨.data⟩ →
    s.bufs[inp]? = some ⟨ni, .bits oi ⟨body ++ [true, true, true, true, true, true, true, true, false] ++ rest, g⟩⟩ →
    (∀ j < body.length, ¬ [true, true, true, true, true, true, true, true, false] <+:
      (body ++ [true, true, true, true, true, true, true, true, false] ++ rest).drop j) →
    (inp ≠ out → s.bufs[out]? = some ⟨no, .bits oo p⟩ → p.filled + (destuff body).length ≤ 8 * no →
      exec (.frameDecProcess fd inp out) s =
        .next { s with fds := s.fds.set fd ⟨.trailing⟩,
                       bufs := (s.bufs.set inp ⟨ni, .bits oi ⟨rest, []⟩⟩).set out
                                 ⟨no, .bits oo ⟨p.content ++ destuff body, p.staged.drop (destuff body).length⟩⟩,
                       response := some (.code .ok) }) ∧
    (body.length + 9 + rest.length + (destuff body).length ≤ 8 * ni →
      exec (.frameDecProcess fd inp inp) s =
        .next { s with fds := s.fds.set fd ⟨.trailing⟩, bufs := s.bufs.set inp ⟨ni, .bits oi ⟨rest ++ destuff body, []⟩⟩,
                       response := some (.code .ok) })

/-- 44_frame_decoder.md R195: in DATA, with a first marker and no room for the destuffed bits before it, nothing is
consumed or produced and the answer is NEED_OUTPUT_SPACE. -/
def Obligations.DataWithholdsTheFrame : Prop :=
  ∀ (s : State) (fd inp out ni no p : Nat) (oi oo : BitOrder) (q r : Fifo Bit),
    s.fds[fd]? = some ⟨.data⟩ → s.bufs[inp]? = some ⟨ni, .bits oi q⟩ → s.bufs[out]? = some ⟨no, .bits oo r⟩ →
    [true, true, true, true, true, true, true, true, false] <+: q.content.drop p →
    (∀ j < p, ¬ [true, true, true, true, true, true, true, true, false] <+: q.content.drop j) →
    8 * no < r.filled + (destuff (q.content.take p)).length →
    exec (.frameDecProcess fd inp out) s = .next { s with response := some (.code .needOutputSpace) }

/-- 44_frame_decoder.md R195: in DATA without a marker the answer is NEED_INPUT_DATA; with fewer than 128 bits buffered
nothing changes, with 128 or more everything buffered is discarded and the state is INIT. Input and output may be one
buffer (log entry 8). -/
def Obligations.DataWaitsUntilTheWatchdog : Prop :=
  ∀ (s : State) (fd inp out ni no : Nat) (oi oo : BitOrder) (q r : Fifo Bit),
    s.fds[fd]? = some ⟨.data⟩ →
    s.bufs[inp]? = some ⟨ni, .bits oi q⟩ → s.bufs[out]? = some ⟨no, .bits oo r⟩ →
    ¬ [true, true, true, true, true, true, true, true, false] <:+: q.content →
    (q.filled < 128 →
      exec (.frameDecProcess fd inp out) s = .next { s with response := some (.code .needInputData) }) ∧
    (128 ≤ q.filled →
      exec (.frameDecProcess fd inp out) s =
        .next { s with fds := s.fds.set fd ⟨.init⟩, bufs := s.bufs.set inp ⟨ni, .bits oi ⟨[], []⟩⟩,
                       response := some (.code .needInputData) })

/-- 44_frame_decoder.md R192, R193: in INIT and LEAD_ONES a run that no bit of the other value follows is not confirmed:
the answer is NEED_INPUT_DATA and nothing changes, however full the buffer is (70_reset_and_hazards.md R281). -/
def Obligations.UnconfirmedRunWaits : Prop :=
  ∀ (s : State) (fd inp out ni no n : Nat) (v : Bit) (st : FdState) (oi oo : BitOrder) (g : List (Option Bit)) (r : Fifo Bit),
    s.fds[fd]? = some ⟨st⟩ → st = .init ∨ st = .leadOnes →
    s.bufs[inp]? = some ⟨ni, .bits oi ⟨List.replicate n v, g⟩⟩ → s.bufs[out]? = some ⟨no, .bits oo r⟩ →
    exec (.frameDecProcess fd inp out) s = .next { s with response := some (.code .needInputData) }

/-- 44_frame_decoder.md R192, R193, R194, R197: the steps that go on within a transaction. Each is stated as: the
transaction is the one that starts from the next state on what is left. In order: INIT drops a confirmed run that is no
run of seven or more zeros, and takes one that is; LEAD_ONES takes a confirmed run of six or more ones, and drops any
other back to INIT; EXTRA_ZERO takes one bit, unexamined; TRAILING takes seven bits, unexamined.
Input and output may be one buffer (log entry 8). -/
def Obligations.SynchroniserSteps : Prop :=
  ∀ (s : State) (fd inp out ni no n : Nat) (v : Bit) (st : FdState) (oi oo : BitOrder) (bs sep t : List Bit)
    (g : List (Option Bit)) (r : Fifo Bit),
    s.fds[fd]? = some ⟨st⟩ →
    s.bufs[inp]? = some ⟨ni, .bits oi ⟨bs, g⟩⟩ → s.bufs[out]? = some ⟨no, .bits oo r⟩ →
    let goesOn := fun (st' : FdState) (rest : List Bit) =>
      exec (.frameDecProcess fd inp out) s =
        exec (.frameDecProcess fd inp out)
          { s with fds := s.fds.set fd ⟨st'⟩, bufs := s.bufs.set inp ⟨ni, .bits oi ⟨rest, []⟩⟩ }
    (bs = List.replicate n v ++ (!v) :: t → 0 < n → st = .init →
      goesOn (if v = false ∧ 7 ≤ n then .leadOnes else .init) ((!v) :: t)) ∧
    (bs = List.replicate n v ++ (!v) :: t → 0 < n → st = .leadOnes →
      goesOn (if v = true ∧ 6 ≤ n then .extraZero else .init) ((!v) :: t)) ∧
    (bs = v :: t → st = .extraZero → goesOn .data t) ∧
    (bs = sep ++ t → sep.length = 7 → st = .trailing → goesOn .data t)

/-- 44_frame_decoder.md R194, R197: EXTRA_ZERO with no bit, and TRAILING with fewer than seven, answer NEED_INPUT_DATA
and consume nothing. -/
def Obligations.SpacerAndSeparatorWait : Prop :=
  ∀ (s : State) (fd inp out ni no : Nat) (oi oo : BitOrder) (q r : Fifo Bit),
    s.bufs[inp]? = some ⟨ni, .bits oi q⟩ → s.bufs[out]? = some ⟨no, .bits oo r⟩ →
    (s.fds[fd]? = some ⟨.extraZero⟩ → q.filled = 0 →
      exec (.frameDecProcess fd inp out) s = .next { s with response := some (.code .needInputData) }) ∧
    (s.fds[fd]? = some ⟨.trailing⟩ → q.filled < 7 →
      exec (.frameDecProcess fd inp out) s = .next { s with response := some (.code .needInputData) })

/-- 44_frame_decoder.md R191: a FRAME_DEC.PROCESS that answers OK is in TRAILING, one that answers NEED_OUTPUT_SPACE is
in DATA, and none ever rests in EXTRA_ZERO unless it started there. -/
def Obligations.FrameDecoderCodesAndStates : Prop :=
  ∀ (s t : State) (fd inp out : Nat), exec (.frameDecProcess fd inp out) s = .next t →
    (t.response = some (.code .ok) → t.fds[fd]? = some ⟨.trailing⟩) ∧
    (t.response = some (.code .needOutputSpace) → t.fds[fd]? = some ⟨.data⟩) ∧
    (t.fds[fd]? = some ⟨.extraZero⟩ → s.fds[fd]? = some ⟨.extraZero⟩)

/-! ### The pipelines -/

/-- 45_pipeline.md R223, R224 (R229 (b), R230, R231): X2D_ENC.PROCESS that gets through all four stages, with either value
of the flush operand, whatever waits in the session's buffers. `j` payload bytes join what waits in `ENC.A`, which becomes
one frame `f`; the frame joins what waits in `ENC.B`, of which `r` bits become cells; the cells join what waits in `ENC.C`,
of which `m` bytes go out. What is not taken waits where it is: with flush 0 the line bits beyond the last whole byte wait
in `ENC.C`. Both flags read the operand. On one buffer as input and output (log entry 8) the line bytes stand behind what
stage 1 has left. -/
def Obligations.EncodePipelineMakesTheLine : Prop :=
  ∀ (s : State) (k inp out ni no na nb nc j r : Nat) (flush : Bool) (e : EncSession) (oa ob oc : BitOrder) (q p : Fifo Byte)
    (pa pb pc : Fifo Bit) (f line : List Bit),
    s.encs[k]? = some e →
    e.a = ⟨na, .bits oa pa⟩ → e.b = ⟨nb, .bits ob pb⟩ → e.c = ⟨nc, .bits oc pc⟩ → s.bufs[inp]? = some ⟨ni, .bytes q⟩ →
    j = min q.filled ((8 * na - pa.filled) / 8) → 0 < j →
    f = (if e.fe.preambleEmitted then []
          else List.replicate e.fe.z.toNat false ++ List.replicate e.fe.o.toNat true ++ [false]) ++
      stuff (pa.content ++ Spec.bitsOfBytes oa (q.content.take j)) ++ Config.eofMarker ++ Config.sepMarker →
    pb.filled + f.length ≤ 8 * nb →
    r = min (pb.filled + f.length) ((8 * nc - pc.filled) / 2) → 0 < r →
    line = pc.content ++ Spec.lineBits e.be.phase ((pb.content ++ f).take r) →
    let e' := fun (m : Nat) =>
      { e with xc1 := ⟨flush⟩, xc2 := ⟨flush⟩, fe := { e.fe with preambleEmitted := true },
               be := ⟨Spec.linePhase e.be.phase ((pb.content ++ f).take r)⟩,
               a := ⟨na, .bits oa ⟨[], []⟩⟩, b := ⟨nb, .bits ob ⟨(pb.content ++ f).drop r, []⟩⟩,
               c := ⟨nc, .bits oc ⟨line.drop (8 * m), []⟩⟩ }
    (∀ m, inp ≠ out → s.bufs[out]? = some ⟨no, .bytes p⟩ →
      m = min (Spec.packedBytes flush line.length) (no - p.filled) → 0 < m →
      exec (.x2dEncProcess k inp out flush) s =
        .next { s with
          encs := s.encs.set k (e' m),
          bufs := (s.bufs.set inp ⟨ni, .bytes ⟨q.content.drop j, []⟩⟩).set out
            ⟨no, .bytes ⟨p.content ++ Spec.bytesOfBits oc m line, p.staged.drop m⟩⟩,
          response := some (.code .ok) }) ∧
    (∀ m, m = min (Spec.packedBytes flush line.length) (ni - (q.filled - j)) → 0 < m →
      exec (.x2dEncProcess k inp inp flush) s =
        .next { s with
          encs := s.encs.set k (e' m),
          bufs := s.bufs.set inp ⟨ni, .bytes ⟨q.content.drop j ++ Spec.bytesOfBits oc m line, []⟩⟩,
          response := some (.code .ok) })

/-- 45_pipeline.md R223, R225 (R229 (c), R231): X2D_DEC.PROCESS that gets through all four stages, with either value of the
flush operand, from every state of the frame decoder, whatever waits in the session's buffers. `j` line bytes join what
waits in `DEC.A`, of which `r` pairs are decoded; these join what waits in `DEC.B`, which begins with what the decoder takes
before a body (from TRAILING a separator), then holds a stuffed payload and its marker; the payload bits `v` join what waits
in `DEC.C`, of which `m` bytes go out: the payload's own, where it is whole bytes and nothing waited there. What follows the
marker waits in `DEC.B`, and the frame decoder is in TRAILING. On one buffer as input and output (log entry 8) the payload
stands behind what stage 1 has left. -/
def Obligations.DecodePipelineRecoversThePayload : Prop :=
  ∀ (s : State) (k inp out ni no na nb nc j r : Nat) (flush : Bool) (d : DecSession) (oa ob oc : BitOrder) (q p : Fifo Byte)
    (pa pb pc : Fifo Bit) (u lead v rest : List Bit),
    s.decs[k]? = some d →
    d.a = ⟨na, .bits oa pa⟩ → d.b = ⟨nb, .bits ob pb⟩ → d.c = ⟨nc, .bits oc pc⟩ → s.bufs[inp]? = some ⟨ni, .bytes q⟩ →
    j = min q.filled ((8 * na - pa.filled) / 8) → 0 < j →
    u = pa.content ++ Spec.bitsOfBytes oa (q.content.take j) →
    r = min (u.length / 2) (8 * nb - pb.filled) → 0 < r →
    Spec.Lead d.fd.st lead →
    pb.content ++ Spec.dataBits (u.take (2 * r)) = lead ++ (stuff v ++ Config.eofMarker ++ rest) →
    pc.filled + v.length ≤ 8 * nc →
    let d' := fun (m : Nat) =>
      { d with xc1 := ⟨flush⟩, xc2 := ⟨flush⟩, fd := ⟨.trailing⟩,
               a := ⟨na, .bits oa ⟨u.drop (2 * r), []⟩⟩, b := ⟨nb, .bits ob ⟨rest, []⟩⟩,
               c := ⟨nc, .bits oc ⟨(pc.content ++ v).drop (8 * m), []⟩⟩ }
    (∀ m, inp ≠ out → s.bufs[out]? = some ⟨no, .bytes p⟩ →
      m = min (Spec.packedBytes flush (pc.content ++ v).length) (no - p.filled) → 0 < m →
      exec (.x2dDecProcess k inp out flush) s =
        .next { s with
          decs := s.decs.set k (d' m),
          bufs := (s.bufs.set inp ⟨ni, .bytes ⟨q.content.drop j, []⟩⟩).set out
            ⟨no, .bytes ⟨p.content ++ Spec.bytesOfBits oc m (pc.content ++ v), p.staged.drop m⟩⟩,
          response := some (.code .ok) }) ∧
    (∀ m, m = min (Spec.packedBytes flush (pc.content ++ v).length) (ni - (q.filled - j)) → 0 < m →
      exec (.x2dDecProcess k inp inp flush) s =
        .next { s with
          decs := s.decs.set k (d' m),
          bufs := s.bufs.set inp ⟨ni, .bytes ⟨q.content.drop j ++ Spec.bytesOfBits oc m (pc.content ++ v), []⟩⟩,
          response := some (.code .ok) }) ∧
    (∀ payload : List Byte, pc.content ++ v = Spec.bitsOfBytes oc payload →
      Spec.packedBytes flush (pc.content ++ v).length = payload.length ∧
      Spec.bytesOfBits oc payload.length (pc.content ++ v) = payload)

/-- 45_pipeline.md R232 (with the limit of R230 for any CAP_BYTES, Z ≥ 7 and O ≥ 6): a message encoded by one
X2D_ENC.PROCESS after X2D_ENC.RESET and decoded by one X2D_DEC.PROCESS after X2D_DEC.RESET comes out as it went in,
whatever the sessions held before, for either payload bit order as long as both sessions have the same. -/
def Obligations.PipelineRoundTrip : Prop :=
  ∀ (s : State) (k j msg line got nm nl ng cap : Nat) (e : EncSession) (d : DecSession) (order : BitOrder)
    (payload : List Byte) (sm sl sg : List (Option Byte)),
    s.encs[k]? = some e → s.decs[j]? = some d →
    e.a.nbytes = cap → e.b.nbytes = cap → e.c.nbytes = cap → d.a.nbytes = cap → d.b.nbytes = cap → d.c.nbytes = cap →
    e.a.order? = some order → e.b.order? = some .lsb → e.c.order? = some .msb →
    d.a.order? = some .msb → d.b.order? = some .lsb → d.c.order? = some order →
    msg ≠ line → line ≠ got → msg ≠ got →
    s.bufs[msg]? = some ⟨nm, .bytes ⟨payload, sm⟩⟩ → s.bufs[line]? = some ⟨nl, .bytes ⟨[], sl⟩⟩ →
    s.bufs[got]? = some ⟨ng, .bytes ⟨[], sg⟩⟩ →
    payload ≠ [] → payload.length ≤ ng → cap ≤ nl → 7 ≤ e.fe.z.toNat → 6 ≤ e.fe.o.toNat →
    e.fe.z.toNat + e.fe.o.toNat + 1 + (stuff (Spec.bitsOfBytes order payload)).length + 16 ≤ 4 * cap →
    ∃ t1 t2 t3 t4,
      exec (.x2dEncReset k) s = .next t1 ∧
      exec (.x2dEncProcess k msg line true) t1 = .next t2 ∧ t2.response = some (.code .ok) ∧
      exec (.x2dDecReset j) t2 = .next t3 ∧
      exec (.x2dDecProcess j line got true) t3 = .next t4 ∧ t4.response = some (.code .ok) ∧
      t4.bufs[got]?.bind BitBuffer.bytes? = some payload

/-- 45_pipeline.md R224, R225, 60_exceptions.md R243: a pipeline call is its four stages, whole stand-alone transactions in
their order from stage 1, ended by the first that does not answer OK, whose code it answers; the data that the earlier ones
moved stays in the buffers between (R229, R231). First clause: whatever the state, X2D_ENC.PROCESS and X2D_DEC.PROCESS do to
the session and the end buffers, two or one (log entry 8), what the stand-alone operations do to units and buffers in the
same state, where buffer 0 is the input, 1, 2, 3 are the session's three and 4 is the output. Then in closed form the stops:
an empty input stops at stage one, whatever waits in the buffers (R229 (a)), and so does a full first buffer; on the encode
side a frame that does not fit `ENC.B`, a full `ENC.C`, a full output or with flush 0 too few line bits; on the decode side
a full `DEC.B`, a frame decoder that waits or gives up, a payload that does not fit `DEC.C`, a full output or too few
payload bits. -/
def Obligations.EmptyInputStopsAtStageOne : Prop :=
  (∀ (s : State) (k inp out : Nat) (flush : Bool) (bi bo : BitBuffer), s.bufs[inp]? = some bi → s.bufs[out]? = some bo →
    let last := if inp = out then 0 else 4
    let ends := fun (bi' bo' : BitBuffer) => if inp = out then s.bufs.set inp bi' else (s.bufs.set inp bi').set out bo'
    (∀ e : EncSession, s.encs[k]? = some e →
      ∃ (t : State) (e' : EncSession) (bi' bo' : BitBuffer),
        runWhileOk [.xcProcess 0 0 1, .frameEncProcess 0 1 2, .bmcEncProcess 0 2 3, .xcProcess 1 3 last]
          { State.reset with xcs := [⟨flush⟩, ⟨flush⟩], fes := [e.fe], bes := [e.be], bufs := [bi, e.a, e.b, e.c, bo] } =
            .next t ∧
        t.xcs = [e'.xc1, e'.xc2] ∧ t.fes = [e'.fe] ∧ t.bes = [e'.be] ∧ t.bufs = [bi', e'.a, e'.b, e'.c, bo'] ∧
        exec (.x2dEncProcess k inp out flush) s =
          .next { s with encs := s.encs.set k e', bufs := ends bi' bo', response := t.response }) ∧
    (∀ d : DecSession, s.decs[k]? = some d →
      ∃ (t : State) (d' : DecSession) (bi' bo' : BitBuffer),
        runWhileOk [.xcProcess 0 0 1, .bmcDecProcess 1 2, .frameDecProcess 0 2 3, .xcProcess 1 3 last]
          { State.reset with xcs := [⟨flush⟩, ⟨flush⟩], fds := [d.fd], bufs := [bi, d.a, d.b, d.c, bo] } = .next t ∧
        t.xcs = [d'.xc1, d'.xc2] ∧ t.fds = [d'.fd] ∧ t.bufs = [bi', d'.a, d'.b, d'.c, bo'] ∧
        exec (.x2dDecProcess k inp out flush) s =
          .next { s with decs := s.decs.set k d', bufs := ends bi' bo', response := t.response })) ∧
  (∀ (s : State) (k inp out ni : Nat) (flush : Bool) (g : List (Option Byte)) (B : BitBuffer),
    s.bufs[inp]? = some ⟨ni, .bytes ⟨[], g⟩⟩ → s.bufs[out]? = some B →
    (∀ e : EncSession, s.encs[k]? = some e → e.a.mode ≠ .reserved →
      exec (.x2dEncProcess k inp out flush) s =
        .next { s with encs := s.encs.set k { e with xc1 := ⟨flush⟩, xc2 := ⟨flush⟩ },
                       response := some (.code .needInputData) }) ∧
    (∀ d : DecSession, s.decs[k]? = some d → d.a.mode ≠ .reserved →
      exec (.x2dDecProcess k inp out flush) s =
        .next { s with decs := s.decs.set k { d with xc1 := ⟨flush⟩, xc2 := ⟨flush⟩ },
                       response := some (.code .needInputData) })) ∧
  (∀ (s : State) (k inp out ni no na nb nc j r : Nat) (flush : Bool) (e : EncSession) (oa ob oc : BitOrder) (q p : Fifo Byte)
    (pa pb pc : Fifo Bit) (B : BitBuffer) (x f line : List Bit),
    s.encs[k]? = some e →
    e.a = ⟨na, .bits oa pa⟩ → e.b = ⟨nb, .bits ob pb⟩ → e.c = ⟨nc, .bits oc pc⟩ →
    s.bufs[inp]? = some ⟨ni, .bytes q⟩ → s.bufs[out]? = some B →
    j = min q.filled ((8 * na - pa.filled) / 8) → x = pa.content ++ Spec.bitsOfBytes oa (q.content.take j) →
    f = (if e.fe.preambleEmitted then []
          else List.replicate e.fe.z.toNat false ++ List.replicate e.fe.o.toNat true ++ [false]) ++
      stuff x ++ Config.eofMarker ++ Config.sepMarker →
    r = min (pb.filled + f.length) ((8 * nc - pc.filled) / 2) →
    line = pc.content ++ Spec.lineBits e.be.phase ((pb.content ++ f).take r) →
    let stops := fun (e' : EncSession) (bufs' : Memory) (rc : ResultCode) =>
      exec (.x2dEncProcess k inp out flush) s =
        .next { s with encs := s.encs.set k { e' with xc1 := ⟨flush⟩, xc2 := ⟨flush⟩ }, bufs := bufs',
                       response := some (.code rc) }
    let taken := s.bufs.set inp ⟨ni, .bytes ⟨q.content.drop j, []⟩⟩
    let e3 := { e with fe := { e.fe with preambleEmitted := true }, a := ⟨na, .bits oa ⟨[], []⟩⟩ }
    let e4 := { e3 with be := ⟨Spec.linePhase e.be.phase ((pb.content ++ f).take r)⟩,
                        b := ⟨nb, .bits ob ⟨(pb.content ++ f).drop r, []⟩⟩,
                        c := ⟨nc, .bits oc ⟨line, pc.staged.drop (2 * r)⟩⟩ }
    (0 < q.filled → j = 0 → stops e s.bufs .needOutputSpace) ∧
    (0 < j → 8 * nb < pb.filled + f.length →
      stops { e with a := ⟨na, .bits oa ⟨x, pa.staged.drop (8 * j)⟩⟩ } taken .needOutputSpace) ∧
    (0 < j → pb.filled + f.length ≤ 8 * nb → r = 0 →
      stops { e3 with b := ⟨nb, .bits ob ⟨pb.content ++ f, pb.staged.drop f.length⟩⟩ } taken .needOutputSpace) ∧
    (0 < j → pb.filled + f.length ≤ 8 * nb → 0 < r → inp ≠ out → B = ⟨no, .bytes p⟩ →
      (Spec.packedBytes flush line.length = 0 → stops e4 taken .needInputData) ∧
      (0 < Spec.packedBytes flush line.length → no ≤ p.filled → stops e4 taken .needOutputSpace))) ∧
  (∀ (s : State) (k inp out ni no na nb nc j r : Nat) (flush : Bool) (d : DecSession) (oa ob oc : BitOrder) (q p : Fifo Byte)
    (pa pb pc : Fifo Bit) (B : BitBuffer) (u y : List Bit),
    s.decs[k]? = some d →
    d.a = ⟨na, .bits oa pa⟩ → d.b = ⟨nb, .bits ob pb⟩ → d.c = ⟨nc, .bits oc pc⟩ →
    s.bufs[inp]? = some ⟨ni, .bytes q⟩ → s.bufs[out]? = some B →
    j = min q.filled ((8 * na - pa.filled) / 8) → u = pa.content ++ Spec.bitsOfBytes oa (q.content.take j) →
    r = min (u.length / 2) (8 * nb - pb.filled) → y = pb.content ++ Spec.dataBits (u.take (2 * r)) →
    let stops := fun (d' : DecSession) (bufs' : Memory) (rc : ResultCode) =>
      exec (.x2dDecProcess k inp out flush) s =
        .next { s with decs := s.decs.set k { d' with xc1 := ⟨flush⟩, xc2 := ⟨flush⟩ }, bufs := bufs',
                       response := some (.code rc) }
    let taken := s.bufs.set inp ⟨ni, .bytes ⟨q.content.drop j, []⟩⟩
    let d3 := { d with a := ⟨na, .bits oa ⟨u.drop (2 * r), []⟩⟩, b := ⟨nb, .bits ob ⟨y, pb.staged.drop r⟩⟩ }
    (0 < q.filled → j = 0 → stops d s.bufs .needOutputSpace) ∧
    (0 < j → r = 0 → stops { d with a := ⟨na, .bits oa ⟨u, pa.staged.drop (8 * j)⟩⟩ } taken .needOutputSpace) ∧
    (0 < j → 0 < r → (d.fd.st = .init ∨ d.fd.st = .leadOnes) → (∃ n v, y = List.replicate n v) →
      stops d3 taken .needInputData) ∧
    (0 < j → 0 < r → d.fd.st = .trailing → y.length < 7 → stops d3 taken .needInputData) ∧
    (0 < j → 0 < r → d.fd.st = .data → ¬ [true, true, true, true, true, true, true, true, false] <:+: y →
      (y.length < 128 → stops d3 taken .needInputData) ∧
      (128 ≤ y.length → stops { d3 with fd := ⟨.init⟩, b := ⟨nb, .bits ob ⟨[], []⟩⟩ } taken .needInputData)) ∧
    (∀ v rest : List Bit, 0 < j → 0 < r → d.fd.st = .data → y = stuff v ++ Config.eofMarker ++ rest →
      8 * nc < pc.filled + v.length → stops d3 taken .needOutputSpace) ∧
    (∀ lead v rest : List Bit, 0 < j → 0 < r → Spec.Lead d.fd.st lead →
      y = lead ++ (stuff v ++ Config.eofMarker ++ rest) → pc.filled + v.length ≤ 8 * nc →
      inp ≠ out → B = ⟨no, .bytes p⟩ →
      let d4 := { d3 with fd := ⟨.trailing⟩, b := ⟨nb, .bits ob ⟨rest, []⟩⟩,
                          c := ⟨nc, .bits oc ⟨pc.content ++ v, pc.staged.drop v.length⟩⟩ }
      (Spec.packedBytes flush (pc.content ++ v).length = 0 → stops d4 taken .needInputData) ∧
      (0 < Spec.packedBytes flush (pc.content ++ v).length → no ≤ p.filled → stops d4 taken .needOutputSpace)))

/-! ### Result codes -/

/-- 30_encoding.md R91, 60_exceptions.md R244: a stage given a buffer of a mode it does not accept says so, the input
first, and nothing changes, whatever the buffers hold. -/
def Obligations.WrongModesAreReportedInputFirst : Prop :=
  ∀ (s : State) (k inp out : Nat) (bi bo : BitBuffer), s.bufs[inp]? = some bi → s.bufs[out]? = some bo →
    let answers := fun (i : Instr) (rc : ResultCode) => exec i s = .next { s with response := some (.code rc) }
    (∀ i : Instr, (i = .bmcEncProcess k inp out ∧ k < s.bes.length) ∨ i = .bmcDecProcess inp out ∨
        (i = .frameEncProcess k inp out ∧ k < s.fes.length) ∨ (i = .frameDecProcess k inp out ∧ k < s.fds.length) →
      (bi.order? = none → answers i .invalidInputType) ∧
      (bi.order? ≠ none → bo.order? = none → answers i .invalidOutputType)) ∧
    (k < s.xcs.length →
      (bi.mode = .reserved → answers (.xcProcess k inp out) .invalidInputType) ∧
      (bi.mode ≠ .reserved → bo.mode = .reserved → answers (.xcProcess k inp out) .invalidOutputType))

/-- 60_exceptions.md R242: when the looping stages answer the two transient codes, input before output. Input and output
may be one buffer. -/
def Obligations.TransientCodesOfLoopingStages : Prop :=
  ∀ (s : State) (k inp out ni no : Nat) (oi oo : BitOrder) (qb rb : Fifo Bit) (qy ry : Fifo Byte),
    let answers := fun (i : Instr) (rc : ResultCode) => exec i s = .next { s with response := some (.code rc) }
    (∀ u : Xc, s.xcs[k]? = some u →
      (s.bufs[inp]? = some ⟨ni, .bits oi qb⟩ → s.bufs[out]? = some ⟨no, .bits oo rb⟩ →
        (qb.filled = 0 → answers (.xcProcess k inp out) .needInputData) ∧
        (0 < qb.filled → 8 * no ≤ rb.filled → answers (.xcProcess k inp out) .needOutputSpace)) ∧
      (s.bufs[inp]? = some ⟨ni, .bytes qy⟩ → s.bufs[out]? = some ⟨no, .bytes ry⟩ →
        (qy.filled = 0 → answers (.xcProcess k inp out) .needInputData) ∧
        (0 < qy.filled → no ≤ ry.filled → answers (.xcProcess k inp out) .needOutputSpace)) ∧
      (s.bufs[inp]? = some ⟨ni, .bits oi qb⟩ → s.bufs[out]? = some ⟨no, .bytes ry⟩ →
        (qb.filled < (if u.flush then 1 else 8) → answers (.xcProcess k inp out) .needInputData) ∧
        ((if u.flush then 1 else 8) ≤ qb.filled → no ≤ ry.filled → answers (.xcProcess k inp out) .needOutputSpace)) ∧
      (s.bufs[inp]? = some ⟨ni, .bytes qy⟩ → s.bufs[out]? = some ⟨no, .bits oo rb⟩ →
        (qy.filled = 0 → answers (.xcProcess k inp out) .needInputData) ∧
        (0 < qy.filled → 8 * no < rb.filled + 8 → answers (.xcProcess k inp out) .needOutputSpace))) ∧
    (s.bufs[inp]? = some ⟨ni, .bits oi qb⟩ → s.bufs[out]? = some ⟨no, .bits oo rb⟩ → k < s.bes.length →
      (qb.filled = 0 → answers (.bmcEncProcess k inp out) .needInputData) ∧
      (0 < qb.filled → 8 * no < rb.filled + 2 → answers (.bmcEncProcess k inp out) .needOutputSpace)) ∧
    (s.bufs[inp]? = some ⟨ni, .bits oi qb⟩ → s.bufs[out]? = some ⟨no, .bits oo rb⟩ →
      (qb.filled < 2 → answers (.bmcDecProcess inp out) .needInputData) ∧
      (2 ≤ qb.filled → 8 * no ≤ rb.filled → answers (.bmcDecProcess inp out) .needOutputSpace))

/-- 60_exceptions.md R240, R243: a PROCESS of a unit or session that exists, on buffers that exist, always answers a next
state and hands back a result code, whatever the buffers hold, of whatever mode, two buffers or one (log entry 8); only the transcoder
needs two (XcCopiesLikeToLike says what it does on one). -/
def Obligations.ProcessAlwaysCompletes : Prop :=
  ∀ (s : State) (k inp out : Nat) (flush : Bool), inp < s.bufs.length → out < s.bufs.length →
    let completes := fun (i : Instr) => ∃ t rc, exec i s = .next t ∧ t.response = some (.code rc)
    (k < s.xcs.length → inp ≠ out → completes (.xcProcess k inp out)) ∧
    (k < s.bes.length → completes (.bmcEncProcess k inp out)) ∧
    completes (.bmcDecProcess inp out) ∧
    (k < s.fes.length → completes (.frameEncProcess k inp out)) ∧
    (k < s.fds.length → completes (.frameDecProcess k inp out)) ∧
    (k < s.encs.length → completes (.x2dEncProcess k inp out flush)) ∧
    (k < s.decs.length → completes (.x2dDecProcess k inp out flush))

/-- 60_exceptions.md R241: which kind of operation hands back which result code; the primitives hand back none. -/
def Obligations.CodesByKind : Prop :=
  ∀ (i : Instr) (s t : State) (rc : ResultCode), exec i s = .next t → t.response = some (.code rc) →
    i.kind.mayReturn rc = true

/-- 60_exceptions.md R245: a stand-alone stage that answered a transient code answers it again, and changes nothing, if
it is called again on the same buffers. -/
def Obligations.RetryChangesNothing : Prop :=
  ∀ (i : Instr) (s t : State), i.kind = .stage → exec i s = .next t →
    t.response = some (.code .needInputData) ∨ t.response = some (.code .needOutputSpace) → exec i t = .next t

/-- 40_bitbuffer_ops.md R116: only a primitive the caller invokes itself faults on a precondition, and the one other fault
is the transcoder's copy of a buffer to itself (log entry 8); and inside the block no precondition is ever false: whatever
a stage consumes is there, and whatever it puts out fits. -/
def Obligations.OnlyPrimitivesFault : Prop :=
  (∀ (i : Instr) (s : State) (r : Fault), exec i s = .fault r →
    i.kind = .buf ∨ (r = .neverEnds ∧ ∃ x b, i = .xcProcess x b b)) ∧
  (∀ (cap : Nat) (order : BitOrder) (u : Xc) (be : BiphaseEnc) (fe : FrameEnc) (fs : FdState) (qb rb : Fifo Bit)
    (qy ry : Fifo Byte),
    (∀ u' n us, copyStep cap u qb rb = .done u' n us → n ≤ qb.filled ∧ rb.filled + us.length ≤ cap) ∧
    (∀ u' n us, copyStep cap u qy ry = .done u' n us → n ≤ qy.filled ∧ ry.filled + us.length ≤ cap) ∧
    (∀ u' n us, packStep order cap u qb ry = .done u' n us → n ≤ qb.filled ∧ ry.filled + us.length ≤ cap) ∧
    (∀ u' n us, unpackStep order cap u qy rb = .done u' n us → n ≤ qy.filled ∧ rb.filled + us.length ≤ cap) ∧
    (∀ u' n us, bmcEncStep cap be qb rb = .done u' n us → n ≤ qb.filled ∧ rb.filled + us.length ≤ cap) ∧
    (∀ u' n us, bmcDecStep cap () qb rb = .done u' n us → n ≤ qb.filled ∧ rb.filled + us.length ≤ cap) ∧
    ((frameEncAct fe cap qb rb).n ≤ qb.filled ∧
      ((frameEncAct fe cap qb rb).us = [] ∨ rb.filled + (frameEncAct fe cap qb rb).us.length ≤ cap)) ∧
    (∀ fs' n, fdStep cap fs qb rb = .goOn fs' n → n ≤ qb.filled) ∧
    (∀ a, fdStep cap fs qb rb = .ret a → a.n ≤ qb.filled ∧ (a.us = [] ∨ rb.filled + a.us.length ≤ cap)))

/-! ### Frames and whole-machine rules -/

/-- Frame of the RESETs and CONFIGs: nothing outside the unit or session named changes, no buffer, no free value is
drawn (20_memory.md R50, 60_exceptions.md R251, 70_reset_and_hazards.md R271). -/
def Obligations.ResetAndConfigFrame : Prop :=
  ∀ (i : Instr) (s t : State), i.kind = .reset ∨ i.kind = .config → exec i s = .next t →
    UnchangedOutside i.footprint s t ∧ t.bufs = s.bufs ∧ t.fresh = s.fresh

/-- Frame of the primitives: only the one buffer named changes, and the three that only ask change none; only
BUF.PRODUCE draws free values. -/
def Obligations.PrimitiveFrame : Prop :=
  ∀ (i : Instr) (s t : State), i.kind = .buf → exec i s = .next t →
    UnchangedOutside i.footprint s t ∧ ((∀ b n, i ≠ .bufProduce b n) → t.fresh = s.fresh)

/-- Frame of the PROCESS operations, stand-alone and pipeline: nothing changes outside the unit or session and the two
buffers named; the input buffer loses a prefix of its content, the output buffer gains units at its end (20_memory.md
R53), and none, one buffer in both places (log entry 8) included, changes its mode or size. -/
def Obligations.ProcessFrame : Prop :=
  ∀ (i : Instr) (s t : State) (inp out : Nat), i.kind = .stage ∨ i.kind = .pipeline → i.footprint.bufs = [inp, out] →
    exec i s = .next t →
    UnchangedOutside i.footprint s t ∧ t.fresh = s.fresh ∧
    (inp ≠ out →
      (∃ B B', s.bufs[inp]? = some B ∧ t.bufs[inp]? = some B' ∧ B.ConsumedTo B') ∧
      (∃ B B', s.bufs[out]? = some B ∧ t.bufs[out]? = some B' ∧ B.ProducedTo B')) ∧
    (inp = out → ∃ B B', s.bufs[inp]? = some B ∧ t.bufs[inp]? = some B' ∧ B.SameShape B')

/-- 10_state.md R31, R32: which operation may change which register of a stand-alone unit: the flush flag only a RESET
or CONFIG of that transcoder, Z and O only a CONFIG of that register, and the preamble flag is cleared only by a
RESET. -/
def Obligations.RegistersChangeOnlyByTheirOperations : Prop :=
  ∀ (i : Instr) (s t : State) (k : Nat), exec i s = .next t →
    (∀ x x' : Xc, s.xcs[k]? = some x → t.xcs[k]? = some x' → x'.flush ≠ x.flush →
      i = .xcReset k ∨ ∃ v, i = .xcConfig k .flush v) ∧
    (∀ x x' : FrameEnc, s.fes[k]? = some x → t.fes[k]? = some x' →
      (x'.z ≠ x.z → i = .frameEncConfig k .z x'.z) ∧ (x'.o ≠ x.o → i = .frameEncConfig k .o x'.o) ∧
      (x.preambleEmitted = true → x'.preambleEmitted = false → i = .frameEncReset k)) ∧
    (∀ e e' : EncSession, s.encs[k]? = some e → t.encs[k]? = some e' →
      (e'.fe.z ≠ e.fe.z → i = .x2dEncConfig k .z e'.fe.z) ∧ (e'.fe.o ≠ e.fe.o → i = .x2dEncConfig k .o e'.fe.o) ∧
      (e.fe.preambleEmitted = true → e'.fe.preambleEmitted = false → i = .x2dEncReset k))

/-- 10_state.md R20, 70_reset_and_hazards.md R271: no operation changes the mode or the size of any buffer. -/
def Obligations.ShapesNeverChange : Prop :=
  ∀ (i : Instr) (s t : State) (k : Nat), exec i s = .next t →
    (∀ B B', s.bufs[k]? = some B → t.bufs[k]? = some B' → B.SameShape B') ∧
    (∀ e e' : EncSession, s.encs[k]? = some e → t.encs[k]? = some e' →
      e.a.SameShape e'.a ∧ e.b.SameShape e'.b ∧ e.c.SameShape e'.c) ∧
    (∀ d d' : DecSession, s.decs[k]? = some d → t.decs[k]? = some d' →
      d.a.SameShape d'.a ∧ d.b.SameShape d'.b ∧ d.c.SameShape d'.c)

/-- 60_exceptions.md R251: what a PROCESS does to its unit or session and its buffers, and what it answers, depends on
nothing else: two states that agree on those give the same answer, and agree on them afterwards. -/
def Obligations.SessionsAreIsolated : Prop :=
  ∀ (i : Instr) (s s' t : State), i.kind = .stage ∨ i.kind = .pipeline → AgreeOn i.footprint s s' → exec i s = .next t →
    ∃ t', exec i s' = .next t' ∧ t'.response = t.response ∧ AgreeOn i.footprint t t'

/-- 41_bitwidth_converter.md R135: a looping stage stops only where its next step is blocked, never because the bound
on its number of steps ran out; stated of the transcoder cases and the two biphase stages on two buffers, and of the
biphase stages on one. The copy from a buffer to itself, neither empty nor full, does not stop: it is still going on after
any number of steps (log entries 8 and 16). -/
def Obligations.LoopsStopOnlyWhenBlocked : Prop :=
  ∀ (cap : Nat) (order : BitOrder) (u : Xc) (be : BiphaseEnc) (qb rb : Fifo Bit) (qy ry : Fifo Byte),
    (∃ rc, let r := runLoop (copyStep cap) u qb rb; copyStep cap r.st r.inp r.out = .blocked rc) ∧
    (∃ rc, let r := runLoop (copyStep cap) u qy ry; copyStep cap r.st r.inp r.out = .blocked rc) ∧
    (∃ rc, let r := runLoop (packStep order cap) u qb ry; packStep order cap r.st r.inp r.out = .blocked rc) ∧
    (∃ rc, let r := runLoop (unpackStep order cap) u qy rb; unpackStep order cap r.st r.inp r.out = .blocked rc) ∧
    (∃ rc, let r := runLoop (bmcEncStep cap) be qb rb; bmcEncStep cap r.st r.inp r.out = .blocked rc) ∧
    (∃ rc, let r := runLoop (bmcDecStep cap) () qb rb; bmcDecStep cap r.st r.inp r.out = .blocked rc) ∧
    (∃ r rc, runOne (bmcEncStep cap) cap be qb = some r ∧ bmcEncStep cap r.st r.buf r.buf = .blocked rc) ∧
    (∃ r rc, runOne (bmcDecStep cap) cap () qb = some r ∧ bmcDecStep cap r.st r.buf r.buf = .blocked rc) ∧
    (∀ fuel, 0 < qb.filled → qb.filled < cap → loopOne (copyStep cap) fuel false u qb = none) ∧
    (∀ fuel, 0 < qy.filled → qy.filled < cap → loopOne (copyStep cap) fuel false u qy = none)

/-- Every step keeps the invariant: every buffer, the caller's and the sessions', in canonical form and within its
capacity (10_state.md R21); every session wired as 45_pipeline.md R221, R222 say; no frame decoder resting in EXTRA_ZERO
(44_frame_decoder.md R194), and one of a session resting in LEAD_ONES with nothing but ones buffered (R193). -/
def Obligations.StepKeepsInvariant : Prop :=
  ∀ s t : State, s.inv = true → step s = .next t → t.inv = true
end

