-- ==== Sys2Proof/Laws/State.lean ====
section
/-! SUPPORT. What each update of State does to each field. -/

namespace Sys2Proof.Machine

@[simp] theorem State.respond_xcs (s : State) (r : Response) : (s.respond r).xcs = s.xcs := rfl
@[simp] theorem State.respond_bes (s : State) (r : Response) : (s.respond r).bes = s.bes := rfl
@[simp] theorem State.respond_fes (s : State) (r : Response) : (s.respond r).fes = s.fes := rfl
@[simp] theorem State.respond_fds (s : State) (r : Response) : (s.respond r).fds = s.fds := rfl
@[simp] theorem State.respond_encs (s : State) (r : Response) : (s.respond r).encs = s.encs := rfl
@[simp] theorem State.respond_decs (s : State) (r : Response) : (s.respond r).decs = s.decs := rfl
@[simp] theorem State.respond_bufs (s : State) (r : Response) : (s.respond r).bufs = s.bufs := rfl
@[simp] theorem State.respond_calls (s : State) (r : Response) : (s.respond r).calls = s.calls := rfl
@[simp] theorem State.respond_response (s : State) (r : Response) : (s.respond r).response = some r := rfl
@[simp] theorem State.respond_fresh (s : State) (r : Response) : (s.respond r).fresh = s.fresh := rfl

@[simp] theorem State.putXc_xcs (s : State) (k : Nat) (x : Xc) : (s.putXc k x).xcs = s.xcs.set k x := rfl
@[simp] theorem State.putXc_bes (s : State) (k : Nat) (x : Xc) : (s.putXc k x).bes = s.bes := rfl
@[simp] theorem State.putXc_fes (s : State) (k : Nat) (x : Xc) : (s.putXc k x).fes = s.fes := rfl
@[simp] theorem State.putXc_fds (s : State) (k : Nat) (x : Xc) : (s.putXc k x).fds = s.fds := rfl
@[simp] theorem State.putXc_encs (s : State) (k : Nat) (x : Xc) : (s.putXc k x).encs = s.encs := rfl
@[simp] theorem State.putXc_decs (s : State) (k : Nat) (x : Xc) : (s.putXc k x).decs = s.decs := rfl
@[simp] theorem State.putXc_bufs (s : State) (k : Nat) (x : Xc) : (s.putXc k x).bufs = s.bufs := rfl
@[simp] theorem State.putXc_calls (s : State) (k : Nat) (x : Xc) : (s.putXc k x).calls = s.calls := rfl
@[simp] theorem State.putXc_response (s : State) (k : Nat) (x : Xc) : (s.putXc k x).response = s.response := rfl
@[simp] theorem State.putXc_fresh (s : State) (k : Nat) (x : Xc) : (s.putXc k x).fresh = s.fresh := rfl

@[simp] theorem State.putBe_xcs (s : State) (k : Nat) (x : BiphaseEnc) : (s.putBe k x).xcs = s.xcs := rfl
@[simp] theorem State.putBe_bes (s : State) (k : Nat) (x : BiphaseEnc) : (s.putBe k x).bes = s.bes.set k x := rfl
@[simp] theorem State.putBe_fes (s : State) (k : Nat) (x : BiphaseEnc) : (s.putBe k x).fes = s.fes := rfl
@[simp] theorem State.putBe_fds (s : State) (k : Nat) (x : BiphaseEnc) : (s.putBe k x).fds = s.fds := rfl
@[simp] theorem State.putBe_encs (s : State) (k : Nat) (x : BiphaseEnc) : (s.putBe k x).encs = s.encs := rfl
@[simp] theorem State.putBe_decs (s : State) (k : Nat) (x : BiphaseEnc) : (s.putBe k x).decs = s.decs := rfl
@[simp] theorem State.putBe_bufs (s : State) (k : Nat) (x : BiphaseEnc) : (s.putBe k x).bufs = s.bufs := rfl
@[simp] theorem State.putBe_calls (s : State) (k : Nat) (x : BiphaseEnc) : (s.putBe k x).calls = s.calls := rfl
@[simp] theorem State.putBe_response (s : State) (k : Nat) (x : BiphaseEnc) : (s.putBe k x).response = s.response := rfl
@[simp] theorem State.putBe_fresh (s : State) (k : Nat) (x : BiphaseEnc) : (s.putBe k x).fresh = s.fresh := rfl

@[simp] theorem State.putFe_xcs (s : State) (k : Nat) (x : FrameEnc) : (s.putFe k x).xcs = s.xcs := rfl
@[simp] theorem State.putFe_bes (s : State) (k : Nat) (x : FrameEnc) : (s.putFe k x).bes = s.bes := rfl
@[simp] theorem State.putFe_fes (s : State) (k : Nat) (x : FrameEnc) : (s.putFe k x).fes = s.fes.set k x := rfl
@[simp] theorem State.putFe_fds (s : State) (k : Nat) (x : FrameEnc) : (s.putFe k x).fds = s.fds := rfl
@[simp] theorem State.putFe_encs (s : State) (k : Nat) (x : FrameEnc) : (s.putFe k x).encs = s.encs := rfl
@[simp] theorem State.putFe_decs (s : State) (k : Nat) (x : FrameEnc) : (s.putFe k x).decs = s.decs := rfl
@[simp] theorem State.putFe_bufs (s : State) (k : Nat) (x : FrameEnc) : (s.putFe k x).bufs = s.bufs := rfl
@[simp] theorem State.putFe_calls (s : State) (k : Nat) (x : FrameEnc) : (s.putFe k x).calls = s.calls := rfl
@[simp] theorem State.putFe_response (s : State) (k : Nat) (x : FrameEnc) : (s.putFe k x).response = s.response := rfl
@[simp] theorem State.putFe_fresh (s : State) (k : Nat) (x : FrameEnc) : (s.putFe k x).fresh = s.fresh := rfl

@[simp] theorem State.putFd_xcs (s : State) (k : Nat) (x : FrameDec) : (s.putFd k x).xcs = s.xcs := rfl
@[simp] theorem State.putFd_bes (s : State) (k : Nat) (x : FrameDec) : (s.putFd k x).bes = s.bes := rfl
@[simp] theorem State.putFd_fes (s : State) (k : Nat) (x : FrameDec) : (s.putFd k x).fes = s.fes := rfl
@[simp] theorem State.putFd_fds (s : State) (k : Nat) (x : FrameDec) : (s.putFd k x).fds = s.fds.set k x := rfl
@[simp] theorem State.putFd_encs (s : State) (k : Nat) (x : FrameDec) : (s.putFd k x).encs = s.encs := rfl
@[simp] theorem State.putFd_decs (s : State) (k : Nat) (x : FrameDec) : (s.putFd k x).decs = s.decs := rfl
@[simp] theorem State.putFd_bufs (s : State) (k : Nat) (x : FrameDec) : (s.putFd k x).bufs = s.bufs := rfl
@[simp] theorem State.putFd_calls (s : State) (k : Nat) (x : FrameDec) : (s.putFd k x).calls = s.calls := rfl
@[simp] theorem State.putFd_response (s : State) (k : Nat) (x : FrameDec) : (s.putFd k x).response = s.response := rfl
@[simp] theorem State.putFd_fresh (s : State) (k : Nat) (x : FrameDec) : (s.putFd k x).fresh = s.fresh := rfl

@[simp] theorem State.putEnc_xcs (s : State) (k : Nat) (x : EncSession) : (s.putEnc k x).xcs = s.xcs := rfl
@[simp] theorem State.putEnc_bes (s : State) (k : Nat) (x : EncSession) : (s.putEnc k x).bes = s.bes := rfl
@[simp] theorem State.putEnc_fes (s : State) (k : Nat) (x : EncSession) : (s.putEnc k x).fes = s.fes := rfl
@[simp] theorem State.putEnc_fds (s : State) (k : Nat) (x : EncSession) : (s.putEnc k x).fds = s.fds := rfl
@[simp] theorem State.putEnc_encs (s : State) (k : Nat) (x : EncSession) : (s.putEnc k x).encs = s.encs.set k x := rfl
@[simp] theorem State.putEnc_decs (s : State) (k : Nat) (x : EncSession) : (s.putEnc k x).decs = s.decs := rfl
@[simp] theorem State.putEnc_bufs (s : State) (k : Nat) (x : EncSession) : (s.putEnc k x).bufs = s.bufs := rfl
@[simp] theorem State.putEnc_calls (s : State) (k : Nat) (x : EncSession) : (s.putEnc k x).calls = s.calls := rfl
@[simp] theorem State.putEnc_response (s : State) (k : Nat) (x : EncSession) : (s.putEnc k x).response = s.response := rfl
@[simp] theorem State.putEnc_fresh (s : State) (k : Nat) (x : EncSession) : (s.putEnc k x).fresh = s.fresh := rfl

@[simp] theorem State.putDec_xcs (s : State) (k : Nat) (x : DecSession) : (s.putDec k x).xcs = s.xcs := rfl
@[simp] theorem State.putDec_bes (s : State) (k : Nat) (x : DecSession) : (s.putDec k x).bes = s.bes := rfl
@[simp] theorem State.putDec_fes (s : State) (k : Nat) (x : DecSession) : (s.putDec k x).fes = s.fes := rfl
@[simp] theorem State.putDec_fds (s : State) (k : Nat) (x : DecSession) : (s.putDec k x).fds = s.fds := rfl
@[simp] theorem State.putDec_encs (s : State) (k : Nat) (x : DecSession) : (s.putDec k x).encs = s.encs := rfl
@[simp] theorem State.putDec_decs (s : State) (k : Nat) (x : DecSession) : (s.putDec k x).decs = s.decs.set k x := rfl
@[simp] theorem State.putDec_bufs (s : State) (k : Nat) (x : DecSession) : (s.putDec k x).bufs = s.bufs := rfl
@[simp] theorem State.putDec_calls (s : State) (k : Nat) (x : DecSession) : (s.putDec k x).calls = s.calls := rfl
@[simp] theorem State.putDec_response (s : State) (k : Nat) (x : DecSession) : (s.putDec k x).response = s.response := rfl
@[simp] theorem State.putDec_fresh (s : State) (k : Nat) (x : DecSession) : (s.putDec k x).fresh = s.fresh := rfl

@[simp] theorem State.putBuf_xcs (s : State) (k : Nat) (B : BitBuffer) : (s.putBuf k B).xcs = s.xcs := rfl
@[simp] theorem State.putBuf_bes (s : State) (k : Nat) (B : BitBuffer) : (s.putBuf k B).bes = s.bes := rfl
@[simp] theorem State.putBuf_fes (s : State) (k : Nat) (B : BitBuffer) : (s.putBuf k B).fes = s.fes := rfl
@[simp] theorem State.putBuf_fds (s : State) (k : Nat) (B : BitBuffer) : (s.putBuf k B).fds = s.fds := rfl
@[simp] theorem State.putBuf_encs (s : State) (k : Nat) (B : BitBuffer) : (s.putBuf k B).encs = s.encs := rfl
@[simp] theorem State.putBuf_decs (s : State) (k : Nat) (B : BitBuffer) : (s.putBuf k B).decs = s.decs := rfl
@[simp] theorem State.putBuf_bufs (s : State) (k : Nat) (B : BitBuffer) : (s.putBuf k B).bufs = s.bufs.set k B := rfl
@[simp] theorem State.putBuf_calls (s : State) (k : Nat) (B : BitBuffer) : (s.putBuf k B).calls = s.calls := rfl
@[simp] theorem State.putBuf_response (s : State) (k : Nat) (B : BitBuffer) : (s.putBuf k B).response = s.response := rfl
@[simp] theorem State.putBuf_fresh (s : State) (k : Nat) (B : BitBuffer) : (s.putBuf k B).fresh = s.fresh := rfl

@[simp] theorem State.draw_xcs (s : State) (n : Nat) : (s.draw n).xcs = s.xcs := rfl
@[simp] theorem State.draw_bes (s : State) (n : Nat) : (s.draw n).bes = s.bes := rfl
@[simp] theorem State.draw_fes (s : State) (n : Nat) : (s.draw n).fes = s.fes := rfl
@[simp] theorem State.draw_fds (s : State) (n : Nat) : (s.draw n).fds = s.fds := rfl
@[simp] theorem State.draw_encs (s : State) (n : Nat) : (s.draw n).encs = s.encs := rfl
@[simp] theorem State.draw_decs (s : State) (n : Nat) : (s.draw n).decs = s.decs := rfl
@[simp] theorem State.draw_bufs (s : State) (n : Nat) : (s.draw n).bufs = s.bufs := rfl
@[simp] theorem State.draw_calls (s : State) (n : Nat) : (s.draw n).calls = s.calls := rfl
@[simp] theorem State.draw_response (s : State) (n : Nat) : (s.draw n).response = s.response := rfl
@[simp] theorem State.draw_fresh (s : State) (n : Nat) : (s.draw n).fresh = s.fresh + n := rfl

end Sys2Proof.Machine
end

