-- ==== Sys2Proof/Laws/Buffers.lean ====
section
/-! SUPPORT. What each buffer primitive does to the content and to the storage behind it, and that each keeps the
canonical form of a buffer. -/

namespace Sys2Proof.Machine

variable {α : Type}

/-! ### Content, staged units, length -/

@[simp] theorem Fifo.empty_content : (Fifo.empty : Fifo α).content = [] := rfl
@[simp] theorem Fifo.empty_staged : (Fifo.empty : Fifo α).staged = [] := rfl
@[simp] theorem Fifo.emit_content (q : Fifo α) (us : List α) : (q.emit us).content = q.content ++ us := rfl
@[simp] theorem Fifo.emit_staged (q : Fifo α) (us : List α) : (q.emit us).staged = q.staged.drop us.length := rfl
@[simp] theorem Fifo.writeUnit_content (q : Fifo α) (off : Nat) (v : α) : (q.writeUnit off v).content = q.content := rfl
@[simp] theorem Fifo.writeUnit_staged (q : Fifo α) (off : Nat) (v : α) :
    (q.writeUnit off v).staged = stageAt q.staged off v := rfl

@[simp] theorem Fifo.consume_zero (q : Fifo α) : q.consume 0 = q := rfl

theorem Fifo.consume_pos (q : Fifo α) {n : Nat} (h : 0 < n) : q.consume n = { content := q.content.drop n, staged := [] } := by
  unfold Fifo.consume
  rw [if_neg (by omega)]

@[simp] theorem Fifo.consume_content (q : Fifo α) (n : Nat) : (q.consume n).content = q.content.drop n := by
  rcases Nat.eq_zero_or_pos n with rfl | h
  · simp
  · rw [q.consume_pos h]

@[simp] theorem Fifo.consume_filled (q : Fifo α) (n : Nat) : (q.consume n).filled = q.filled - n := by
  simp [Fifo.filled]

@[simp] theorem Fifo.emit_filled (q : Fifo α) (us : List α) : (q.emit us).filled = q.filled + us.length := by
  simp [Fifo.filled]

@[simp] theorem Fifo.produce_filled (free : Nat → α) (q : Fifo α) (n : Nat) : (q.produce free n).filled = q.filled + n := by
  simp [Fifo.filled, Fifo.produce]

@[simp] theorem Fifo.emit_nil (q : Fifo α) : q.emit [] = q := by simp [Fifo.emit]

theorem Fifo.emit_emit (q : Fifo α) (us vs : List α) : (q.emit us).emit vs = q.emit (us ++ vs) := by
  simp [Fifo.emit, List.drop_drop]

/-- `readUnit` finds a unit exactly where `hasAvailable` says one is (40_bitbuffer_ops.md R110, R112). -/
theorem Fifo.read?_isSome (q : Fifo α) (off : Nat) : (q.read? off).isSome = q.hasAvailable off 1 := by
  unfold Fifo.read? Fifo.hasAvailable Fifo.filled
  by_cases h : off < q.content.length
  · rw [List.getElem?_eq_getElem h]
    simp; omega
  · rw [List.getElem?_eq_none (by omega)]
    simp; omega

/-! ### Staged units -/

/-- The staged unit at a write offset; `none` where the storage is unspecified. -/
theorem stageAt_get (l : List (Option α)) (off : Nat) (v : α) (j : Nat) :
    ((stageAt l off v)[j]?).join = if j = off then some v else (l[j]?).join := by
  induction l generalizing off j with
  | nil =>
    induction off generalizing j with
    | zero => cases j <;> simp [stageAt]
    | succ off ih => cases j <;> simp [stageAt, ih]
  | cons h t ih =>
    cases off with
    | zero => cases j <;> simp [stageAt]
    | succ off => cases j <;> simp [stageAt, ih]

theorem stageAt_length (l : List (Option α)) (off : Nat) (v : α) : (stageAt l off v).length = max l.length (off + 1) := by
  induction l generalizing off with
  | nil =>
    induction off with
    | zero => simp [stageAt]
    | succ off ih => simp [stageAt, ih]
  | cons h t ih =>
    cases off with
    | zero => simp [stageAt]
    | succ off => simp [stageAt, ih]

/-! ### Canonical form -/

/-- The staged list does not end in an unspecified unit. -/
def Trimmed (l : List (Option α)) : Prop := l.getLast? ≠ some none

theorem Fifo.wf_iff (q : Fifo α) (cap : Nat) :
    q.wf cap = true ↔ q.content.length + q.staged.length ≤ cap ∧ Trimmed q.staged := by
  unfold Fifo.wf Trimmed
  rcases q.staged.getLast? with _ | _ | u <;> simp

theorem Trimmed.drop {l : List (Option α)} (h : Trimmed l) (n : Nat) : Trimmed (l.drop n) := by
  unfold Trimmed at *
  by_cases hn : n < l.length
  · rwa [List.getLast?_drop, if_neg (by omega)]
  · simp [List.drop_eq_nil_of_le (Nat.le_of_not_lt hn)]

theorem Trimmed.stageAt {l : List (Option α)} (h : Trimmed l) (off : Nat) (v : α) : Trimmed (stageAt l off v) := by
  have hnil : ∀ off : Nat, Trimmed (Machine.stageAt ([] : List (Option α)) off v) := by
    intro off
    induction off with
    | zero => simp [Trimmed, Machine.stageAt]
    | succ off ih =>
      unfold Trimmed at *
      rw [Machine.stageAt, List.getLast?_cons]
      cases hs : Machine.stageAt ([] : List (Option α)) off v with
      | nil => cases off <;> simp [Machine.stageAt] at hs
      | cons a t =>
        rw [hs] at ih
        cases hg : (a :: t).getLast? <;> simp_all
  induction l generalizing off with
  | nil => exact hnil off
  | cons a t ih =>
    cases off with
    | zero =>
      unfold Trimmed at *
      cases t with
      | nil => simp [Machine.stageAt]
      | cons b t => simpa [Machine.stageAt, List.getLast?_cons_cons] using h
    | succ off =>
      have ht : Trimmed t := by
        unfold Trimmed at *
        cases t with
        | nil => simp
        | cons b t => simpa [List.getLast?_cons_cons] using h
      have := ih ht off
      unfold Trimmed at *
      rw [Machine.stageAt, List.getLast?_cons]
      cases hs : Machine.stageAt t off v with
      | nil =>
        have := stageAt_length t off v
        rw [hs] at this
        simp only [List.length_nil] at this
        omega
      | cons b u =>
        rw [hs] at this
        cases hg : (b :: u).getLast? <;> simp_all

theorem Fifo.empty_wf (cap : Nat) : (Fifo.empty : Fifo α).wf cap = true := by simp [Fifo.wf]

theorem Fifo.writeUnit_wf {q : Fifo α} {cap off : Nat} (h : q.wf cap = true) (hs : q.filled + off < cap) (v : α) :
    (q.writeUnit off v).wf cap = true := by
  rw [Fifo.wf_iff] at *
  refine ⟨?_, h.2.stageAt off v⟩
  have := h.1
  simp only [Fifo.filled] at hs
  simp only [Fifo.writeUnit_content, Fifo.writeUnit_staged, stageAt_length]
  omega

theorem Fifo.consume_wf {q : Fifo α} {cap : Nat} (h : q.wf cap = true) (n : Nat) : (q.consume n).wf cap = true := by
  rcases Nat.eq_zero_or_pos n with rfl | hn
  · simpa using h
  · rw [q.consume_pos hn]
    rw [Fifo.wf_iff] at *
    refine ⟨?_, by simp [Trimmed]⟩
    simp only [List.length_drop, List.length_nil]
    omega

theorem Fifo.produce_wf {q : Fifo α} {cap n : Nat} (free : Nat → α) (h : q.wf cap = true) (hs : q.filled + n ≤ cap) :
    (q.produce free n).wf cap = true := by
  rw [Fifo.wf_iff] at *
  refine ⟨?_, h.2.drop n⟩
  simp only [Fifo.filled] at hs
  simp only [Fifo.produce, List.length_append, List.length_map, List.length_range, List.length_drop]
  omega

theorem Fifo.emit_wf {q : Fifo α} {cap : Nat} {us : List α} (h : q.wf cap = true) (hs : q.filled + us.length ≤ cap) :
    (q.emit us).wf cap = true := by
  rw [Fifo.wf_iff] at *
  refine ⟨?_, h.2.drop _⟩
  simp only [Fifo.filled] at hs
  simp only [Fifo.emit_content, Fifo.emit_staged, List.length_append, List.length_drop]
  omega

theorem BitBuffer.make_wf (mode : Mode) (nbytes : Nat) : (BitBuffer.make mode nbytes).wf = true := by
  cases mode <;> simp [BitBuffer.make, BitBuffer.wf, Fifo.empty_wf]

theorem BitBuffer.cleared_wf {B : BitBuffer} (h : B.wf = true) : B.cleared.wf = true := by
  obtain ⟨nb, store⟩ := B
  cases store <;> simp_all [BitBuffer.cleared, BitBuffer.wf, Fifo.empty_wf]

/-- Putting a well-formed buffer back keeps the caller's store well-formed. -/
theorem Memory.wf_set {m : Memory} {B : BitBuffer} (hm : Memory.wf m = true) (hB : B.wf = true) (k : Nat) :
    Memory.wf (m.set k B) = true := by
  unfold Memory.wf at *
  rw [List.all_eq_true] at *
  intro C hC
  rcases List.mem_or_eq_of_mem_set hC with h | rfl
  · exact hm C h
  · exact hB

theorem Memory.wf_get {m : Memory} {B : BitBuffer} {k : Nat} (hm : Memory.wf m = true) (h : m[k]? = some B) : B.wf = true := by
  unfold Memory.wf at hm
  exact (List.all_eq_true.mp hm) B (List.mem_of_getElem? h)

theorem Memory.wf_append {m : Memory} {B : BitBuffer} (hm : Memory.wf m = true) (hB : B.wf = true) :
    Memory.wf (m ++ [B]) = true := by
  simp_all [Memory.wf]

/-- The caller's store is in canonical form at power-on. -/
theorem reset_memory_wf : Memory.wf State.reset.bufs = true := by decide

end Sys2Proof.Machine
end

