-- ==== Sys2Proof/Laws/Stages.lean ====
section
/-! SUPPORT. Everything the shared loops and stages can do: what a looping stage's whole transaction gives, in closed
form, for each of its steps; and the frame decoder's loop as one unfolding equation without its bound. -/

namespace Sys2Proof.Machine

variable {σ α β : Type}

/-! ### Reading at the head -/

theorem Fifo.read?_zero (q : Fifo α) : q.read? 0 = q.content.head? := by
  unfold Fifo.read?
  cases q.content <;> rfl

/-- Consuming twice is consuming once. -/
theorem Fifo.consume_consume (q : Fifo α) (m n : Nat) : (q.consume m).consume n = q.consume (m + n) := by
  rcases Nat.eq_zero_or_pos m with rfl | hm
  · simp
  rcases Nat.eq_zero_or_pos n with rfl | hn
  · simp
  rw [Fifo.consume_pos _ hn, Fifo.consume_pos _ (by omega : 0 < m + n)]
  simp [List.drop_drop]

theorem Fifo.hasSpace_iff (q : Fifo α) (cap off n : Nat) : q.hasSpace cap off n = true ↔ q.filled + off + n ≤ cap := by
  simp [Fifo.hasSpace]

theorem Fifo.hasAvailable_iff (q : Fifo α) (off n : Nat) : q.hasAvailable off n = true ↔ off + n ≤ q.filled := by
  simp [Fifo.hasAvailable]

/-! ### The looping stages -/

/-- The code of a looping stage that did `k` steps: OK, or else the code of what blocked the first (R135, D4). -/
def loopCode (progress : Bool) (k : Nat) (blocked : ResultCode) : ResultCode :=
  if progress = true ∨ 0 < k then .ok else blocked

/-- One round of the loop whose step is done. -/
theorem loopSteps_done {try1 : σ → Fifo α → Fifo β → StepTry σ β} {fuel : Nat} {progress : Bool} {st st' : σ}
    {i : Fifo α} {o : Fifo β} {n : Nat} {us : List β} (h : try1 st i o = .done st' n us) :
    loopSteps try1 (fuel + 1) progress st i o = loopSteps try1 fuel true st' (i.consume n) (o.emit us) := by
  rw [loopSteps, h]

/-- One round of the loop whose step is blocked. -/
theorem loopSteps_blocked {try1 : σ → Fifo α → Fifo β → StepTry σ β} {fuel : Nat} {progress : Bool} {st : σ}
    {i : Fifo α} {o : Fifo β} {rc : ResultCode} (h : try1 st i o = .blocked rc) :
    loopSteps try1 (fuel + 1) progress st i o =
      { code := if progress then .ok else rc, st := st, inp := i, out := o } := by
  rw [loopSteps, h]

/-- What the like-to-like copy of a whole transaction gives (41_bitwidth_converter.md R132, R135). -/
theorem loopSteps_copy (cap : Nat) (st : σ) (fuel : Nat) (progress : Bool) (i o : Fifo α) (hf : i.filled < fuel) :
    loopSteps (copyStep cap) fuel progress st i o =
      { code := loopCode progress (min i.filled (cap - o.filled)) (if i.filled = 0 then .needInputData else .needOutputSpace)
        st := st
        inp := i.consume (min i.filled (cap - o.filled))
        out := o.emit (i.content.take (min i.filled (cap - o.filled))) } := by
  induction fuel generalizing progress i o with
  | zero => omega
  | succ fuel ih =>
    cases hc : i.content with
    | nil =>
      have h0 : i.filled = 0 := by simp [Fifo.filled, hc]
      rw [loopSteps_blocked (rc := .needInputData) (by simp [copyStep, Fifo.read?_zero, hc])]
      simp [h0, loopCode]
    | cons u t =>
      have hfl : i.filled = t.length + 1 := by simp [Fifo.filled, hc]
      by_cases hs : o.filled + 0 + 1 ≤ cap
      · rw [loopSteps_done (by rw [copyStep, Fifo.read?_zero, hc, List.head?_cons]; exact if_pos ((o.hasSpace_iff cap 0 1).mpr hs))]
        rw [ih true _ _ (by simp; omega)]
        have hk : min i.filled (cap - o.filled) = min (i.filled - 1) (cap - (o.filled + 1)) + 1 := by omega
        simp only [Fifo.consume_filled, Fifo.emit_filled, List.length_singleton, Fifo.consume_consume, Fifo.emit_emit,
          Fifo.consume_content, hc, List.drop_one, List.tail_cons]
        rw [hk, Nat.add_comm 1]
        simp [loopCode]
      · rw [loopSteps_blocked (by rw [copyStep, Fifo.read?_zero, hc, List.head?_cons]; exact if_neg (fun h => hs ((o.hasSpace_iff cap 0 1).mp h)))]
        have : cap - o.filled = 0 := by omega
        simp [this, loopCode, hfl]

/-- What the bytes-to-bits conversion of a whole transaction gives (41_bitwidth_converter.md R134, R135). -/
theorem loopSteps_unpack (order : BitOrder) (cap : Nat) (st : σ) (fuel : Nat) (progress : Bool) (i : Fifo Byte)
    (o : Fifo Bit) (hf : i.filled < fuel) :
    loopSteps (unpackStep order cap) fuel progress st i o =
      { code := loopCode progress (min i.filled ((cap - o.filled) / 8))
          (if i.filled = 0 then .needInputData else .needOutputSpace)
        st := st
        inp := i.consume (min i.filled ((cap - o.filled) / 8))
        out := o.emit (Spec.bitsOfBytes order (i.content.take (min i.filled ((cap - o.filled) / 8)))) } := by
  induction fuel generalizing progress i o with
  | zero => omega
  | succ fuel ih =>
    cases hc : i.content with
    | nil =>
      have h0 : i.filled = 0 := by simp [Fifo.filled, hc]
      rw [loopSteps_blocked (rc := .needInputData) (by simp [unpackStep, Fifo.read?_zero, hc])]
      simp [h0, loopCode, Spec.bitsOfBytes]
    | cons u t =>
      have hfl : i.filled = t.length + 1 := by simp [Fifo.filled, hc]
      have hlen : (unpackByte order u).length = 8 := by simp [unpackByte]
      by_cases hs : o.filled + 0 + 8 ≤ cap
      · rw [loopSteps_done (by rw [unpackStep, Fifo.read?_zero, hc, List.head?_cons]; exact if_pos ((o.hasSpace_iff cap 0 8).mpr hs))]
        rw [ih true _ _ (by simp; omega)]
        have hk : min i.filled ((cap - o.filled) / 8) = min (i.filled - 1) ((cap - (o.filled + 8)) / 8) + 1 := by omega
        simp only [Fifo.consume_filled, Fifo.emit_filled, hlen, Fifo.consume_consume, Fifo.emit_emit,
          Fifo.consume_content, hc, List.drop_one, List.tail_cons]
        rw [hk, Nat.add_comm 1]
        simp [loopCode, Spec.bitsOfBytes]
      · rw [loopSteps_blocked (by rw [unpackStep, Fifo.read?_zero, hc, List.head?_cons]; exact if_neg (fun h => hs ((o.hasSpace_iff cap 0 8).mp h)))]
        have : (cap - o.filled) / 8 = 0 := by omega
        simp [this, loopCode, hfl, Spec.bitsOfBytes]

/-- How many bytes the bits-to-bytes conversion makes of `n` bits with room for `room` bytes. -/
def packCount (flush : Bool) (n room : Nat) : Nat := min (if flush then (n + 7) / 8 else n / 8) room

theorem bytesOfBits_succ (order : BitOrder) (k : Nat) (bs : List Bit) :
    Spec.bytesOfBits order (k + 1) bs = packByte order (bs.take 8) :: Spec.bytesOfBits order k (bs.drop 8) := by
  simp [Spec.bytesOfBits, List.range_succ_eq_map, List.drop_drop, Nat.mul_add, Nat.add_comm]

theorem Spec.bytesOfBits_length (order : BitOrder) (k : Nat) (bs : List Bit) : (Spec.bytesOfBits order k bs).length = k := by
  simp [Spec.bytesOfBits]

/-- What the bits-to-bytes conversion of a whole transaction gives (41_bitwidth_converter.md R133, R135). -/
theorem loopSteps_pack (order : BitOrder) (cap : Nat) (x : Xc) (fuel : Nat) (progress : Bool) (i : Fifo Bit) (o : Fifo Byte)
    (hf : i.filled < fuel) :
    loopSteps (packStep order cap) fuel progress x i o =
      { code := loopCode progress (packCount x.flush i.filled (cap - o.filled))
          (if i.filled < (if x.flush then 1 else 8) then .needInputData else .needOutputSpace)
        st := x
        inp := i.consume (min i.filled (8 * packCount x.flush i.filled (cap - o.filled)))
        out := o.emit (Spec.bytesOfBits order (packCount x.flush i.filled (cap - o.filled)) i.content) } := by
  induction fuel generalizing progress i o with
  | zero => omega
  | succ fuel ih =>
    by_cases hn : (if x.flush then 1 else 8) ≤ min 8 i.filled
    · have hn1 : (if x.flush then 1 else 8) ≤ i.filled := le_trans hn (min_le_right _ _)
      have hpos : 1 ≤ min 8 i.filled := by split at hn <;> omega
      by_cases hs : o.filled + 0 + 1 ≤ cap
      · rw [loopSteps_done ((if_pos hn).trans (if_pos ((o.hasSpace_iff cap 0 1).mpr hs)))]
        rw [ih true _ _ (by simp; omega)]
        have hk : packCount x.flush i.filled (cap - o.filled) =
            packCount x.flush (i.filled - min 8 i.filled) (cap - (o.filled + 1)) + 1 := by
          unfold packCount
          split at hn <;> rename_i hfl <;> simp only [hfl, if_true, if_false, Bool.false_eq_true] <;> omega
        have htake : i.content.take (min 8 i.filled) = i.content.take 8 := by
          simp [Fifo.filled, List.take_eq_take_iff]
        have hdrop : Spec.bytesOfBits order (packCount x.flush (i.filled - min 8 i.filled) (cap - (o.filled + 1)))
              (i.content.drop (min 8 i.filled)) =
            Spec.bytesOfBits order (packCount x.flush (i.filled - min 8 i.filled) (cap - (o.filled + 1)))
              (i.content.drop 8) := by
          rcases Nat.le_total 8 i.filled with h8 | h8
          · rw [min_eq_left h8]
          · rw [min_eq_right h8]
            rw [show i.content.drop i.filled = [] from List.drop_eq_nil_of_le (le_refl _),
              show i.content.drop 8 = [] from List.drop_eq_nil_of_le h8]
        simp only [Fifo.consume_filled, Fifo.emit_filled, List.length_singleton, Fifo.consume_consume, Fifo.emit_emit,
          Fifo.consume_content, htake, hdrop]
        rw [hk, bytesOfBits_succ]
        have hmin : min 8 i.filled + min (i.filled - min 8 i.filled)
              (8 * packCount x.flush (i.filled - min 8 i.filled) (cap - (o.filled + 1))) =
            min i.filled (8 * (packCount x.flush (i.filled - min 8 i.filled) (cap - (o.filled + 1)) + 1)) := by omega
        rw [hmin]
        simp [loopCode]
      · rw [loopSteps_blocked ((if_pos hn).trans (if_neg (fun h => hs ((o.hasSpace_iff cap 0 1).mp h))))]
        have h0 : packCount x.flush i.filled (cap - o.filled) = 0 := by unfold packCount; omega
        have hn2 : ¬ i.filled < (if x.flush then 1 else 8) := by omega
        simp [h0, loopCode, hn2, Spec.bytesOfBits]
    · rw [loopSteps_blocked (if_neg hn)]
      have hlt : i.filled < (if x.flush then 1 else 8) := by split at hn <;> split <;> simp_all
      have h0 : packCount x.flush i.filled (cap - o.filled) = 0 := by
        unfold packCount
        split at hlt <;> rename_i hfl <;> simp only [hfl, if_true, if_false, Bool.false_eq_true] <;> omega
      simp [h0, loopCode, hlt, Spec.bytesOfBits]

theorem Spec.lineBits_length (p : Bit) (bs : List Bit) : (Spec.lineBits p bs).length = 2 * bs.length := by
  induction bs generalizing p with
  | nil => rfl
  | cons b bs ih => simp [Spec.lineBits, ih]; omega

/-- What BMC_ENC.PROCESS gives on the units (42_biphase_mark.md R151). -/
theorem loopSteps_bmcEnc (cap : Nat) (be : BiphaseEnc) (fuel : Nat) (progress : Bool) (i o : Fifo Bit) (hf : i.filled < fuel) :
    loopSteps (bmcEncStep cap) fuel progress be i o =
      { code := loopCode progress (min i.filled ((cap - o.filled) / 2))
          (if i.filled = 0 then .needInputData else .needOutputSpace)
        st := { phase := Spec.linePhase be.phase (i.content.take (min i.filled ((cap - o.filled) / 2))) }
        inp := i.consume (min i.filled ((cap - o.filled) / 2))
        out := o.emit (Spec.lineBits be.phase (i.content.take (min i.filled ((cap - o.filled) / 2)))) } := by
  induction fuel generalizing progress be i o with
  | zero => omega
  | succ fuel ih =>
    cases hc : i.content with
    | nil =>
      have h0 : i.filled = 0 := by simp [Fifo.filled, hc]
      rw [loopSteps_blocked (rc := .needInputData) (by simp [bmcEncStep, Fifo.read?_zero, hc])]
      simp [h0, loopCode, Spec.lineBits, Spec.linePhase]
    | cons u t =>
      have hfl : i.filled = t.length + 1 := by simp [Fifo.filled, hc]
      by_cases hs : o.filled + 0 + 2 ≤ cap
      · rw [loopSteps_done (by rw [bmcEncStep, Fifo.read?_zero, hc, List.head?_cons]; exact if_pos ((o.hasSpace_iff cap 0 2).mpr hs))]
        rw [ih _ true _ _ (by simp; omega)]
        have hk : min i.filled ((cap - o.filled) / 2) = min (i.filled - 1) ((cap - (o.filled + 2)) / 2) + 1 := by omega
        simp only [Fifo.consume_filled, Fifo.emit_filled, List.length_cons, List.length_nil, Fifo.consume_consume,
          Fifo.emit_emit, Fifo.consume_content, hc, List.drop_one, List.tail_cons]
        rw [hk, Nat.add_comm 1]
        simp [loopCode, Spec.lineBits, Spec.linePhase, phaseToggle, phaseData]
        rw [Nat.add_comm]
      · rw [loopSteps_blocked (by rw [bmcEncStep, Fifo.read?_zero, hc, List.head?_cons]; exact if_neg (fun h => hs ((o.hasSpace_iff cap 0 2).mp h)))]
        have : (cap - o.filled) / 2 = 0 := by omega
        simp [this, loopCode, hfl, Spec.lineBits, Spec.linePhase]

/-- What BMC_DEC.PROCESS gives on the units (42_biphase_mark.md R155). -/
theorem loopSteps_bmcDec (cap : Nat) (fuel : Nat) (progress : Bool) (i o : Fifo Bit) (hf : i.filled < fuel) :
    loopSteps (bmcDecStep cap) fuel progress () i o =
      { code := loopCode progress (min (i.filled / 2) (cap - o.filled))
          (if i.filled < 2 then .needInputData else .needOutputSpace)
        st := ()
        inp := i.consume (2 * min (i.filled / 2) (cap - o.filled))
        out := o.emit (Spec.dataBits (i.content.take (2 * min (i.filled / 2) (cap - o.filled)))) } := by
  induction fuel generalizing progress i o with
  | zero => omega
  | succ fuel ih =>
    rcases hc : i.content with _ | ⟨h0, _ | ⟨h1, t⟩⟩
    · have h0 : i.filled = 0 := by simp [Fifo.filled, hc]
      rw [loopSteps_blocked (rc := .needInputData) (by simp [bmcDecStep, Fifo.read?, hc])]
      simp [h0, loopCode, Spec.dataBits]
    · have h0 : i.filled = 1 := by simp [Fifo.filled, hc]
      rw [loopSteps_blocked (rc := .needInputData) (by simp [bmcDecStep, Fifo.read?, hc])]
      simp [h0, loopCode, Spec.dataBits]
    · have hfl : i.filled = t.length + 2 := by simp [Fifo.filled, hc]
      have hstep : bmcDecStep cap () i o =
          if o.hasSpace cap 0 1 then .done () 2 [xor h0 h1] else .blocked .needOutputSpace := by
        simp [bmcDecStep, Fifo.read?, hc]
      by_cases hs : o.filled + 0 + 1 ≤ cap
      · rw [loopSteps_done (hstep.trans (if_pos ((o.hasSpace_iff cap 0 1).mpr hs)))]
        rw [ih true _ _ (by simp; omega)]
        have hk : min (i.filled / 2) (cap - o.filled) = min ((i.filled - 2) / 2) (cap - (o.filled + 1)) + 1 := by omega
        simp only [Fifo.consume_filled, Fifo.emit_filled, List.length_singleton, Fifo.consume_consume, Fifo.emit_emit,
          Fifo.consume_content, hc, List.drop_succ_cons, List.drop_zero]
        rw [hk, Nat.mul_add, Nat.add_comm 2]
        simp [loopCode, Spec.dataBits]
      · rw [loopSteps_blocked (hstep.trans (if_neg (fun h => hs ((o.hasSpace_iff cap 0 1).mp h))))]
        have : cap - o.filled = 0 := by omega
        simp [this, loopCode, hfl, Spec.dataBits]

/-! ### The frame decoder's loop -/

theorem confirmedRun_bounds {bs : List Bit} {v : Bit} {r : Nat} (h : confirmedRun bs = some (v, r)) :
    0 < r ∧ r < bs.length := by
  unfold confirmedRun at h
  split at h
  · cases h
  · simp only at h
    split at h
    · cases h
      omega
    · cases h

/-- A step that goes on consumes at least one bit, and no more than there are (44_frame_decoder.md R191). -/
theorem fdStep_goOn_bounds {cap n : Nat} {st st' : FdState} {i o : Fifo Bit} (h : fdStep cap st i o = .goOn st' n) :
    0 < n ∧ n ≤ i.filled := by
  have run : ∀ {v r}, confirmedRun i.content = some (v, r) → 0 < r ∧ r ≤ i.filled := fun hr =>
    ⟨(confirmedRun_bounds hr).1, (confirmedRun_bounds hr).2.le⟩
  cases st
  · simp only [fdStep, stepInit] at h
    split at h
    · cases h
    · rename_i hr
      cases h
      exact run hr
  · simp only [fdStep, stepLeadOnes] at h
    split at h
    · cases h
    · rename_i hr
      cases h
      exact run hr
  · simp only [fdStep, stepExtraZero] at h
    split at h
    · rename_i ha
      cases h
      rw [Fifo.hasAvailable_iff] at ha
      omega
    · cases h
  · simp only [fdStep, stepData] at h
    split at h <;> cases h
  · simp only [fdStep, stepTrailing] at h
    split at h
    · rename_i ha
      cases h
      rw [Fifo.hasAvailable_iff] at ha
      simp only [Config.sepLen] at *
      omega
    · cases h

theorem fdStep_goOn_lt {cap n : Nat} {st st' : FdState} {i o : Fifo Bit} (h : fdStep cap st i o = .goOn st' n) :
    (i.consume n).filled < i.filled := by
  have := fdStep_goOn_bounds h
  rw [Fifo.consume_filled]
  omega

/-- Any bound above the number of bits gives the same result. -/
theorem fdLoop_bound (cap : Nat) (m n : Nat) (st : FdState) (i o : Fifo Bit) (hm : i.filled < m) (hn : i.filled < n) :
    fdLoop cap m st i o = fdLoop cap n st i o := by
  induction m generalizing n st i with
  | zero => omega
  | succ m ih =>
    cases n with
    | zero => omega
    | succ n =>
      unfold fdLoop
      cases hs : fdStep cap st i o with
      | goOn st' k =>
        have := fdStep_goOn_lt hs
        exact ih n st' _ (by omega) (by omega)
      | ret a => rfl

theorem fdLoopOne_bound (cap : Nat) (m n : Nat) (st : FdState) (q : Fifo Bit) (hm : q.filled < m) (hn : q.filled < n) :
    fdLoopOne cap m st q = fdLoopOne cap n st q := by
  induction m generalizing n st q with
  | zero => omega
  | succ m ih =>
    cases n with
    | zero => omega
    | succ n =>
      unfold fdLoopOne
      cases hs : fdStep cap st q q with
      | goOn st' k =>
        have := fdStep_goOn_lt hs
        exact ih n st' _ (by omega) (by omega)
      | ret a => rfl

/-- A whole FRAME_DEC.PROCESS on the units of two buffers, from a state. -/
def fdRun (cap : Nat) (st : FdState) (i o : Fifo Bit) : FifoResult FdState Bit Bit := fdLoop cap (i.filled + 1) st i o

/-- A whole FRAME_DEC.PROCESS on the units of one buffer, from a state. -/
def fdRunOne (cap : Nat) (st : FdState) (q : Fifo Bit) : OneFifoResult FdState Bit := fdLoopOne cap (q.filled + 1) st q

/-- The loop of 44_frame_decoder.md R191 without its bound. -/
theorem fdRun_eq (cap : Nat) (st : FdState) (i o : Fifo Bit) :
    fdRun cap st i o =
      match fdStep cap st i o with
      | .goOn st' n => fdRun cap st' (i.consume n) o
      | .ret a => a.two i o := by
  unfold fdRun
  rw [fdLoop]
  cases hs : fdStep cap st i o with
  | goOn st' n =>
    have := fdStep_goOn_lt hs
    exact fdLoop_bound cap _ _ st' _ o (by omega) (by omega)
  | ret a => rfl

/-- The same on one buffer. -/
theorem fdRunOne_eq (cap : Nat) (st : FdState) (q : Fifo Bit) :
    fdRunOne cap st q =
      match fdStep cap st q q with
      | .goOn st' n => fdRunOne cap st' (q.consume n)
      | .ret a => a.one q := by
  unfold fdRunOne
  rw [fdLoopOne]
  cases hs : fdStep cap st q q with
  | goOn st' n =>
    have := fdStep_goOn_lt hs
    exact fdLoopOne_bound cap _ _ st' _ (by omega) (by omega)
  | ret a => rfl

/-- To show something of every FRAME_DEC.PROCESS on two buffers, show it of the steps that return and carry it back over
the steps that go on. -/
theorem fdRun_induct {cap : Nat} {o : Fifo Bit} (P : FdState → Fifo Bit → FifoResult FdState Bit Bit → Prop)
    (ret : ∀ st i a, fdStep cap st i o = .ret a → P st i (a.two i o))
    (goOn : ∀ st i st' n r, fdStep cap st i o = .goOn st' n → P st' (i.consume n) r → P st i r) (st : FdState)
    (i : Fifo Bit) : P st i (fdRun cap st i o) := by
  induction hn : i.filled using Nat.strong_induction_on generalizing st i with
  | _ n ih =>
    rw [fdRun_eq]
    cases hs : fdStep cap st i o with
    | goOn st' k => exact goOn _ _ _ _ _ hs (ih _ (hn ▸ fdStep_goOn_lt hs) st' _ rfl)
    | ret a => exact ret _ _ _ hs

/-- The same on one buffer. -/
theorem fdRunOne_induct {cap : Nat} (P : FdState → Fifo Bit → OneFifoResult FdState Bit → Prop)
    (ret : ∀ st q a, fdStep cap st q q = .ret a → P st q (a.one q))
    (goOn : ∀ st q st' n r, fdStep cap st q q = .goOn st' n → P st' (q.consume n) r → P st q r) (st : FdState)
    (q : Fifo Bit) : P st q (fdRunOne cap st q) := by
  induction hn : q.filled using Nat.strong_induction_on generalizing st q with
  | _ n ih =>
    rw [fdRunOne_eq]
    cases hs : fdStep cap st q q with
    | goOn st' k => exact goOn _ _ _ _ _ hs (ih _ (hn ▸ fdStep_goOn_lt hs) st' _ rfl)
    | ret a => exact ret _ _ _ hs

/-! ### Looping stages on one buffer -/

theorem loopOne_done {try1 : σ → Fifo α → Fifo α → StepTry σ α} {fuel : Nat} {progress : Bool} {st st' : σ}
    {q : Fifo α} {n : Nat} {us : List α} (h : try1 st q q = .done st' n us) :
    loopOne try1 (fuel + 1) progress st q = loopOne try1 fuel true st' ((q.emit us).consume n) := by
  rw [loopOne, h]

theorem loopOne_blocked {try1 : σ → Fifo α → Fifo α → StepTry σ α} {fuel : Nat} {progress : Bool} {st : σ}
    {q : Fifo α} {rc : ResultCode} (h : try1 st q q = .blocked rc) :
    loopOne try1 (fuel + 1) progress st q = some { code := if progress then .ok else rc, st := st, buf := q } := by
  rw [loopOne, h]

/-- A loop that has ended gives the same with any larger bound. -/
theorem loopOne_mono {try1 : σ → Fifo α → Fifo α → StepTry σ α} {m n : Nat} {progress : Bool} {st : σ} {q : Fifo α}
    {r : OneFifoResult σ α} (h : loopOne try1 m progress st q = some r) (hmn : m ≤ n) :
    loopOne try1 n progress st q = some r := by
  induction m generalizing n progress st q with
  | zero => cases h
  | succ m ih =>
    obtain ⟨n, rfl⟩ : ∃ k, n = k + 1 := ⟨n - 1, by omega⟩
    cases hs : try1 st q q with
    | done st' k us =>
      rw [loopOne_done hs] at h ⊢
      exact ih h (by omega)
    | blocked rc => rwa [loopOne_blocked hs] at h ⊢

/-- The copy from a buffer to itself, neither empty nor full, is still going on after any number of steps: each puts back
the unit it takes. -/
theorem loopOne_copy_none (cap : Nat) (fuel : Nat) (progress : Bool) (st : σ) (q : Fifo α) (h0 : 0 < q.filled)
    (hc : q.filled < cap) : loopOne (copyStep cap) fuel progress st q = none := by
  induction fuel generalizing progress q with
  | zero => rfl
  | succ fuel ih =>
    rcases hq : q.content with _ | ⟨u, t⟩
    · simp [Fifo.filled, hq] at h0
    · rw [loopOne_done (by rw [copyStep, Fifo.read?_zero, hq, List.head?_cons]
                           exact if_pos ((q.hasSpace_iff cap 0 1).mpr (by omega)))]
      exact ih _ _ (by simp; omega) (by simp; omega)

/-- BMC_ENC.PROCESS on one buffer ends: each step leaves one bit more. -/
theorem loopOne_bmcEnc_isSome (cap : Nat) (fuel : Nat) (progress : Bool) (be : BiphaseEnc) (q : Fifo Bit)
    (hf : cap - q.filled < fuel) : (loopOne (bmcEncStep cap) fuel progress be q).isSome = true := by
  induction fuel generalizing progress be q with
  | zero => omega
  | succ fuel ih =>
    cases hs : bmcEncStep cap be q q with
    | blocked rc => simp [loopOne_blocked hs]
    | done st' n us =>
      rw [loopOne_done hs]
      unfold bmcEncStep at hs
      split at hs
      · cases hs
      · split at hs
        · rename_i hsp
          rw [Fifo.hasSpace_iff] at hsp
          cases hs
          exact ih _ _ _ (by simp; omega)
        · cases hs

/-- BMC_DEC.PROCESS on one buffer ends: each step leaves one bit less. -/
theorem loopOne_bmcDec_isSome (cap : Nat) (fuel : Nat) (progress : Bool) (q : Fifo Bit) (hf : q.filled < fuel) :
    (loopOne (bmcDecStep cap) fuel progress () q).isSome = true := by
  induction fuel generalizing progress q with
  | zero => omega
  | succ fuel ih =>
    cases hs : bmcDecStep cap () q q with
    | blocked rc => simp [loopOne_blocked hs]
    | done st' n us =>
      rw [loopOne_done hs]
      unfold bmcDecStep at hs
      split at hs
      · rename_i h1
        have : 1 < q.content.length := (List.getElem?_eq_some_iff.mp h1).1
        split at hs
        · cases hs
          exact ih _ _ (by simp [Fifo.filled] at *; omega)
        · cases hs
      · cases hs

theorem runOne_bmcEnc_isSome (cap : Nat) (be : BiphaseEnc) (q : Fifo Bit) :
    (runOne (bmcEncStep cap) cap be q).isSome = true := loopOne_bmcEnc_isSome _ _ _ _ _ (by omega)

theorem runOne_bmcDec_isSome (cap : Nat) (q : Fifo Bit) : (runOne (bmcDecStep cap) cap () q).isSome = true :=
  loopOne_bmcDec_isSome _ _ _ _ (by omega)

/-! ### PROCESS transactions -/

variable {s t : State} {inp out : Nat} {two : BitBuffer → BitBuffer → StageResult σ}
  {one : BitBuffer → Option (OneResult σ)} {save : State → σ → State}

/-- Everything a PROCESS transaction can do when it answers a next state: both references name buffers, the stage ran on
the two, or on the one that both name, and what it gave back was put back. -/
theorem State.process_next (h : s.process inp out two one save = .next t) :
    ∃ i o, s.bufs[inp]? = some i ∧ s.bufs[out]? = some o ∧
      ((inp ≠ out ∧ t = (((save s (two i o).st).putBuf inp (two i o).inp).putBuf out (two i o).out).respond
        (.code (two i o).code)) ∨
      (inp = out ∧ ∃ r, one i = some r ∧ t = ((save s r.st).putBuf inp r.buf).respond (.code r.code))) := by
  unfold State.process at h
  cases hi : s.bufs[inp]? with
  | none => simp [hi] at h
  | some i =>
    cases ho : s.bufs[out]? with
    | none => simp [hi, ho] at h
    | some o =>
      simp only [hi, ho] at h
      by_cases he : inp = out
      · rw [if_pos he] at h
        cases hr : one i with
        | none => simp [hr] at h
        | some r =>
          simp only [hr, Host.Outcome.next.injEq] at h
          exact ⟨i, o, rfl, rfl, .inr ⟨he, r, hr, h.symm⟩⟩
      · rw [if_neg he] at h
        cases h
        exact ⟨i, o, rfl, rfl, .inl ⟨he, rfl⟩⟩

/-- A PROCESS transaction on two different buffers answers a next state. -/
theorem State.process_of_ne {i o : BitBuffer} (hi : s.bufs[inp]? = some i) (ho : s.bufs[out]? = some o) (hne : inp ≠ out) :
    s.process inp out two one save =
      .next ((((save s (two i o).st).putBuf inp (two i o).inp).putBuf out (two i o).out).respond
        (.code (two i o).code)) := by
  unfold State.process
  simp [hi, ho, hne]

/-- A PROCESS transaction on one buffer answers a next state where the stage on one buffer ends. -/
theorem State.process_of_eq {b : BitBuffer} {r : OneResult σ} (hb : s.bufs[inp]? = some b) (hr : one b = some r) :
    s.process inp inp two one save = .next (((save s r.st).putBuf inp r.buf).respond (.code r.code)) := by
  unfold State.process
  simp [hb, hr]

/-- A PROCESS transaction faults only on one buffer, where the stage on it never ends. -/
theorem State.process_fault {f : Fault} (h : s.process inp out two one save = .fault f) :
    f = .neverEnds ∧ inp = out ∧ ∃ b, s.bufs[inp]? = some b ∧ one b = none := by
  unfold State.process at h
  cases hi : s.bufs[inp]? with
  | none => simp [hi] at h
  | some i =>
    cases ho : s.bufs[out]? with
    | none => simp [hi, ho] at h
    | some o =>
      simp only [hi, ho] at h
      by_cases he : inp = out
      · rw [if_pos he] at h
        cases hr : one i with
        | none =>
          simp only [hr, Host.Outcome.fault.injEq] at h
          exact ⟨h.symm, he, i, rfl, hr⟩
        | some r => simp [hr] at h
      · rw [if_neg he] at h
        cases h

/-- An operation on a unit answers a next state only where the reference names one. -/
theorem withUnit_next {units : List σ} {ref : Nat} {k : σ → Host.Outcome State Fault Refusal} {t : State}
    (h : withUnit units ref k = .next t) : ∃ u, units[ref]? = some u ∧ k u = .next t := by
  unfold withUnit at h
  cases hu : units[ref]? with
  | none => simp [hu] at h
  | some u => exact ⟨u, rfl, by simpa [hu] using h⟩

theorem withUnit_of_get {units : List σ} {ref : Nat} {k : σ → Host.Outcome State Fault Refusal} {u : σ}
    (h : units[ref]? = some u) : withUnit units ref k = k u := by simp [withUnit, h]

theorem withBuffer_of_get {s : State} {ref : Nat} {k : BitBuffer → Host.Outcome State Fault Refusal} {B : BitBuffer}
    (h : s.bufs[ref]? = some B) : withBuffer s ref k = k B := by simp [withBuffer, h]

/-- A primitive answers a next state only where the reference names a buffer. -/
theorem withBuffer_next {s t : State} {ref : Nat} {k : BitBuffer → Host.Outcome State Fault Refusal}
    (h : withBuffer s ref k = .next t) : ∃ B, s.bufs[ref]? = some B ∧ k B = .next t := by
  unfold withBuffer at h
  cases hu : s.bufs[ref]? with
  | none => simp [hu] at h
  | some B => exact ⟨B, rfl, by simpa [hu] using h⟩

end Sys2Proof.Machine
end

