-- ==== Sys2Proof/Laws/Codec.lean ====
section
/-! SUPPORT. Packing of bits into bytes and back, lengths of the reference functions, and what each stage gives on buffers
of acceptable modes, in closed form. -/

namespace Sys2Proof.Machine

/-! ### Bits and bytes -/

theorem shift_lt (order : BitOrder) (k : Nat) : shift order k < 8 := by
  cases order <;> simp only [shift] <;> omega

/-- `shift` is its own inverse within a byte (20_memory.md R51). -/
theorem shift_shift (order : BitOrder) (k : Nat) : shift order (shift order k) = k % 8 := by
  cases order <;> simp only [shift] <;> omega

@[simp] theorem unpackByte_length (order : BitOrder) (v : Byte) : (unpackByte order v).length = 8 := by simp [unpackByte]

/-- R133 inverts R134 on one byte. -/
theorem packByte_unpackByte (order : BitOrder) (v : Byte) : packByte order (unpackByte order v) = v := by
  cases order <;> revert v <;> decide

@[simp] theorem bitsOfBytes_nil (order : BitOrder) : Spec.bitsOfBytes order [] = [] := rfl

theorem bitsOfBytes_cons (order : BitOrder) (v : Byte) (vs : List Byte) :
    Spec.bitsOfBytes order (v :: vs) = unpackByte order v ++ Spec.bitsOfBytes order vs := by simp [Spec.bitsOfBytes]

@[simp] theorem bitsOfBytes_length (order : BitOrder) (vs : List Byte) :
    (Spec.bitsOfBytes order vs).length = 8 * vs.length := by
  induction vs with
  | nil => rfl
  | cons v vs ih => simp [bitsOfBytes_cons, ih]; omega

/-- Packing the bits of whole bytes gives the bytes, whatever follows them. -/
theorem bytesOfBits_bitsOfBytes (order : BitOrder) (vs : List Byte) (rest : List Bit) :
    Spec.bytesOfBits order vs.length (Spec.bitsOfBytes order vs ++ rest) = vs := by
  induction vs generalizing rest with
  | nil => rfl
  | cons v vs ih =>
    have h8 : (unpackByte order v).length = 8 := unpackByte_length order v
    rw [List.length_cons, bytesOfBits_succ, bitsOfBytes_cons, List.append_assoc, List.take_append_of_le_length h8.ge,
      List.take_of_length_le h8.le, packByte_unpackByte, List.drop_append_of_le_length h8.ge,
      List.drop_eq_nil_of_le h8.le, List.nil_append, ih]

/-! ### The transcoder on its two buffers -/

theorem xcProcess_bits_bits (x : Xc) (ni no : Nat) (oi oo : BitOrder) (q p : Fifo Bit) :
    xcProcess x ⟨ni, .bits oi q⟩ ⟨no, .bits oo p⟩ =
      { code := loopCode false (min q.filled (8 * no - p.filled)) (if q.filled = 0 then .needInputData else .needOutputSpace)
        st := x
        inp := ⟨ni, .bits oi (q.consume (min q.filled (8 * no - p.filled)))⟩
        out := ⟨no, .bits oo (p.emit (q.content.take (min q.filled (8 * no - p.filled))))⟩ } := by
  simp only [xcProcess, runLoop, BitBuffer.capacity, loopSteps_copy _ _ _ _ _ _ (Nat.lt_succ_self _)]

theorem xcProcess_bytes_bytes (x : Xc) (ni no : Nat) (q p : Fifo Byte) :
    xcProcess x ⟨ni, .bytes q⟩ ⟨no, .bytes p⟩ =
      { code := loopCode false (min q.filled (no - p.filled)) (if q.filled = 0 then .needInputData else .needOutputSpace)
        st := x
        inp := ⟨ni, .bytes (q.consume (min q.filled (no - p.filled)))⟩
        out := ⟨no, .bytes (p.emit (q.content.take (min q.filled (no - p.filled))))⟩ } := by
  simp only [xcProcess, runLoop, BitBuffer.capacity, loopSteps_copy _ _ _ _ _ _ (Nat.lt_succ_self _)]

theorem xcProcess_bytes_bits (x : Xc) (ni no : Nat) (order : BitOrder) (q : Fifo Byte) (p : Fifo Bit) :
    xcProcess x ⟨ni, .bytes q⟩ ⟨no, .bits order p⟩ =
      { code := loopCode false (min q.filled ((8 * no - p.filled) / 8))
          (if q.filled = 0 then .needInputData else .needOutputSpace)
        st := x
        inp := ⟨ni, .bytes (q.consume (min q.filled ((8 * no - p.filled) / 8)))⟩
        out := ⟨no, .bits order (p.emit (Spec.bitsOfBytes order (q.content.take (min q.filled ((8 * no - p.filled) / 8)))))⟩ } := by
  simp only [xcProcess, runLoop, BitBuffer.capacity, loopSteps_unpack _ _ _ _ _ _ _ (Nat.lt_succ_self _)]

theorem xcProcess_bits_bytes (x : Xc) (ni no : Nat) (order : BitOrder) (q : Fifo Bit) (p : Fifo Byte) :
    xcProcess x ⟨ni, .bits order q⟩ ⟨no, .bytes p⟩ =
      { code := loopCode false (packCount x.flush q.filled (no - p.filled))
          (if q.filled < (if x.flush then 1 else 8) then .needInputData else .needOutputSpace)
        st := x
        inp := ⟨ni, .bits order (q.consume (min q.filled (8 * packCount x.flush q.filled (no - p.filled))))⟩
        out := ⟨no, .bytes (p.emit (Spec.bytesOfBits order (packCount x.flush q.filled (no - p.filled)) q.content))⟩ } := by
  simp only [xcProcess, runLoop, BitBuffer.capacity, loopSteps_pack _ _ _ _ _ _ _ (Nat.lt_succ_self _)]

/-! ### The biphase stages on their two buffers -/

theorem bmcEncProcess_bits (be : BiphaseEnc) (ni no : Nat) (oi oo : BitOrder) (q p : Fifo Bit) :
    bmcEncProcess be ⟨ni, .bits oi q⟩ ⟨no, .bits oo p⟩ =
      { code := loopCode false (min q.filled ((8 * no - p.filled) / 2))
          (if q.filled = 0 then .needInputData else .needOutputSpace)
        st := { phase := Spec.linePhase be.phase (q.content.take (min q.filled ((8 * no - p.filled) / 2))) }
        inp := ⟨ni, .bits oi (q.consume (min q.filled ((8 * no - p.filled) / 2)))⟩
        out := ⟨no, .bits oo (p.emit (Spec.lineBits be.phase (q.content.take (min q.filled ((8 * no - p.filled) / 2)))))⟩ } := by
  simp only [bmcEncProcess, onBits, runLoop, BitBuffer.capacity, loopSteps_bmcEnc _ _ _ _ _ _ (Nat.lt_succ_self _)]

theorem bmcDecProcess_bits (ni no : Nat) (oi oo : BitOrder) (q p : Fifo Bit) :
    bmcDecProcess ⟨ni, .bits oi q⟩ ⟨no, .bits oo p⟩ =
      { code := loopCode false (min (q.filled / 2) (8 * no - p.filled))
          (if q.filled < 2 then .needInputData else .needOutputSpace)
        st := ()
        inp := ⟨ni, .bits oi (q.consume (2 * min (q.filled / 2) (8 * no - p.filled)))⟩
        out := ⟨no, .bits oo (p.emit (Spec.dataBits (q.content.take (2 * min (q.filled / 2) (8 * no - p.filled)))))⟩ } := by
  simp only [bmcDecProcess, onBits, runLoop, BitBuffer.capacity, loopSteps_bmcDec _ _ _ _ _ (Nat.lt_succ_self _)]

/-! ### The frame stages on their two buffers -/

theorem frameEncProcess_bits (fe : FrameEnc) (ni no : Nat) (oi oo : BitOrder) (q p : Fifo Bit) :
    frameEncProcess fe ⟨ni, .bits oi q⟩ ⟨no, .bits oo p⟩ =
      if q.filled = 0 then
        { code := .needInputData, st := fe, inp := ⟨ni, .bits oi q⟩, out := ⟨no, .bits oo p⟩ }
      else if p.filled + (fe.frame q.content).length ≤ 8 * no then
        { code := .ok, st := fe.emitted, inp := ⟨ni, .bits oi (q.consume q.filled)⟩,
          out := ⟨no, .bits oo (p.emit (fe.frame q.content))⟩ }
      else { code := .needOutputSpace, st := fe, inp := ⟨ni, .bits oi q⟩, out := ⟨no, .bits oo p⟩ } := by
  by_cases h : q.filled = 0
  · simp [frameEncProcess, onBits, frameEncAct, Act.two, Act.none, h]
  · by_cases hs : p.filled + (fe.frame q.content).length ≤ 8 * no
    · simp [frameEncProcess, onBits, frameEncAct, Act.two, BitBuffer.capacity, h, hs, Fifo.hasSpace]
    · simp [frameEncProcess, onBits, frameEncAct, Act.two, Act.none, BitBuffer.capacity, h, hs, Fifo.hasSpace]

theorem frameDecProcess_bits (fd : FrameDec) (ni no : Nat) (oi oo : BitOrder) (q p : Fifo Bit) :
    frameDecProcess fd ⟨ni, .bits oi q⟩ ⟨no, .bits oo p⟩ =
      { code := (fdRun (8 * no) fd.st q p).code, st := { st := (fdRun (8 * no) fd.st q p).st },
        inp := ⟨ni, .bits oi (fdRun (8 * no) fd.st q p).inp⟩, out := ⟨no, .bits oo (fdRun (8 * no) fd.st q p).out⟩ } := rfl

/-! ### Stages on one buffer -/

theorem frameEncOne_bits (fe : FrameEnc) (nb : Nat) (order : BitOrder) (q : Fifo Bit) :
    frameEncOne fe ⟨nb, .bits order q⟩ =
      if q.filled = 0 then some { code := .needInputData, st := fe, buf := ⟨nb, .bits order q⟩ }
      else if q.filled + (fe.frame q.content).length ≤ 8 * nb then
        some { code := .ok, st := fe.emitted, buf := ⟨nb, .bits order ((q.emit (fe.frame q.content)).consume q.filled)⟩ }
      else some { code := .needOutputSpace, st := fe, buf := ⟨nb, .bits order q⟩ } := by
  by_cases h : q.filled = 0
  · simp [frameEncOne, onOneBits, frameEncAct, Act.one, Act.none, h]
  · by_cases hs : q.filled + (fe.frame q.content).length ≤ 8 * nb
    · simp [frameEncOne, onOneBits, frameEncAct, Act.one, BitBuffer.capacity, h, hs, Fifo.hasSpace]
    · simp [frameEncOne, onOneBits, frameEncAct, Act.one, Act.none, BitBuffer.capacity, h, hs, Fifo.hasSpace]

theorem frameDecOne_bits (fd : FrameDec) (nb : Nat) (order : BitOrder) (q : Fifo Bit) :
    frameDecOne fd ⟨nb, .bits order q⟩ =
      some { code := (fdRunOne (8 * nb) fd.st q).code, st := { st := (fdRunOne (8 * nb) fd.st q).st },
             buf := ⟨nb, .bits order (fdRunOne (8 * nb) fd.st q).buf⟩ } := rfl

theorem runOne_copy {σ α : Type} (cap : Nat) (st : σ) (q : Fifo α) :
    runOne (copyStep cap) cap st q =
      if q.filled = 0 then some { code := .needInputData, st := st, buf := q }
      else if cap ≤ q.filled then some { code := .needOutputSpace, st := st, buf := q }
      else none := by
  unfold runOne
  rcases hq : q.content with _ | ⟨u, t⟩
  · rw [loopOne_blocked (rc := .needInputData) (by simp [copyStep, Fifo.read?_zero, hq])]
    simp [Fifo.filled, hq]
  · have h0 : q.filled = t.length + 1 := by simp [Fifo.filled, hq]
    by_cases hc : cap ≤ q.filled
    · rw [loopOne_blocked (rc := .needOutputSpace) (by
        rw [copyStep, Fifo.read?_zero, hq, List.head?_cons]
        exact if_neg (fun h => by have := (q.hasSpace_iff cap 0 1).mp h; omega))]
      rw [if_neg (show ¬ q.filled = 0 by omega), if_pos hc]
      rfl
    · rw [loopOne_copy_none cap _ _ st q (by omega) (by omega), if_neg (show ¬ q.filled = 0 by omega), if_neg hc]

/-- The transcoder on one bit buffer: with nothing to take or no room it says so, else its loop never ends. -/
theorem xcOne_bits (x : Xc) (nb : Nat) (order : BitOrder) (q : Fifo Bit) :
    xcOne x ⟨nb, .bits order q⟩ =
      if q.filled = 0 then some { code := .needInputData, st := x, buf := ⟨nb, .bits order q⟩ }
      else if 8 * nb ≤ q.filled then some { code := .needOutputSpace, st := x, buf := ⟨nb, .bits order q⟩ }
      else none := by
  simp only [xcOne, BitBuffer.capacity, runOne_copy]
  split_ifs <;> rfl

/-- The same on one byte buffer. -/
theorem xcOne_bytes (x : Xc) (nb : Nat) (q : Fifo Byte) :
    xcOne x ⟨nb, .bytes q⟩ =
      if q.filled = 0 then some { code := .needInputData, st := x, buf := ⟨nb, .bytes q⟩ }
      else if nb ≤ q.filled then some { code := .needOutputSpace, st := x, buf := ⟨nb, .bytes q⟩ }
      else none := by
  simp only [xcOne, BitBuffer.capacity, runOne_copy]
  split_ifs <;> rfl

/-! ### Stages in a row -/

/-- A pipeline that stops before stage 4 leaves the output as it was. -/
theorem pipeTwo_stop {σ : Type} (front : BitBuffer → OneResult σ) (back : σ → BitBuffer → OneResult σ) (i o : BitBuffer)
    (h : (front i).code ≠ .ok) :
    pipeTwo front back i o = { code := (front i).code, st := (front i).st, inp := (front i).buf, out := o } := by
  simp [pipeTwo, h]

/-- A pipeline whose first three stages answer OK ends as its stage 4 does. -/
theorem pipeTwo_ok {σ : Type} (front : BitBuffer → OneResult σ) (back : σ → BitBuffer → OneResult σ) (i o : BitBuffer)
    (h : (front i).code = .ok) :
    pipeTwo front back i o = { code := (back (front i).st o).code, st := (back (front i).st o).st, inp := (front i).buf,
                               out := (back (front i).st o).buf } := by
  simp [pipeTwo, h]

@[simp] theorem runWhileOk_nil (s : State) : runWhileOk [] s = .next s := rfl

/-- An operation that answers OK is followed by the rest. -/
theorem runWhileOk_cons_ok {i : Instr} {rest : List Instr} {s t : State} (h : exec i s = .next t)
    (hc : t.response = some (.code .ok)) : runWhileOk (i :: rest) s = runWhileOk rest t := by
  simp [runWhileOk, h, hc]

/-- An operation that answers anything else ends the row. -/
theorem runWhileOk_cons_stop {i : Instr} {rest : List Instr} {s t : State} (h : exec i s = .next t)
    (hc : t.response ≠ some (.code .ok)) : runWhileOk (i :: rest) s = .next t := by
  simp [runWhileOk, h, hc]

end Sys2Proof.Machine
end

