-- ==== Sys2Proof/Laws/PerInstr.lean ====
section
/-! SUPPORT. The family RoundTrip: the encoding of every well-formed operation decodes to that operation. -/

namespace Sys2Proof.Laws.RoundTrip

/-- An operation that is well-formed is what its encoding decodes to (30_encoding.md R87, R88, R90). -/
def Statement (i : Instr) : Prop := i.WellFormed = true → decode (encode i) = .ok i

/-- Register numbers are read back (10_state.md R32). -/
theorem reg_ofNumber?_number (r : Reg) : Reg.ofNumber? r.number = some r := by cases r <;> rfl

/-- A CONFIG's register and value operands are read back. -/
theorem decodeConfig_number (ref : Nat) (r : Reg) (v : Byte) (k : Reg → Byte → Instr) :
    decodeConfig { ref := ref, reg := r.number, val := v.toNat } k = .ok (k r v) := by
  simp [decodeConfig, reg_ofNumber?_number, v.isLt]

theorem bufRead (buf off : Nat) : Statement (.bufRead buf off) := fun _ => by simp [decode, encode, cmdUnit, cmdOp, cmdByte]
theorem bufWrite (buf off v : Nat) : Statement (.bufWrite buf off v) := fun _ => by simp [decode, encode, cmdUnit, cmdOp, cmdByte]
theorem bufHasAvail (buf off n : Nat) : Statement (.bufHasAvail buf off n) := fun _ => by simp [decode, encode, cmdUnit, cmdOp, cmdByte]
theorem bufHasSpace (buf off n : Nat) : Statement (.bufHasSpace buf off n) := fun _ => by simp [decode, encode, cmdUnit, cmdOp, cmdByte]
theorem bufConsume (buf n : Nat) : Statement (.bufConsume buf n) := fun _ => by simp [decode, encode, cmdUnit, cmdOp, cmdByte]
theorem bufProduce (buf n : Nat) : Statement (.bufProduce buf n) := fun _ => by simp [decode, encode, cmdUnit, cmdOp, cmdByte]
theorem xcReset (xc : Nat) : Statement (.xcReset xc) := fun _ => by simp [decode, encode, cmdUnit, cmdOp, cmdByte]
theorem xcProcess (xc inp out : Nat) : Statement (.xcProcess xc inp out) := fun _ => by simp [decode, encode, cmdUnit, cmdOp, cmdByte]
theorem xcConfig (xc : Nat) (reg : Reg) (val : Byte) : Statement (.xcConfig xc reg val) := fun _ => by
  simpa [decode, encode, cmdUnit, cmdOp, cmdByte] using decodeConfig_number _ _ _ _
theorem bmcEncReset (be : Nat) : Statement (.bmcEncReset be) := fun _ => by simp [decode, encode, cmdUnit, cmdOp, cmdByte]
theorem bmcEncProcess (be inp out : Nat) : Statement (.bmcEncProcess be inp out) := fun _ => by simp [decode, encode, cmdUnit, cmdOp, cmdByte]
theorem bmcDecReset : Statement (.bmcDecReset) := fun _ => by simp [decode, encode, cmdUnit, cmdOp, cmdByte]
theorem bmcDecProcess (inp out : Nat) : Statement (.bmcDecProcess inp out) := fun _ => by simp [decode, encode, cmdUnit, cmdOp, cmdByte]
theorem frameEncReset (fe : Nat) : Statement (.frameEncReset fe) := fun _ => by simp [decode, encode, cmdUnit, cmdOp, cmdByte]
theorem frameEncProcess (fe inp out : Nat) : Statement (.frameEncProcess fe inp out) := fun _ => by simp [decode, encode, cmdUnit, cmdOp, cmdByte]
theorem frameEncConfig (fe : Nat) (reg : Reg) (val : Byte) : Statement (.frameEncConfig fe reg val) := fun _ => by
  simpa [decode, encode, cmdUnit, cmdOp, cmdByte] using decodeConfig_number _ _ _ _
theorem frameDecReset (fd : Nat) : Statement (.frameDecReset fd) := fun _ => by simp [decode, encode, cmdUnit, cmdOp, cmdByte]
theorem frameDecProcess (fd inp out : Nat) : Statement (.frameDecProcess fd inp out) := fun _ => by simp [decode, encode, cmdUnit, cmdOp, cmdByte]
theorem x2dEncReset (enc : Nat) : Statement (.x2dEncReset enc) := fun _ => by simp [decode, encode, cmdUnit, cmdOp, cmdByte]
theorem x2dEncProcess (enc inp out : Nat) (flush : Bool) : Statement (.x2dEncProcess enc inp out flush) := fun _ => by simp [decode, encode, cmdUnit, cmdOp, cmdByte]
theorem x2dEncConfig (enc : Nat) (reg : Reg) (val : Byte) : Statement (.x2dEncConfig enc reg val) := fun _ => by
  simpa [decode, encode, cmdUnit, cmdOp, cmdByte] using decodeConfig_number _ _ _ _
theorem x2dDecReset (dec : Nat) : Statement (.x2dDecReset dec) := fun _ => by simp [decode, encode, cmdUnit, cmdOp, cmdByte]
theorem x2dDecProcess (dec inp out : Nat) (flush : Bool) : Statement (.x2dDecProcess dec inp out flush) := fun _ => by simp [decode, encode, cmdUnit, cmdOp, cmdByte]

end Sys2Proof.Laws.RoundTrip
end

