-- ==== Sys2Proof/Tests/Slice0.lean ====
section
/-! SUPPORT. Tests: ill-formed terms that WellFormed refuses; a command word of every row of 30_encoding.md R88; one
step of each operation on the vectors of 95_test_vectors.md; and for every obligation with hypotheses a concrete
witness that meets them. Every expected value is the spec's. -/

open Sys2Proof Sys2Proof.Machine

namespace Sys2Proof.Tests

/-! ### Helpers -/

/-- Bits written as 0 and 1, first unit first. -/
def bits (l : List Nat) : List Bit := l.map (· == 1)

/-- Bytes written as numbers, first unit first. -/
def bytes (l : List Nat) : List Byte := l.map (BitVec.ofNat 8)

/-- A fifo with this content and nothing staged. -/
def full {α : Type} (l : List α) : Fifo α := { content := l, staged := [] }

/-- A bit buffer of `nb` bytes. -/
def bitBuf (nb : Nat) (order : BitOrder) (l : List Nat) : BitBuffer := ⟨nb, .bits order (full (bits l))⟩

/-- A byte buffer of `nb` bytes. -/
def byteBuf (nb : Nat) (l : List Nat) : BitBuffer := ⟨nb, .bytes (full (bytes l))⟩

/-- A buffer of the reserved mode. -/
def oddBuf : BitBuffer := ⟨1, .reserved⟩

/-- Power-on with these buffers of the caller's. -/
def box (bufs : Memory) : State := { State.reset with bufs := bufs }

/-- The next state of an outcome, if it is one. -/
def next? : Host.Outcome State Fault Refusal → Option State
  | .next s => some s
  | .fault _ => none
  | .refused _ => none

/-- The fault of an outcome, if it is one. -/
def fault? : Host.Outcome State Fault Refusal → Option Fault
  | .next _ => none
  | .fault r => some r
  | .refused _ => none

/-- The refusal of an outcome, if it is one. -/
def refusal? : Host.Outcome State Fault Refusal → Option Refusal
  | .next _ => none
  | .fault _ => none
  | .refused r => some r

/-- What one operation hands back. -/
def answer (i : Instr) (s : State) : Option Response := (next? (exec i s)).bind State.response

/-- A buffer of the caller's after one operation. -/
def bufAfter (i : Instr) (s : State) (k : Nat) : Option BitBuffer := (next? (exec i s)).bind fun t => t.bufs[k]?

/-- The state after one operation, or the state before where there is none. -/
def after (i : Instr) (s : State) : State := (next? (exec i s)).getD s

/-! ### WellFormed (30_encoding.md R89, R92; 93_implementation_defined.md U10, U11) -/

theorem test_xcConfig_of_a_register_it_does_not_own : Instr.WellFormed (.xcConfig 0 .z 1) = false := by decide

theorem test_xcConfig_flush_is_zero_or_one :
    Instr.WellFormed (.xcConfig 0 .flush 2) = false ∧ Instr.WellFormed (.xcConfig 0 .flush 1) = true := by decide

theorem test_frameEncConfig_of_a_read_only_register :
    Instr.WellFormed (.frameEncConfig 0 .preambleEmitted 0) = false ∧
    Instr.WellFormed (.frameEncConfig 0 .flush 0) = false ∧ Instr.WellFormed (.frameEncConfig 0 .z 255) = true := by decide

theorem test_x2dEncConfig_of_a_read_only_register :
    Instr.WellFormed (.x2dEncConfig 0 .st 0) = false ∧ Instr.WellFormed (.x2dEncConfig 0 .phase 1) = false ∧
    Instr.WellFormed (.x2dEncConfig 0 .o 0) = true := by decide

/-! ### Command words: `cmd[7:4]` and `cmd[3:0]` of 30_encoding.md R88, bit by bit -/

theorem test_words_BUF :
    decodeTableWord 8 0b00000000 = some (.bufRead 0 0) ∧ decodeTableWord 8 0b00000001 = some (.bufWrite 0 0 0) ∧
    decodeTableWord 8 0b00000010 = some (.bufHasAvail 0 0 0) ∧ decodeTableWord 8 0b00000011 = some (.bufHasSpace 0 0 0) ∧
    decodeTableWord 8 0b00000100 = some (.bufConsume 0 0) ∧ decodeTableWord 8 0b00000101 = some (.bufProduce 0 0) := by
  decide

theorem test_words_XC :
    decodeTableWord 8 0b00010000 = some (.xcReset 0) ∧ decodeTableWord 8 0b00010001 = some (.xcProcess 0 0 0) ∧
    decodeTableWord 8 0b00010010 = some (.xcConfig 0 .flush 0) := by decide

theorem test_words_BMC :
    decodeTableWord 8 0b00100000 = some (.bmcEncReset 0) ∧ decodeTableWord 8 0b00100001 = some (.bmcEncProcess 0 0 0) ∧
    decodeTableWord 8 0b00110000 = some .bmcDecReset ∧ decodeTableWord 8 0b00110001 = some (.bmcDecProcess 0 0) := by decide

theorem test_words_FRAME :
    decodeTableWord 8 0b01000000 = some (.frameEncReset 0) ∧ decodeTableWord 8 0b01000001 = some (.frameEncProcess 0 0 0) ∧
    decodeTableWord 8 0b01000010 = some (.frameEncConfig 0 .flush 0) ∧
    decodeTableWord 8 0b01010000 = some (.frameDecReset 0) ∧ decodeTableWord 8 0b01010001 = some (.frameDecProcess 0 0 0) := by
  decide

theorem test_words_X2D :
    decodeTableWord 8 0b01100000 = some (.x2dEncReset 0) ∧
    decodeTableWord 8 0b01100001 = some (.x2dEncProcess 0 0 0 false) ∧
    decodeTableWord 8 0b01100010 = some (.x2dEncConfig 0 .flush 0) ∧
    decodeTableWord 8 0b01110000 = some (.x2dDecReset 0) ∧
    decodeTableWord 8 0b01110001 = some (.x2dDecProcess 0 0 0 false) := by decide

/-- 30_encoding.md R92: the words next to the table's are in no row. -/
theorem test_words_outside_the_table :
    ∀ w ∈ [0x06, 0x0f, 0x13, 0x22, 0x32, 0x43, 0x52, 0x63, 0x72, 0x80, 0xff], decodeTableWord 8 w = none := by decide

/-- 10_state.md R32: CONFIG reads its register by number. -/
theorem test_config_operands :
    decode { cmd := 0x62, args := { ref := 0, reg := 3, val := 12 } } = .ok (.x2dEncConfig 0 .z 12) ∧
    decode { cmd := 0x42, args := { ref := 0, reg := 6, val := 0 } } = .error (.noSuchRegister 6) ∧
    decode { cmd := 0x12, args := { ref := 0, reg := 0, val := 256 } } = .error (.valueTooWide 256) := by decide

/-! ### The step -/

theorem test_step_runs_the_word_placed :
    next? (step (State.reset.withFetchWord 8 0x30)) = some { State.reset with response := some (.code .reset) } := by decide

theorem test_step_refuses_an_unknown_word :
    refusal? (step (State.reset.withFetchWord 8 0x80)) = some (.undecodable (.reservedCommand 0x80)) := by decide

theorem test_step_makes_a_buffer :
    next? (step { State.reset with calls := [.make (.buffer .bitMsb 1)] }) =
      some { State.reset with bufs := State.reset.bufs ++ [bitBuf 1 .msb []] } := by decide

/-! ### Buffer primitives: V7 -/

theorem test_BUF_READ :
    (bitBuf 1 .msb [1, 1, 0]).dataBit 0 7 = some true ∧ (bitBuf 1 .lsb [1, 1, 0]).dataBit 0 0 = some true ∧
    answer (.bufRead 0 1) (box [bitBuf 1 .msb [1, 1, 0]]) = some (.value 1) ∧
    answer (.bufRead 0 2) (box [bitBuf 1 .msb [1, 1, 0]]) = some (.value 0) := by decide

theorem test_BUF_READ_at_filled : fault? (exec (.bufRead 0 3) (box [bitBuf 1 .msb [1, 1, 0]])) = some .readPastContent := by
  decide

/-- Writes 1, 0, 1 at offsets 0, 1, 2 and one produce of three. -/
def wrote101 (order : BitOrder) : State :=
  after (.bufProduce 0 3) (after (.bufWrite 0 2 1) (after (.bufWrite 0 1 0) (after (.bufWrite 0 0 1) (box [bitBuf 1 order []]))))

theorem test_BUF_WRITE_and_BUF_PRODUCE : (wrote101 .msb).bufs = [bitBuf 1 .msb [1, 0, 1]] := by decide

theorem test_BUF_WRITE_places_bits :
    (wrote101 .msb).bufs[0]?.map (fun B => (B.dataBit 0 7, B.dataBit 0 6, B.dataBit 0 5, B.dataBit 0 0)) =
      some (some true, some false, some true, none) ∧
    (wrote101 .lsb).bufs[0]?.map (fun B => (B.dataBit 0 0, B.dataBit 0 1, B.dataBit 0 2, B.dataBit 0 7)) =
      some (some true, some false, some true, none) := by decide

theorem test_BUF_WRITE_bytes :
    (after (.bufConsume 0 1) (after (.bufProduce 0 1) (after (.bufWrite 0 0 0x55) (box [byteBuf 2 [0xaa]])))).bufs =
      [byteBuf 2 [0x55]] := by decide

theorem test_BUF_WRITE_past_capacity :
    fault? (exec (.bufWrite 0 0 1) (box [bitBuf 1 .lsb [0, 0, 0, 0, 0, 0, 0, 0]])) = some .writePastCapacity := by decide

theorem test_BUF_HASAVAIL :
    answer (.bufHasAvail 0 0 9) (box [bitBuf 2 .lsb [0, 0, 0, 0, 0, 0, 0, 0, 0]]) = some (.truth true) ∧
    answer (.bufHasAvail 0 1 9) (box [bitBuf 2 .lsb [0, 0, 0, 0, 0, 0, 0, 0, 0]]) = some (.truth false) ∧
    answer (.bufHasAvail 0 9 0) (box [bitBuf 2 .lsb [0, 0, 0, 0, 0, 0, 0, 0, 0]]) = some (.truth true) := by decide

theorem test_BUF_HASSPACE :
    answer (.bufHasSpace 0 0 2) (box [byteBuf 3 [7]]) = some (.truth true) ∧
    answer (.bufHasSpace 0 0 3) (box [byteBuf 3 [7]]) = some (.truth false) ∧
    answer (.bufHasSpace 0 1 1) (box [byteBuf 3 [7]]) = some (.truth true) := by decide

theorem test_BUF_CONSUME :
    bufAfter (.bufConsume 0 3) (box [bitBuf 2 .msb [1, 1, 0, 0, 0, 0, 0, 0, 1, 0]]) 0 =
      some (bitBuf 2 .msb [0, 0, 0, 0, 0, 1, 0]) := by decide

/-! ### The transcoder: V2 -/

theorem test_XC_RESET :
    (next? (exec (.xcReset 0) { State.reset with xcs := [⟨true⟩] })).map (·.xcs) = some [⟨false⟩] := by decide

theorem test_XC_CONFIG :
    (next? (exec (.xcConfig 0 .flush 1) State.reset)).map (·.xcs) = some [⟨true⟩] := by decide

theorem test_XC_PROCESS_flush :
    (next? (exec (.xcProcess 0 0 1) { box [bitBuf 2 .msb [1, 1, 1, 1, 0, 1, 0, 0, 1, 0, 1], byteBuf 8 []] with
      xcs := [⟨true⟩] })).map (·.bufs) = some [bitBuf 2 .msb [], byteBuf 8 [0xf4, 0xa0]] := by decide

theorem test_XC_PROCESS_unpack :
    (next? (exec (.xcProcess 0 0 1) (box [byteBuf 2 [0x2f, 0x80], bitBuf 8 .lsb []]))).map (·.bufs) =
      some [byteBuf 2 [], bitBuf 8 .lsb [1, 1, 1, 1, 0, 1, 0, 0, 0, 0, 0, 0, 0, 0, 0, 1]] := by decide

/-! ### The biphase-mark codec: V3 -/

theorem test_BMC_ENC_RESET :
    (next? (exec (.bmcEncReset 0) { State.reset with bes := [⟨false⟩] })).map (·.bes) = some [⟨true⟩] := by decide

theorem test_BMC_ENC_PROCESS :
    (next? (exec (.bmcEncProcess 0 0 1) (box [bitBuf 1 .lsb [1, 0, 1, 1], bitBuf 1 .msb []]))).map
      (fun t => (t.bes, t.bufs)) = some ([⟨false⟩], [bitBuf 1 .lsb [], bitBuf 1 .msb [0, 1, 0, 0, 1, 0, 1, 0]]) := by decide

theorem test_BMC_DEC_PROCESS :
    (next? (exec (.bmcDecProcess 0 1) (box [bitBuf 1 .lsb [0, 1, 1], bitBuf 1 .msb []]))).map (·.bufs) =
      some [bitBuf 1 .lsb [1], bitBuf 1 .msb [1]] := by decide

theorem test_BMC_DEC_RESET : answer .bmcDecReset State.reset = some (.code .reset) := by decide

/-! ### One buffer as input and output, from the pseudocode of R132, R151, R155, R172, R195, R224, R225: each step puts
out at the end of the buffer, then takes from its head -/

theorem test_XC_PROCESS_one_buffer :
    answer (.xcProcess 0 0 0) (box [byteBuf 2 []]) = some (.code .needInputData) ∧
    answer (.xcProcess 0 0 0) (box [byteBuf 1 [7]]) = some (.code .needOutputSpace) ∧
    fault? (exec (.xcProcess 0 0 0) (box [bitBuf 1 .lsb [1, 0]])) = some .neverEnds := by decide

/-- From 1 0 with the phase 1: 0 01, then 01 00 with the phase 0, then 100 11 with the phase 1, then 0011 01, then
01101 00 with the phase 0; two more do not fit. -/
theorem test_BMC_ENC_PROCESS_one_buffer :
    (next? (exec (.bmcEncProcess 0 0 0) (box [bitBuf 1 .lsb [1, 0]]))).map (fun t => (t.bes, t.bufs, t.response)) =
      some ([⟨false⟩], [bitBuf 1 .lsb [0, 1, 1, 0, 1, 0, 0]], some (.code .ok)) := by decide

/-- From 01 100: 10 0 1, then 01 1, then 1 1, then 0. -/
theorem test_BMC_DEC_PROCESS_one_buffer :
    (next? (exec (.bmcDecProcess 0 0) (box [bitBuf 1 .lsb [0, 1, 1, 0, 0]]))).map (fun t => (t.bufs, t.response)) =
      some ([bitBuf 1 .lsb [0]], some (.code .ok)) := by decide

theorem test_FRAME_ENC_PROCESS_one_buffer :
    (next? (exec (.frameEncProcess 0 0 0) { box [bitBuf 3 .msb [0]] with fes := [⟨true, 9, 6⟩] })).map
      (fun t => (t.fes, t.bufs)) =
      some ([⟨true, 9, 6⟩], [bitBuf 3 .msb [0, 1, 1, 1, 1, 1, 1, 1, 1, 0, 1, 1, 1, 1, 1, 1, 0]]) := by decide

theorem test_FRAME_DEC_PROCESS_one_buffer :
    (next? (exec (.frameDecProcess 0 0 0) { box [bitBuf 2 .lsb [1, 0, 1, 1, 1, 1, 1, 1, 1, 1, 0, 0]] with
      fds := [⟨.data⟩] })).map (fun t => (t.fds, t.bufs)) = some ([⟨.trailing⟩], [bitBuf 2 .lsb [0, 1, 0]]) := by decide

/-- P2's line and payload. -/
theorem test_X2D_DEC_PROCESS_one_buffer :
    (next? (exec (.x2dDecProcess 0 0 0 true) (box [byteBuf 12 [0x33, 0x33, 0x2a, 0xab, 0x2c, 0xb3, 0x34, 0xac, 0xaa,
      0xaa, 0xd5, 0x54]]))).map (·.bufs) = some [byteBuf 12 [0x12, 0x34]] := by decide +kernel

theorem test_X2D_ENC_PROCESS_one_buffer :
    (next? (exec (.x2dEncProcess 0 0 0 true) (box [byteBuf 12 [0x12, 0x34]]))).map (·.bufs) =
      some [byteBuf 12 [0x33, 0x33, 0x2a, 0xab, 0x2c, 0xb3, 0x34, 0xac, 0xaa, 0xaa, 0xd5, 0x54]] := by
  decide +kernel

/-! ### The frame encoder: V4 -/

theorem test_stuff : stuff (bits [0, 1, 1, 1, 1, 1, 0]) = bits [0, 1, 1, 1, 1, 1, 0, 0] ∧
    stuff (bits [1, 1, 1, 1, 1]) = bits [1, 1, 1, 1, 1, 0] := by decide

theorem test_FRAME_ENC_PROCESS :
    (next? (exec (.frameEncProcess 0 0 1) (box [bitBuf 1 .lsb [1, 1, 1, 1, 1], bitBuf 8 .lsb []]))).map
      (fun t => (t.fes, t.bufs)) =
      some ([⟨true, 9, 6⟩], [bitBuf 1 .lsb [], bitBuf 8 .lsb [0, 0, 0, 0, 0, 0, 0, 0, 0, 1, 1, 1, 1, 1, 1, 0,
        1, 1, 1, 1, 1, 0, 1, 1, 1, 1, 1, 1, 1, 1, 0, 1, 1, 1, 1, 1, 1, 0]]) := by decide

theorem test_FRAME_ENC_PROCESS_does_not_fit :
    answer (.frameEncProcess 0 0 1) (box [bitBuf 1 .lsb [1, 0, 1, 0, 0, 0, 0, 0], bitBuf 4 .lsb []]) =
      some (.code .needOutputSpace) := by decide

theorem test_FRAME_ENC_RESET :
    (next? (exec (.frameEncReset 0) { State.reset with fes := [⟨true, 12, 8⟩] })).map (·.fes) = some [⟨false, 12, 8⟩] := by
  decide

theorem test_FRAME_ENC_CONFIG :
    (next? (exec (.frameEncConfig 0 .z 12) State.reset)).map (·.fes) = some [⟨false, 12, 6⟩] ∧
    (next? (exec (.frameEncConfig 0 .o 8) State.reset)).map (·.fes) = some [⟨false, 9, 8⟩] := by decide

/-! ### The frame decoder: V5 -/

theorem test_destuff : destuff (bits [1, 1, 1, 1, 1, 1, 0]) = bits [1, 1, 1, 1, 1, 1] ∧
    destuff (bits [0, 1, 1, 1, 1, 1, 0, 0]) = bits [0, 1, 1, 1, 1, 1, 0] := by decide

/-- The body ends in four ones: twelve ones in a row. -/
theorem test_FRAME_DEC_PROCESS_first_marker :
    (next? (exec (.frameDecProcess 0 0 1) { box [bitBuf 8 .lsb [0, 1, 1, 1, 1, 1, 1, 1, 1, 1, 1, 1, 1, 0, 1, 1, 1, 1, 1, 1, 0],
      bitBuf 1 .lsb []] with fds := [⟨.data⟩] })).map (fun t => (t.fds, t.bufs)) =
      some ([⟨.trailing⟩], [bitBuf 8 .lsb [1, 1, 1, 1, 1, 1, 0], bitBuf 1 .lsb [0, 1, 1, 1, 1]]) := by decide

/-- The stream of V1e up to the first frame's marker. -/
theorem test_FRAME_DEC_PROCESS_from_noise :
    (next? (exec (.frameDecProcess 0 0 1) (box [bitBuf 12 .lsb [1, 0, 1, 1, 0, 0, 0, 1, 0, 0, 0, 0, 0, 0, 1, 1, 1, 0, 1,
      0, 0, 0, 0, 0, 0, 0, 0, 0, 1, 1, 1, 1, 1, 1, 0, 1, 0, 1, 0, 0, 0, 0, 0, 1, 1, 1, 1, 1, 1, 1, 1, 0, 1],
      bitBuf 1 .lsb []]))).map (fun t => (t.fds, t.bufs)) =
      some ([⟨.trailing⟩], [bitBuf 12 .lsb [1], bitBuf 1 .lsb [1, 0, 1, 0, 0, 0, 0, 0]]) := by decide

theorem test_FRAME_DEC_RESET :
    (next? (exec (.frameDecReset 0) { State.reset with fds := [⟨.trailing⟩] })).map (·.fds) = some [⟨.init⟩] := by decide

/-! ### The pipelines: P2, P3 -/

theorem test_X2D_ENC_PROCESS :
    (next? (exec (.x2dEncProcess 0 0 1 true) (box [byteBuf 16 [0x12, 0x34], byteBuf 64 []]))).map (·.bufs) =
      some [byteBuf 16 [], byteBuf 64 [0x33, 0x33, 0x2a, 0xab, 0x2c, 0xb3, 0x34, 0xac, 0xaa, 0xaa, 0xd5, 0x54]] := by
  decide +kernel

theorem test_X2D_DEC_PROCESS :
    (next? (exec (.x2dDecProcess 0 0 1 true) (box [byteBuf 64 [0x33, 0x33, 0x2a, 0xab, 0x2c, 0xb3, 0x34, 0xac, 0xaa,
      0xaa, 0xd5, 0x54], byteBuf 16 []]))).map (fun t => (t.bufs, t.decs.map (·.fd.st), t.decs.map (·.b))) =
      some ([byteBuf 64 [], byteBuf 16 [0x12, 0x34]], [.trailing], [bitBuf 64 .lsb [1, 1, 1, 1, 1, 1, 0]]) := by
  decide +kernel

/-- V10, first call with flush 0: ten line bytes, two line bits wait. -/
theorem test_X2D_ENC_PROCESS_without_flush :
    (next? (exec (.x2dEncProcess 0 0 1 false) (box [byteBuf 1 [0xff], byteBuf 64 []]))).map
      (fun t => (t.bufs, t.encs.map (fun e => (e.xc2, e.c.filled)))) =
      some ([byteBuf 1 [], byteBuf 64 [0x33, 0x33, 0x2a, 0xab, 0x55, 0x4a, 0xaa, 0xaa, 0xb5, 0x55]], [(⟨false⟩, 2)]) := by
  decide +kernel

theorem test_X2D_ENC_CONFIG :
    (next? (exec (.x2dEncConfig 0 .z 12) State.reset)).map (fun t => t.encs.map (·.fe)) = some [⟨false, 12, 6⟩] := by decide

/-- 45_pipeline.md R226: the stages and buffers reset, Z kept. -/
theorem test_X2D_ENC_RESET :
    (next? (exec (.x2dEncReset 0) { State.reset with encs := [{ EncSession.powerOn Config.defaultParams with
      xc2 := ⟨true⟩, be := ⟨false⟩, fe := ⟨true, 12, 6⟩, c := bitBuf 64 .msb [1, 0] }] })).map (·.encs) =
      some [{ EncSession.powerOn Config.defaultParams with fe := ⟨false, 12, 6⟩ }] := by decide

theorem test_X2D_DEC_RESET :
    (next? (exec (.x2dDecReset 0) { State.reset with decs := [{ DecSession.powerOn Config.defaultParams with
      fd := ⟨.data⟩, b := bitBuf 64 .lsb [1, 0] }] })).map (·.decs) =
      some [DecSession.powerOn Config.defaultParams] := by decide

/-! ### Result codes: V9 -/

theorem test_modes_before_availability :
    answer (.frameEncProcess 0 0 1) (box [bitBuf 1 .lsb [1], byteBuf 1 []]) = some (.code .invalidOutputType) ∧
    answer (.frameDecProcess 0 0 1) (box [byteBuf 1 [], byteBuf 1 []]) = some (.code .invalidInputType) ∧
    answer (.bmcEncProcess 0 0 1) (box [bitBuf 1 .lsb [], bitBuf 1 .msb [0, 0, 0, 0, 0, 0, 0, 0]]) =
      some (.code .needInputData) := by decide

/-! ### Witnesses: values that meet the hypotheses of each obligation, clause by clause -/

/-- A command waiting, and nothing after it. -/
def waiting (c : Command) : State := { State.reset with calls := [.invoke c] }

theorem witness_DecodeEncodeAgree :
    Instr.WellFormed (.xcConfig 0 .flush 1) = true ∧ Instr.WellFormed (.frameEncConfig 7 .o 255) = true ∧
    decode { cmd := 0x05, args := { ref := 2, off := 9, n := 3 } } = .ok (.bufProduce 2 3) := by decide

theorem witness_ReservedCommandsRefused :
    (waiting { cmd := 0x06 }).calls = .invoke { cmd := 0x06 } :: [] ∧
    0x06#8 ∉ [0x00#8, 0x01#8, 0x02#8, 0x03#8, 0x04#8, 0x05#8, 0x10#8, 0x11#8, 0x12#8, 0x20#8, 0x21#8, 0x30#8, 0x31#8,
      0x40#8, 0x41#8, 0x42#8, 0x50#8, 0x51#8, 0x60#8, 0x61#8, 0x62#8, 0x70#8, 0x71#8] ∧
    (waiting { cmd := 0x12, args := { reg := 1 } }).calls = .invoke { cmd := 0x12, args := { reg := 1 } } :: [] ∧
    (waiting { cmd := 0x42, args := { reg := 2 } }).calls = .invoke { cmd := 0x42, args := { reg := 2 } } :: [] ∧
    (waiting { cmd := 0x62, args := { reg := 5 } }).calls = .invoke { cmd := 0x62, args := { reg := 5 } } :: [] := by decide

theorem witness_StepRunsDecodedOperation :
    (waiting { cmd := 0x71, args := { out := 1, flush := true } }).calls =
      .invoke { cmd := 0x71, args := { out := 1, flush := true } } :: [] ∧
    decode { cmd := 0x71, args := { out := 1, flush := true } } = .ok (.x2dDecProcess 0 0 1 true) ∧
    State.reset.calls = [] := by decide

theorem witness_MadeSessionsAreAtPowerOn :
    ({ State.reset with calls := [.make (.encSession ⟨1, .msb⟩)] } : State).calls = .make (.encSession ⟨1, .msb⟩) :: [] ∧
    ({ State.reset with calls := [.make (.decSession ⟨0, .lsb⟩)] } : State).calls = .make (.decSession ⟨0, .lsb⟩) :: [] := by
  decide

theorem witness_BufReadAnswersTheUnit :
    ((box [bitBuf 1 .msb [1, 1, 0]]).bufs[0]? = some ⟨1, .bits .msb (full (bits [1, 1, 0]))⟩ ∧
      (full (bits [1, 1, 0])).content[2]? = some false) ∧
    ((box [byteBuf 1 [0xaa]]).bufs[0]? = some ⟨1, .bytes (full (bytes [0xaa]))⟩ ∧
      (full (bytes [0xaa])).content[0]? = some 0xaa#8) ∧
    ((box [byteBuf 1 [0xaa]]).bufs[0]? = some (byteBuf 1 [0xaa]) ∧ (byteBuf 1 [0xaa]).mode ≠ .reserved ∧
      (byteBuf 1 [0xaa]).filled ≤ 1) := by decide

theorem witness_BufWriteSetsOneUnit :
    ((box [bitBuf 1 .msb [1]]).bufs[0]? = some ⟨1, .bits .msb (full (bits [1]))⟩ ∧ (full (bits [1])).filled + 6 < 8 * 1) ∧
    ((box [byteBuf 2 [0xaa]]).bufs[0]? = some ⟨2, .bytes (full (bytes [0xaa]))⟩ ∧
      (full (bytes [0xaa])).filled + 0 < 2 ∧ 255 < 256) := by decide

theorem witness_BufTestsAnswerTheBounds :
    (box [bitBuf 1 .lsb [1]]).bufs[0]? = some (bitBuf 1 .lsb [1]) ∧ (bitBuf 1 .lsb [1]).mode ≠ .reserved := by decide

theorem witness_BufConsumeRemovesFromTheHead :
    ((box [bitBuf 1 .lsb [1]]).bufs[0]? = some ⟨1, .bits .lsb (full (bits [1]))⟩ ∧ 1 ≤ (full (bits [1])).filled) ∧
    ((box [byteBuf 1 [7]]).bufs[0]? = some ⟨1, .bytes (full (bytes [7]))⟩ ∧ 1 ≤ (full (bytes [7])).filled) := by decide

theorem witness_BufProduceAppendsWhatWasWritten :
    ((box [⟨1, .bits .lsb ⟨[], [none, some true]⟩⟩]).bufs[0]? = some ⟨1, .bits .lsb ⟨[], [none, some true]⟩⟩ ∧
      (⟨[], [none, some true]⟩ : Fifo Bit).filled + 8 ≤ 8 * 1 ∧
      (⟨[], [none, some true]⟩ : Fifo Bit).cell (0 + 1) = some true) ∧
    ((box [⟨1, .bytes ⟨[], [some 7]⟩⟩]).bufs[0]? = some ⟨1, .bytes ⟨[], [some 7]⟩⟩ ∧
      (⟨[], [some 7]⟩ : Fifo Byte).filled + 1 ≤ 1 ∧ (⟨[], [some 7]⟩ : Fifo Byte).cell (0 + 0) = some 7) := by decide

theorem witness_BufPreconditionsFault :
    ((box [bitBuf 1 .lsb [1]]).bufs[0]? = some (bitBuf 1 .lsb [1]) ∧ (bitBuf 1 .lsb [1]).mode ≠ .reserved ∧
      (bitBuf 1 .lsb [1]).filled ≤ 1 ∧ (bitBuf 1 .lsb [1]).capacity ≤ (bitBuf 1 .lsb [1]).filled + 7 ∧
      (bitBuf 1 .lsb [1]).filled + 6 < (bitBuf 1 .lsb [1]).capacity ∧
      (if (bitBuf 1 .lsb [1]).mode = .byte then 256 else 2) ≤ 2 ∧
      (bitBuf 1 .lsb [1]).filled < 2 ∧ (bitBuf 1 .lsb [1]).capacity < (bitBuf 1 .lsb [1]).filled + 8) ∧
    ((box [oddBuf]).bufs[0]? = some oddBuf ∧ oddBuf.mode = .reserved) := by decide

theorem witness_UnitResets :
    State.reset.xcs[0]? = some ⟨false⟩ ∧ State.reset.bes[0]? = some ⟨true⟩ ∧ State.reset.fes[0]? = some ⟨false, 9, 6⟩ ∧
    State.reset.fds[0]? = some ⟨.init⟩ := by decide

theorem witness_PipelineResets :
    State.reset.encs[0]? = some (.powerOn Config.defaultParams) ∧
    State.reset.decs[0]? = some (.powerOn Config.defaultParams) := by decide

theorem witness_ConfigsWriteOneRegister :
    (State.reset.xcs[0]? = some ⟨false⟩ ∧ (1#8).toNat ≤ 1) ∧ State.reset.fes[0]? = some ⟨false, 9, 6⟩ ∧
    State.reset.encs[0]? = some (.powerOn Config.defaultParams) := by decide

theorem witness_IllFormedConfigsRefused :
    Instr.WellFormed (.xcConfig 0 .flush 2) = false ∧ Instr.WellFormed (.frameEncConfig 0 .st 0) = false ∧
    Instr.WellFormed (.x2dEncConfig 0 .preambleEmitted 1) = false := by decide

/-- Three bits and room for two. -/
def copyBits : State := box [bitBuf 1 .lsb [1, 0, 1], bitBuf 1 .msb [0, 0, 0, 0, 0, 0]]

/-- One byte and room for one. -/
def copyBytes : State := box [byteBuf 1 [7], byteBuf 1 []]

theorem witness_XcCopiesLikeToLike :
    (copyBits.xcs[0]? = some ⟨false⟩ ∧ copyBits.bufs[0]? = some ⟨1, .bits .lsb (full (bits [1, 0, 1]))⟩ ∧
      copyBits.bufs[1]? = some ⟨1, .bits .msb (full (bits [0, 0, 0, 0, 0, 0]))⟩ ∧ 0 ≠ 1 ∧ 0 < 2 ∧
      2 = min (full (bits [1, 0, 1])).filled (8 * 1 - (full (bits [0, 0, 0, 0, 0, 0])).filled)) ∧
    (copyBytes.xcs[0]? = some ⟨false⟩ ∧ copyBytes.bufs[0]? = some ⟨1, .bytes (full (bytes [7]))⟩ ∧
      copyBytes.bufs[1]? = some ⟨1, .bytes (full (bytes []))⟩ ∧ 0 ≠ 1 ∧ 0 < 1 ∧
      1 = min (full (bytes [7])).filled (1 - (full (bytes [])).filled)) ∧
    (0 < (full (bits [1, 0, 1])).filled ∧ (full (bits [1, 0, 1])).filled < 8 * 1) ∧
    ((box [byteBuf 2 [7]]).bufs[0]? = some ⟨2, .bytes (full (bytes [7]))⟩ ∧ 0 < (full (bytes [7])).filled ∧
      (full (bytes [7])).filled < 2) := by decide

/-- Nine bits: one byte without the flush flag, two with it. -/
def packBox (flush : Bool) : State := { box [bitBuf 2 .msb [1, 0, 0, 0, 0, 0, 0, 0, 1], byteBuf 2 []] with xcs := [⟨flush⟩] }

theorem witness_XcPacksBitsIntoBytes :
    ∀ flush : Bool, (packBox flush).xcs[0]? = some ⟨flush⟩ ∧
      (packBox flush).bufs[0]? = some ⟨2, .bits .msb (full (bits [1, 0, 0, 0, 0, 0, 0, 0, 1]))⟩ ∧
      (packBox flush).bufs[1]? = some ⟨2, .bytes (full [])⟩ ∧
      (if flush then 2 else 1) = min (if flush then ((full (bits [1, 0, 0, 0, 0, 0, 0, 0, 1])).filled + 7) / 8
        else (full (bits [1, 0, 0, 0, 0, 0, 0, 0, 1])).filled / 8) (2 - (full (bytes [])).filled) := by decide

/-- V2: two bytes and room for one. -/
def unpackBox : State := box [byteBuf 2 [1, 2], bitBuf 1 .lsb []]

theorem witness_XcUnpacksBytesIntoBits :
    unpackBox.xcs[0]? = some ⟨false⟩ ∧ unpackBox.bufs[0]? = some ⟨2, .bytes (full (bytes [1, 2]))⟩ ∧
    unpackBox.bufs[1]? = some ⟨1, .bits .lsb (full [])⟩ ∧
    1 = min (full (bytes [1, 2])).filled ((8 * 1 - (full (bits [])).filled) / 8) ∧ 0 < 1 := by decide

theorem witness_UnpackedByteIsThePhysicalByte : (full (bits [1, 0, 1, 0, 1, 0, 1, 0])).filled = 8 * 1 := by decide

theorem witness_TranscoderRoundTrip :
    (box [byteBuf 1 [7], bitBuf 1 .msb [], byteBuf 1 []]).bufs[0]? = some ⟨1, .bytes ⟨[7], []⟩⟩ ∧
    (box [byteBuf 1 [7], bitBuf 1 .msb [], byteBuf 1 []]).bufs[1]? = some ⟨1, .bits .msb ⟨[], []⟩⟩ ∧
    (box [byteBuf 1 [7], bitBuf 1 .msb [], byteBuf 1 []]).bufs[2]? = some ⟨1, .bytes ⟨[], []⟩⟩ ∧
    State.reset.xcs[0]? = some ⟨false⟩ ∧ [(7 : Byte)] ≠ [] ∧ [(7 : Byte)].length ≤ 1 := by decide

theorem witness_BmcEncodesDataBits :
    State.reset.bes[0]? = some ⟨true⟩ ∧
    (box [bitBuf 1 .lsb [1, 1, 0, 1, 0], bitBuf 1 .msb []]).bufs[0]? = some ⟨1, .bits .lsb (full (bits [1, 1, 0, 1, 0]))⟩ ∧
    (box [bitBuf 1 .lsb [1, 1, 0, 1, 0], bitBuf 1 .msb []]).bufs[1]? = some ⟨1, .bits .msb (full [])⟩ ∧
    4 = min (full (bits [1, 1, 0, 1, 0])).filled ((8 * 1 - 0) / 2) ∧ 0 < 4 ∧
    (full (bits [1, 1, 0, 1, 0, 0])).content = true :: bits [1, 0, 1, 0, 0] ∧
    (full (bits [1, 1, 0, 1, 0, 0])).filled + 2 ≤ 8 * 1 := by decide

theorem witness_BmcDecodesLineBits :
    (box [bitBuf 1 .lsb [0, 1, 1], bitBuf 1 .msb []]).bufs[0]? = some ⟨1, .bits .lsb (full (bits [0, 1, 1]))⟩ ∧
    (box [bitBuf 1 .lsb [0, 1, 1], bitBuf 1 .msb []]).bufs[1]? = some ⟨1, .bits .msb (full [])⟩ ∧
    1 = min ((full (bits [0, 1, 1])).filled / 2) (8 * 1 - 0) ∧ 0 < 1 ∧
    (full (bits [0, 1, 1, 0, 0, 0, 0])).content = false :: true :: bits [1, 0, 0, 0, 0] ∧
    (full (bits [0, 1, 1, 0, 0, 0, 0])).filled + 1 ≤ 8 * 1 := by decide

theorem witness_PhaseIsLastLineBit :
    answer (.bmcEncProcess 0 0 1) (box [bitBuf 1 .lsb [1], bitBuf 1 .msb []]) = some (.code .ok) := by decide

theorem witness_BiphaseRoundTrip :
    (box [bitBuf 1 .lsb [1, 0], bitBuf 1 .msb [], bitBuf 1 .lsb []]).bufs[0]? = some ⟨1, .bits .lsb ⟨bits [1, 0], []⟩⟩ ∧
    (box [bitBuf 1 .lsb [1, 0], bitBuf 1 .msb [], bitBuf 1 .lsb []]).bufs[1]? = some ⟨1, .bits .msb ⟨[], []⟩⟩ ∧
    (box [bitBuf 1 .lsb [1, 0], bitBuf 1 .msb [], bitBuf 1 .lsb []]).bufs[2]? = some ⟨1, .bits .lsb ⟨[], []⟩⟩ ∧
    State.reset.bes[0]? = some ⟨true⟩ ∧ bits [1, 0] ≠ [] ∧ 2 * (bits [1, 0]).length ≤ 8 * 1 := by decide

/-- V3's cells behind one stray bit, and room for just the four pairs. -/
theorem witness_MisalignedLineDecodesToOnes :
    Spec.lineBits true (bits [1, 0, 1, 1]) = bits [0, 1, 0, 0, 1, 0, 1, 0] ∧ bits [1, 0, 1, 1] ≠ [] ∧
    (box [bitBuf 2 .lsb [1, 0, 1, 0, 0, 1, 0, 1, 0], bitBuf 1 .msb [0, 0, 0, 0]]).bufs[0]? =
      some ⟨2, .bits .lsb ⟨true :: Spec.lineBits true (bits [1, 0, 1, 1]), []⟩⟩ ∧
    (box [bitBuf 2 .lsb [1, 0, 1, 0, 0, 1, 0, 1, 0], bitBuf 1 .msb [0, 0, 0, 0]]).bufs[1]? =
      some ⟨1, .bits .msb (full (bits [0, 0, 0, 0]))⟩ ∧
    (full (bits [0, 0, 0, 0])).filled + (bits [1, 0, 1, 1]).length ≤ 8 * 1 := by decide

/-- Two buffers for the frame units. -/
def frameBox (i : List Nat) (nb : Nat) : State := box [bitBuf 20 .lsb i, bitBuf nb .lsb []]

/-- Two buffers for the frame units, and a frame encoder that has emitted its preamble or has not. -/
def encBox (pre : Bool) (i : List Nat) (nb : Nat) : State := { frameBox i nb with fes := [⟨pre, 9, 6⟩] }

/-- V4: the frame of these bits exactly fills five bytes with the preamble, and three without it. -/
theorem witness_FrameEncoderEmitsOneFrame :
    ∀ pre : Bool, (encBox pre [1, 0, 1, 0, 0, 0, 0, 0] (if pre then 3 else 5)).fes[0]? = some ⟨pre, 9, 6⟩ ∧
      (encBox pre [1, 0, 1, 0, 0, 0, 0, 0] (if pre then 3 else 5)).bufs[0]? =
        some ⟨20, .bits .lsb (full (bits [1, 0, 1, 0, 0, 0, 0, 0]))⟩ ∧
      (encBox pre [1, 0, 1, 0, 0, 0, 0, 0] (if pre then 3 else 5)).bufs[1]? =
        some ⟨if pre then 3 else 5, .bits .lsb (full [])⟩ ∧ bits [1, 0, 1, 0, 0, 0, 0, 0] ≠ [] ∧
      (full (bits [])).filled + ((if pre then [] else List.replicate 9 false ++ List.replicate 6 true ++ [false]) ++
        stuff (bits [1, 0, 1, 0, 0, 0, 0, 0]) ++ [true, true, true, true, true, true, true, true, false] ++
        [true, true, true, true, true, true, false]).length ≤ 8 * (if pre then 3 else 5) ∧
      (box [bitBuf (if pre then 4 else 6) .msb [1, 0, 1, 0, 0, 0, 0, 0]]).bufs[0]? =
        some ⟨if pre then 4 else 6, .bits .msb (full (bits [1, 0, 1, 0, 0, 0, 0, 0]))⟩ ∧
      (full (bits [1, 0, 1, 0, 0, 0, 0, 0])).filled + ((if pre then [] else
        List.replicate 9 false ++ List.replicate 6 true ++ [false]) ++
        stuff (bits [1, 0, 1, 0, 0, 0, 0, 0]) ++ [true, true, true, true, true, true, true, true, false] ++
        [true, true, true, true, true, true, false]).length ≤ 8 * (if pre then 4 else 6) := by decide

theorem witness_FrameEncoderIsAllOrNothing :
    ((frameBox [] 5).fes[0]? = some ⟨false, 9, 6⟩ ∧ (frameBox [] 5).bufs[0]? = some ⟨20, .bits .lsb (full [])⟩ ∧
      (frameBox [] 5).bufs[1]? = some ⟨5, .bits .lsb (full [])⟩) ∧
    ((frameBox [1, 0, 1, 0, 0, 0, 0, 0] 4).fes[0]? = some ⟨false, 9, 6⟩ ∧
      (frameBox [1, 0, 1, 0, 0, 0, 0, 0] 4).bufs[0]? = some ⟨20, .bits .lsb (full (bits [1, 0, 1, 0, 0, 0, 0, 0]))⟩ ∧
      (frameBox [1, 0, 1, 0, 0, 0, 0, 0] 4).bufs[1]? = some ⟨4, .bits .lsb (full [])⟩ ∧
      8 * 4 < (full (bits [])).filled + (9 + 6 + 1) + (stuff (bits [1, 0, 1, 0, 0, 0, 0, 0])).length + 16) := by decide

theorem witness_StuffedBodyHasNoSixOnes :
    stuff (bits [0, 1, 1, 1, 1, 1, 1]) = [false] ++ [true, true, true, true, true] ++ [false, true] := by decide

/-- Runs of four and of five ones, the boundary of both clauses. -/
theorem witness_StuffedLengthBounds :
    4 < 5 ∧ stuff (List.replicate 4 true ++ false :: bits [1]) = bits [1, 1, 1, 1, 0, 1] ∧
    stuff ([true, true, true, true, true] ++ bits [1]) = bits [1, 1, 1, 1, 1, 0, 1] := by decide

theorem witness_DestuffInvertsStuff :
    5 ≤ 5 ∧ destuff (List.replicate 5 true ++ false :: bits [0]) = bits [1, 1, 1, 1, 1, 0] ∧ 4 < 5 ∧
    destuff (List.replicate 4 true ++ false :: bits [0]) = bits [1, 1, 1, 1, 0, 0] := by decide

/-- A frame decoder in a state of its own. -/
def decBox (st : FdState) (i : List Nat) (nb : Nat) : State := { frameBox i nb with fds := [⟨st⟩] }

/-- V5: a body of eight bits into a buffer of one byte, one bit behind the marker. -/
def deliverBox : State := decBox .data [1, 0, 1, 0, 0, 0, 0, 0, 1, 1, 1, 1, 1, 1, 1, 1, 0, 1] 1

theorem witness_DataDeliversTheFrame :
    deliverBox.bufs[0]? = some ⟨20, .bits .lsb
      ⟨bits [1, 0, 1, 0, 0, 0, 0, 0] ++ [true, true, true, true, true, true, true, true, false] ++ [true], []⟩⟩ ∧
    deliverBox.bufs[1]? = some ⟨1, .bits .lsb (full [])⟩ ∧ deliverBox.fds[0]? = some ⟨.data⟩ ∧
    (∀ j < (bits [1, 0, 1, 0, 0, 0, 0, 0]).length, ¬ [true, true, true, true, true, true, true, true, false] <+:
      (bits [1, 0, 1, 0, 0, 0, 0, 0] ++ [true, true, true, true, true, true, true, true, false] ++ [true]).drop j) ∧
    (full (bits [])).filled + (destuff (bits [1, 0, 1, 0, 0, 0, 0, 0])).length ≤ 8 * 1 ∧
    (bits [1, 0, 1, 0, 0, 0, 0, 0]).length + 9 + [true].length + (destuff (bits [1, 0, 1, 0, 0, 0, 0, 0])).length ≤ 8 * 20 := by
  decide

/-- V5: ten payload bits and room for eight. -/
def withholdBits : List Nat := [1, 0, 1, 0, 0, 0, 0, 0, 1, 0, 1, 1, 1, 1, 1, 1, 1, 1, 0]

/-- Those bits in DATA. -/
def withholdBox : State := decBox .data withholdBits 1

theorem witness_DataWithholdsTheFrame :
    withholdBox.bufs[0]? = some ⟨20, .bits .lsb (full (bits withholdBits))⟩ ∧
    withholdBox.bufs[1]? = some ⟨1, .bits .lsb (full [])⟩ ∧ withholdBox.fds[0]? = some ⟨.data⟩ ∧
    [true, true, true, true, true, true, true, true, false] <+: (bits withholdBits).drop 10 ∧
    (∀ j < 10, ¬ [true, true, true, true, true, true, true, true, false] <+: (bits withholdBits).drop j) ∧
    8 * 1 < (full (bits [])).filled + (destuff ((bits withholdBits).take 10)).length := by decide

/-- V6: 127 and 128 bits without a marker. -/
theorem witness_DataWaitsUntilTheWatchdog :
    ∀ n ∈ [127, 128], (decBox .data (List.replicate n 0) 1).fds[0]? = some ⟨.data⟩ ∧
      (decBox .data (List.replicate n 0) 1).bufs[0]? = some ⟨20, .bits .lsb (full (List.replicate n false))⟩ ∧
      (decBox .data (List.replicate n 0) 1).bufs[1]? = some ⟨1, .bits .lsb (full [])⟩ ∧
      ¬ [true, true, true, true, true, true, true, true, false] <:+: (full (List.replicate n false)).content ∧
      (full (List.replicate n false)).filled = n := by decide +kernel

theorem witness_UnconfirmedRunWaits :
    ((decBox .init [] 1).fds[0]? = some ⟨.init⟩ ∧
      (decBox .init [] 1).bufs[0]? = some ⟨20, .bits .lsb ⟨List.replicate 0 true, []⟩⟩ ∧
      (decBox .init [] 1).bufs[1]? = some ⟨1, .bits .lsb (full [])⟩) ∧
    ((decBox .leadOnes [1, 1, 1, 1, 1, 1] 1).fds[0]? = some ⟨.leadOnes⟩ ∧
      (decBox .leadOnes [1, 1, 1, 1, 1, 1] 1).bufs[0]? = some ⟨20, .bits .lsb ⟨List.replicate 6 true, []⟩⟩ ∧
      (decBox .leadOnes [1, 1, 1, 1, 1, 1] 1).bufs[1]? = some ⟨1, .bits .lsb (full [])⟩) := by decide

/-- Runs of six and seven zeros, of five and six ones; one bit; seven bits. -/
theorem witness_SynchroniserSteps :
    (bits [0, 0, 0, 0, 0, 0, 1] = List.replicate 6 false ++ (!false) :: [] ∧
      bits [0, 0, 0, 0, 0, 0, 0, 1, 1] = List.replicate 7 false ++ (!false) :: [true] ∧
      bits [1, 1, 1, 1, 1, 0] = List.replicate 5 true ++ (!true) :: [] ∧
      bits [1, 1, 1, 1, 1, 1, 0] = List.replicate 6 true ++ (!true) :: [] ∧
      (bits [1, 1, 1, 1, 1, 1, 0]).length = 7 ∧ bits [1] = true :: [] ∧ bits [1, 1, 1, 1, 1, 1, 0] ++ [] = bits [1, 1, 1, 1, 1, 1, 0]) ∧
    ∀ i ∈ [(FdState.init, [0, 0, 0, 0, 0, 0, 1]), (.init, [0, 0, 0, 0, 0, 0, 0, 1, 1]), (.leadOnes, [1, 1, 1, 1, 1, 0]),
        (.leadOnes, [1, 1, 1, 1, 1, 1, 0]), (.extraZero, [1]), (.trailing, [1, 1, 1, 1, 1, 1, 0])],
      (decBox i.1 i.2 1).fds[0]? = some ⟨i.1⟩ ∧ (decBox i.1 i.2 1).bufs[0]? = some ⟨20, .bits .lsb ⟨bits i.2, []⟩⟩ ∧
      (decBox i.1 i.2 1).bufs[1]? = some ⟨1, .bits .lsb (full [])⟩ := by decide

theorem witness_SpacerAndSeparatorWait :
    ((decBox .extraZero [] 1).fds[0]? = some ⟨.extraZero⟩ ∧
      (decBox .extraZero [] 1).bufs[0]? = some ⟨20, .bits .lsb (full [])⟩ ∧
      (decBox .extraZero [] 1).bufs[1]? = some ⟨1, .bits .lsb (full [])⟩ ∧ (full (bits [])).filled = 0) ∧
    ((decBox .trailing [1, 1, 1, 1, 1, 1] 1).fds[0]? = some ⟨.trailing⟩ ∧
      (decBox .trailing [1, 1, 1, 1, 1, 1] 1).bufs[0]? = some ⟨20, .bits .lsb (full (bits [1, 1, 1, 1, 1, 1]))⟩ ∧
      (decBox .trailing [1, 1, 1, 1, 1, 1] 1).bufs[1]? = some ⟨1, .bits .lsb (full [])⟩ ∧
      (full (bits [1, 1, 1, 1, 1, 1])).filled < 7) := by decide

theorem witness_FrameDecoderCodesAndStates :
    answer (.frameDecProcess 0 0 1) (decBox .data [1, 1, 1, 1, 1, 1, 1, 1, 0] 0) = some (.code .ok) ∧
    answer (.frameDecProcess 0 0 1) (decBox .data [1, 1, 1, 1, 1, 1, 1, 1, 1, 0] 0) = some (.code .needOutputSpace) ∧
    (next? (exec (.frameDecProcess 0 0 1) (decBox .extraZero [] 0))).map (·.fds) = some [⟨.extraZero⟩] := by decide

/-- V10, first call with flush 0: from power-on the frame of `ff` is 41 bits, its line 82, so ten bytes go out and two
line bits wait; the output is exactly filled, and so is the input where it is the output too. -/
theorem witness_EncodePipelineMakesTheLine :
    (box [byteBuf 10 [0xff], byteBuf 10 []]).encs[0]? = some (.powerOn Config.defaultParams) ∧
    (EncSession.powerOn Config.defaultParams).a = ⟨64, .bits .lsb (full [])⟩ ∧
    (EncSession.powerOn Config.defaultParams).b = ⟨64, .bits .lsb (full [])⟩ ∧
    (EncSession.powerOn Config.defaultParams).c = ⟨64, .bits .msb (full [])⟩ ∧
    (box [byteBuf 10 [0xff], byteBuf 10 []]).bufs[0]? = some ⟨10, .bytes (full (bytes [0xff]))⟩ ∧
    (box [byteBuf 10 [0xff], byteBuf 10 []]).bufs[1]? = some ⟨10, .bytes (full [])⟩ ∧
    1 = min (full (bytes [0xff])).filled ((8 * 64 - (full (bits [])).filled) / 8) ∧ 0 < 1 ∧
    (List.replicate 9 false ++ List.replicate 6 true ++ [false] ++
      stuff ((full (bits [])).content ++ Spec.bitsOfBytes .lsb ((full (bytes [0xff])).content.take 1)) ++
      Config.eofMarker ++ Config.sepMarker).length = 41 ∧
    (full (bits [])).filled + 41 ≤ 8 * 64 ∧ 41 = min ((full (bits [])).filled + 41) ((8 * 64 - (full (bits [])).filled) / 2) ∧
    Spec.packedBytes false 82 = 10 ∧ Spec.packedBytes true 82 = 11 ∧ 10 = min 10 (10 - (full (bytes [])).filled) ∧
    10 = min 10 (10 - ((full (bytes [0xff])).filled - 1)) := by decide

/-- What the second call of P3 finds in `DEC.B`: the separator of frame 1 and the whole of frame 2. -/
def waitingFrame : List Nat := [1, 1, 1, 1, 1, 1, 0, 1, 1, 1, 1, 0, 0, 0, 0, 1, 1, 1, 1, 1, 1, 1, 1, 0, 1, 1, 1, 1, 1, 1, 0]

/-- A decode session in the middle of a burst (P3), or in DATA, and one byte of payload bits. -/
def burstSession (st : FdState) (b : List Nat) : DecSession :=
  { DecSession.powerOn Config.defaultParams with fd := ⟨st⟩, b := bitBuf 64 .lsb b }

/-- One idle line byte for a session in the middle of a burst. -/
def burstBox (st : FdState) (b : List Nat) : State := { box [byteBuf 1 [0], byteBuf 16 [0xa5]] with decs := [burstSession st b] }

/-- P3, third decode call: `got` is `a5 0f`, and `DEC.B` holds 1111110 0000. -/
theorem test_X2D_DEC_PROCESS_of_the_frame_that_waits :
    (next? (exec (.x2dDecProcess 0 0 1 true) (burstBox .trailing waitingFrame))).map (fun t => (t.bufs, t.decs)) =
      some ([byteBuf 1 [], byteBuf 16 [0xa5, 0x0f]], [{ burstSession .trailing [1, 1, 1, 1, 1, 1, 0, 0, 0, 0, 0] with
        xc1 := ⟨true⟩, xc2 := ⟨true⟩ }]) := by decide +kernel

/-- P3: the frame that waits, and a call that brings one more line byte. -/
theorem witness_DecodePipelineRecoversThePayload :
    (burstBox .trailing waitingFrame).decs[0]? = some (burstSession .trailing waitingFrame) ∧
    (burstSession .trailing waitingFrame).a = ⟨64, .bits .msb (full [])⟩ ∧
    (burstSession .trailing waitingFrame).b = ⟨64, .bits .lsb (full (bits waitingFrame))⟩ ∧
    (burstSession .trailing waitingFrame).c = ⟨64, .bits .lsb (full [])⟩ ∧
    (burstBox .trailing waitingFrame).bufs[0]? = some ⟨1, .bytes (full (bytes [0]))⟩ ∧
    (burstBox .trailing waitingFrame).bufs[1]? = some ⟨16, .bytes (full (bytes [0xa5]))⟩ ∧
    1 = min (full (bytes [0])).filled ((8 * 64 - (full (bits [])).filled) / 8) ∧
    4 = min (((full (bits [])).content ++ Spec.bitsOfBytes .msb ((full (bytes [0])).content.take 1)).length / 2)
      (8 * 64 - (full (bits waitingFrame)).filled) ∧
    (bits [1, 1, 1, 1, 1, 1, 0]).length = 7 ∧
    (full (bits waitingFrame)).content ++ Spec.dataBits
      (((full (bits [])).content ++ Spec.bitsOfBytes .msb ((full (bytes [0])).content.take 1)).take (2 * 4)) =
      bits [1, 1, 1, 1, 1, 1, 0] ++ (stuff (Spec.bitsOfBytes .lsb (bytes [0x0f])) ++ Config.eofMarker ++
        bits [1, 1, 1, 1, 1, 1, 0, 0, 0, 0, 0]) ∧
    (full (bits [])).filled + (Spec.bitsOfBytes .lsb (bytes [0x0f])).length ≤ 8 * 64 ∧
    1 = min (Spec.packedBytes false (Spec.bitsOfBytes .lsb (bytes [0x0f])).length) (16 - (full (bytes [0xa5])).filled) ∧
    1 = min (Spec.packedBytes true (Spec.bitsOfBytes .lsb (bytes [0x0f])).length) (1 - ((full (bytes [0])).filled - 1)) := by
  decide

/-- What a frame decoder takes before a body, in each of its states, at the least. -/
theorem witness_Lead :
    Spec.Lead .init (List.replicate 7 false ++ List.replicate 6 true ++ [false]) ∧
    Spec.Lead .leadOnes (List.replicate 6 true ++ [false]) ∧ Spec.Lead .extraZero [true] ∧ Spec.Lead .data [] ∧
    Spec.Lead .trailing (bits [1, 1, 1, 1, 1, 1, 0]) :=
  ⟨⟨7, 6, by decide⟩, ⟨6, by decide⟩, rfl, rfl, rfl⟩

/-- V8: 28 bytes of zeros, whose frame of 256 bits just fits sessions of 64 bytes. -/
theorem witness_PipelineRoundTrip :
    (box [byteBuf 28 (List.replicate 28 0), byteBuf 64 [], byteBuf 28 []]).bufs[0]? =
      some ⟨28, .bytes ⟨bytes (List.replicate 28 0), []⟩⟩ ∧
    (box [byteBuf 28 (List.replicate 28 0), byteBuf 64 [], byteBuf 28 []]).bufs[1]? = some ⟨64, .bytes ⟨[], []⟩⟩ ∧
    (box [byteBuf 28 (List.replicate 28 0), byteBuf 64 [], byteBuf 28 []]).bufs[2]? = some ⟨28, .bytes ⟨[], []⟩⟩ ∧
    (EncSession.powerOn Config.defaultParams).a.order? = some .lsb ∧
    (DecSession.powerOn Config.defaultParams).c.order? = some .lsb ∧
    (EncSession.powerOn Config.defaultParams).b.nbytes = 64 ∧ (DecSession.powerOn Config.defaultParams).b.nbytes = 64 ∧
    7 ≤ (EncSession.powerOn Config.defaultParams).fe.z.toNat ∧ 6 ≤ (EncSession.powerOn Config.defaultParams).fe.o.toNat ∧
    9 + 6 + 1 + (stuff (Spec.bitsOfBytes .lsb (bytes (List.replicate 28 0)))).length + 16 ≤ 4 * 64 := by decide +kernel

/-- The sessions of power-on, with these sizes and contents of their buffers. -/
def encWith (a b c : BitBuffer) : EncSession := { EncSession.powerOn Config.defaultParams with a := a, b := b, c := c }

/-- An encode session's stops, on one payload byte `a5` (its frame is 40 bits): `ENC.A` full, a frame that does not fit
`ENC.B`, `ENC.C` with room for one bit, an output that is full; and, with flush 0, fewer than eight line bits. -/
theorem witness_EmptyInputStopsAtStageOne_encode :
    (∀ e ∈ [encWith (bitBuf 0 .lsb []) (bitBuf 5 .lsb []) (bitBuf 10 .msb []),
        encWith (bitBuf 1 .lsb []) (bitBuf 4 .lsb []) (bitBuf 10 .msb []),
        encWith (bitBuf 1 .lsb []) (bitBuf 5 .lsb []) (bitBuf 1 .msb [0, 0, 0, 0, 0, 0, 0]),
        encWith (bitBuf 1 .lsb []) (bitBuf 5 .lsb []) (bitBuf 10 .msb [])],
      ({ box [byteBuf 1 [0xa5], byteBuf 0 []] with encs := [e] } : State).encs[0]? = some e) ∧
    (box [byteBuf 1 [0xa5], byteBuf 0 []]).bufs[0]? = some ⟨1, .bytes (full (bytes [0xa5]))⟩ ∧
    (box [byteBuf 1 [0xa5], byteBuf 0 []]).bufs[1]? = some ⟨0, .bytes (full [])⟩ ∧
    0 < (full (bytes [0xa5])).filled ∧ 0 = min 1 ((8 * 0 - (full (bits [])).filled) / 8) ∧
    1 = min 1 ((8 * 1 - (full (bits [])).filled) / 8) ∧
    (List.replicate 9 false ++ List.replicate 6 true ++ [false] ++
      stuff ((full (bits [])).content ++ Spec.bitsOfBytes .lsb ((full (bytes [0xa5])).content.take 1)) ++
      Config.eofMarker ++ Config.sepMarker).length = 40 ∧
    8 * 4 < (full (bits [])).filled + 40 ∧ (full (bits [])).filled + 40 ≤ 8 * 5 ∧
    0 = min 40 ((8 * 1 - (full (bits [0, 0, 0, 0, 0, 0, 0])).filled) / 2) ∧
    40 = min 40 ((8 * 10 - (full (bits [])).filled) / 2) ∧ 0 < Spec.packedBytes false 80 ∧ 0 ≤ (full (bytes [])).filled ∧
    3 = min 40 ((8 * 1 - (full (bits [0])).filled) / 2) ∧ Spec.packedBytes false 7 = 0 := by decide

/-- A decode session's stops, on one idle line byte (four data bits 0): `DEC.B` full; runs
that are not confirmed; a separator that is not whole; no marker; a payload that does not fit; a payload of no bits. -/
theorem witness_EmptyInputStopsAtStageOne_decode :
    Spec.dataBits (((full (bits [])).content ++ Spec.bitsOfBytes .msb ((full (bytes [0])).content.take 1)).take (2 * 4)) =
      bits [0, 0, 0, 0] ∧
    (∀ i ∈ [(FdState.init, [0, 0, 0]), (.trailing, [1, 1]), (.data, [1, 0, 1]), (.data, List.replicate 124 0),
        (.data, waitingFrame.drop 7), (.data, (waitingFrame.drop 15))],
      (burstBox i.1 i.2).decs[0]? = some (burstSession i.1 i.2) ∧
      (burstSession i.1 i.2).b = ⟨64, .bits .lsb (full (bits i.2))⟩ ∧ (burstSession i.1 i.2).fd.st = i.1) ∧
    0 = min 4 (8 * 64 - (full (List.replicate 512 true)).filled) ∧
    bits [0, 0, 0] ++ bits [0, 0, 0, 0] = List.replicate 7 false ∧ (bits [1, 1] ++ bits [0, 0, 0, 0]).length < 7 ∧
    ¬ [true, true, true, true, true, true, true, true, false] <:+: bits [1, 0, 1] ++ bits [0, 0, 0, 0] ∧
    (bits (List.replicate 124 0) ++ bits [0, 0, 0, 0]).length = 128 ∧
    bits (waitingFrame.drop 7) ++ bits [0, 0, 0, 0] =
      stuff (bits [1, 1, 1, 1, 0, 0, 0, 0]) ++ Config.eofMarker ++ bits [1, 1, 1, 1, 1, 1, 0, 0, 0, 0, 0] ∧
    8 * 0 < (full (bits [])).filled + (bits [1, 1, 1, 1, 0, 0, 0, 0]).length ∧
    bits (waitingFrame.drop 15) ++ bits [0, 0, 0, 0] =
      [] ++ (stuff [] ++ Config.eofMarker ++ bits [1, 1, 1, 1, 1, 1, 0, 0, 0, 0, 0]) ∧
    Spec.packedBytes true ((full (bits [])).content ++ []).length = 0 ∧ 0 < Spec.packedBytes false 8 := by decide +kernel

/-- Any end buffers and the sessions of power-on, for the clause that a call is its stages; an empty input. -/
theorem witness_EmptyInputStopsAtStageOne :
    (∀ bi ∈ [byteBuf 1 [], bitBuf 1 .lsb [1], oddBuf], (box [bi, byteBuf 1 []]).bufs[0]? = some bi) ∧
    State.reset.encs[0]? = some (.powerOn Config.defaultParams) ∧
    State.reset.decs[0]? = some (.powerOn Config.defaultParams) ∧
    (box [byteBuf 1 [], byteBuf 1 []]).bufs[0]? = some ⟨1, .bytes ⟨[], []⟩⟩ ∧
    (box [byteBuf 1 [], byteBuf 1 []]).bufs[1]? = some (byteBuf 1 []) ∧
    (EncSession.powerOn Config.defaultParams).a.mode ≠ .reserved ∧
    (DecSession.powerOn Config.defaultParams).a.mode ≠ .reserved := by decide

theorem witness_WrongModesAreReportedInputFirst :
    (∀ bi ∈ [byteBuf 1 [], bitBuf 1 .lsb [], oddBuf], ∀ bo ∈ [byteBuf 1 [], oddBuf],
      (box [bi, bo]).bufs[0]? = some bi ∧ (box [bi, bo]).bufs[1]? = some bo ∧ 0 < (box [bi, bo]).xcs.length) ∧
    (byteBuf 1 []).order? = none ∧ oddBuf.order? = none ∧ (bitBuf 1 .lsb []).order? ≠ none ∧
    oddBuf.mode = .reserved ∧ (byteBuf 1 []).mode ≠ .reserved ∧
    0 < State.reset.xcs.length ∧ 0 < State.reset.bes.length ∧ 0 < State.reset.fes.length ∧ 0 < State.reset.fds.length := by
  decide

/-- In the order of the clauses: bits to bits, bytes to bytes, bits to bytes and bytes to bits of the transcoder, without
input and without room, and the two biphase units; and one full buffer as input and output. -/
theorem witness_TransientCodesOfLoopingStages :
    (∀ nb ∈ [0, 1], ∀ l ∈ [[], [1], [1, 1]],
      (box [bitBuf 1 .lsb l, bitBuf nb .msb []]).xcs[0]? = some ⟨false⟩ ∧
      0 < (box [bitBuf 1 .lsb l, bitBuf nb .msb []]).bes.length ∧
      (box [bitBuf 1 .lsb l, bitBuf nb .msb []]).bufs[0]? = some ⟨1, .bits .lsb (full (bits l))⟩ ∧
      (box [bitBuf 1 .lsb l, bitBuf nb .msb []]).bufs[1]? = some ⟨nb, .bits .msb (full [])⟩ ∧
      (box [bitBuf 1 .lsb l, byteBuf nb []]).bufs[1]? = some ⟨nb, .bytes (full [])⟩) ∧
    (full (bits [])).filled = 0 ∧ 0 < (full (bits [1])).filled ∧ 8 * 0 ≤ (full (bits [])).filled ∧
    (full (bits [1, 1])).filled < (if false then 1 else 8) ∧ (if true then 1 else 8) ≤ (full (bits [1])).filled ∧
    0 ≤ (full (bytes [])).filled ∧ (full (bits [1])).filled < 2 ∧ 2 ≤ (full (bits [1, 1])).filled ∧
    8 * 0 < (full (bits [])).filled + 2 ∧
    (box [byteBuf 1 [1], bitBuf 1 .lsb [1]]).bufs[0]? = some ⟨1, .bytes (full (bytes [1]))⟩ ∧
    (box [byteBuf 1 [1], bitBuf 1 .lsb [1]]).bufs[1]? = some ⟨1, .bits .lsb (full (bits [1]))⟩ ∧
    8 * 1 < (full (bits [1])).filled + 8 ∧ 0 < (full (bytes [1])).filled ∧ 1 ≤ (full (bytes [1])).filled ∧
    (box [byteBuf 1 [1], byteBuf 1 [1]]).bufs[1]? = some ⟨1, .bytes (full (bytes [1]))⟩ ∧
    (box [byteBuf 1 [], byteBuf 1 [1]]).bufs[0]? = some ⟨1, .bytes (full (bytes []))⟩ ∧
    (box [byteBuf 1 [], bitBuf 1 .lsb [1]]).bufs[0]? = some ⟨1, .bytes (full (bytes []))⟩ ∧
    (full (bytes [])).filled = 0 := by decide

theorem witness_ProcessAlwaysCompletes :
    0 < State.reset.bufs.length ∧ 2 < State.reset.bufs.length ∧ 0 ≠ 2 ∧ 0 < State.reset.xcs.length ∧
    0 < State.reset.bes.length ∧ 0 < State.reset.fes.length ∧ 0 < State.reset.fds.length ∧ 0 < State.reset.encs.length ∧
    0 < State.reset.decs.length := by decide

theorem witness_CodesByKind :
    answer (.xcReset 0) State.reset = some (.code .reset) ∧ answer (.frameEncConfig 0 .z 7) State.reset = some (.code .ok) ∧
    answer (.bmcDecProcess 2 0) State.reset = some (.code .invalidInputType) ∧
    answer (.x2dEncProcess 0 2 0 true) State.reset = some (.code .needInputData) := by decide

theorem witness_RetryChangesNothing :
    Instr.kind (.frameDecProcess 0 0 1) = .stage ∧
    answer (.frameDecProcess 0 0 1) (decBox .init [0, 0, 0, 0, 0, 0, 0, 1] 1) = some (.code .needInputData) ∧
    Instr.kind (.xcProcess 0 0 1) = .stage ∧
    answer (.xcProcess 0 0 1) (box [byteBuf 1 [1], bitBuf 1 .lsb [1]]) = some (.code .needOutputSpace) := by decide

/-- A primitive and the endless copy; and an act of each kind that takes all there is or fills its output. -/
theorem witness_OnlyPrimitivesFault :
    fault? (exec (.bufConsume 0 1) State.reset) = some .consumePastContent ∧
    fault? (exec (.xcProcess 0 0 0) (box [byteBuf 2 [7]])) = some .neverEnds ∧
    copyStep 1 () (full (bits [1])) (full []) = .done () 1 [true] ∧
    copyStep 1 () (full (bytes [7])) (full []) = .done () 1 [7] ∧
    packStep .msb 1 ⟨true⟩ (full (bits [1])) (full []) = .done ⟨true⟩ 1 [0x80] ∧
    unpackStep .lsb 8 () (full (bytes [1])) (full []) = .done () 1 (bits [1, 0, 0, 0, 0, 0, 0, 0]) ∧
    bmcEncStep 2 ⟨true⟩ (full (bits [1])) (full []) = .done ⟨true⟩ 1 (bits [0, 1]) ∧
    bmcDecStep 1 () (full (bits [0, 1])) (full []) = .done () 2 [true] ∧
    fdStep 1 .extraZero (full [true]) (full []) = .goOn .data 1 ∧
    fdStep 1 .data (full (bits [0, 1, 1, 1, 1, 1, 1, 1, 1, 0])) (full []) =
      .ret { code := .ok, st := .trailing, n := 10, us := [false] } := by decide

theorem witness_ResetAndConfigFrame :
    Instr.kind (.x2dEncReset 0) = .reset ∧ (next? (exec (.x2dEncReset 0) State.reset)).isSome = true ∧
    Instr.kind (.xcConfig 0 .flush 1) = .config ∧ (next? (exec (.xcConfig 0 .flush 1) State.reset)).isSome = true := by decide

theorem witness_PrimitiveFrame :
    Instr.kind (.bufWrite 0 63 1) = .buf ∧ (next? (exec (.bufWrite 0 63 1) State.reset)).isSome = true ∧
    Instr.kind (.bufProduce 0 0) = .buf ∧ (next? (exec (.bufProduce 0 0) State.reset)).isSome = true := by decide

theorem witness_ProcessFrame :
    Instr.kind (.bmcEncProcess 0 0 1) = .stage ∧ Instr.footprint (.bmcEncProcess 0 0 1) = { be := some 0, bufs := [0, 1] } ∧
    (next? (exec (.bmcEncProcess 0 0 1) (box [bitBuf 1 .lsb [1], bitBuf 1 .msb []]))).isSome = true ∧
    Instr.kind (.x2dDecProcess 0 2 1 false) = .pipeline ∧
    (next? (exec (.x2dDecProcess 0 2 1 false) State.reset)).isSome = true ∧
    Instr.footprint (.bmcEncProcess 0 0 0) = { be := some 0, bufs := [0, 0] } ∧
    (next? (exec (.bmcEncProcess 0 0 0) (box [bitBuf 1 .lsb [1]]))).isSome = true := by decide

/-- A full buffer as input and output is blocked at once; one with room is not. -/
theorem witness_LoopsStopOnlyWhenBlocked :
    0 < (full (bits [1])).filled ∧ (full (bits [1])).filled < 2 ∧ 0 < (full (bytes [7])).filled ∧
    (full (bytes [7])).filled < 2 := by decide

theorem witness_RegistersChangeOnlyByTheirOperations :
    (next? (exec (.xcConfig 0 .flush 1) State.reset)).map (·.xcs) = some [⟨true⟩] ∧
    (next? (exec (.frameEncConfig 0 .o 0) State.reset)).map (·.fes) = some [⟨false, 9, 0⟩] ∧
    (next? (exec (.frameEncReset 0) { State.reset with fes := [⟨true, 9, 6⟩] })).map (·.fes) = some [⟨false, 9, 6⟩] ∧
    (next? (exec (.x2dEncConfig 0 .z 0) State.reset)).map (fun t => t.encs.map (·.fe)) = some [⟨false, 0, 6⟩] ∧
    (next? (exec (.x2dEncReset 0) { State.reset with encs := [{ EncSession.powerOn Config.defaultParams with
      fe := ⟨true, 9, 6⟩ }] })).map (fun t => t.encs.map (·.fe)) = some [⟨false, 9, 6⟩] := by decide

theorem witness_ShapesNeverChange :
    (next? (exec (.x2dEncReset 0) State.reset)).map (fun t => (t.bufs, t.encs.length, t.decs.length)) =
      some (State.reset.bufs, 1, 1) := by decide

/-- Power-on, and a second state with another frame encoder and no call in common. -/
theorem witness_SessionsAreIsolated :
    Instr.kind (.bmcEncProcess 0 0 1) = .stage ∧
    AgreeOn (Instr.footprint (.bmcEncProcess 0 0 1)) State.reset { State.reset with fes := [], fresh := 5 } ∧
    (next? (exec (.bmcEncProcess 0 0 1) State.reset)).isSome = true :=
  ⟨rfl, ⟨fun _ _ => rfl, fun _ _ => rfl, fun _ h => (nomatch h), fun _ _ => rfl, fun _ _ => rfl, fun _ _ => rfl,
    fun _ _ => rfl⟩, by decide⟩

/-- In the invariant, with a frame decoder of a session resting in LEAD_ONES. -/
theorem witness_StepKeepsInvariant :
    State.inv { waiting { cmd := 0x71, args := { inp := 2, out := 1 } } with decs :=
      [{ DecSession.powerOn Config.defaultParams with fd := ⟨.leadOnes⟩, b := bitBuf 64 .lsb [1] }] } = true ∧
    (next? (step { waiting { cmd := 0x71, args := { inp := 2, out := 1 } } with decs :=
      [{ DecSession.powerOn Config.defaultParams with fd := ⟨.leadOnes⟩, b := bitBuf 64 .lsb [1] }] })).isSome = true := by
  decide

end Sys2Proof.Tests
end

section
/-!
How a step begins: what `takeCall` finds on the caller's list, and what `step` makes of it.
-/
namespace Sys2Proof.Machine

theorem State.takeCall_of_calls_nil {s : State} (h : s.calls = []) : s.takeCall = none := by
  simp only [State.takeCall, h]

theorem State.takeCall_of_calls_cons {s : State} {c : Call} {rest : List Call} (h : s.calls = c :: rest) :
    s.takeCall = some (c, { s with calls := rest }) := by
  simp only [State.takeCall, h]

theorem step_of_calls_nil {s : State} (h : s.calls = []) : step s = .next s := by
  simp only [step, State.takeCall_of_calls_nil h]

theorem step_of_decode_ok {s : State} {c : Command} {rest : List Call} {i : Instr}
    (hcalls : s.calls = .invoke c :: rest) (hdec : decode c = .ok i) :
    step s = exec i { s with calls := rest } := by
  simp only [step, State.takeCall_of_calls_cons hcalls, hdec]

/-- Settles O4: the waiting command and the empty list are the two lemmas about `step` above. -/
theorem stepRunsDecodedOperation : Obligations.StepRunsDecodedOperation :=
  ⟨fun _ _ _ _ hcalls hdec => step_of_decode_ok hcalls hdec, fun _ hcalls => step_of_calls_nil hcalls⟩

end Sys2Proof.Machine
end

section
/-!
What no operation takes from a buffer: its mode, its size and its canonical form. Every act of a stage fits into its
output, so every stage, on two buffers or on one, keeps the form of the buffers it works on (10_state.md R20, R21,
40_bitbuffer_ops.md R116).
-/
namespace Sys2Proof.Machine

variable {σ α β : Type}

/-! ### The form of a buffer -/

/-- A buffer before and after: same mode and size, and in canonical form if it was. -/
def BitBuffer.KeepsForm (B B' : BitBuffer) : Prop := B.SameShape B' ∧ (B.wf = true → B'.wf = true)

theorem BitBuffer.SameShape.refl (B : BitBuffer) : B.SameShape B := ⟨rfl, rfl⟩

theorem BitBuffer.KeepsForm.refl (B : BitBuffer) : B.KeepsForm B := ⟨.refl B, id⟩

theorem BitBuffer.KeepsForm.trans {B C D : BitBuffer} (h : B.KeepsForm C) (h' : C.KeepsForm D) : B.KeepsForm D :=
  ⟨⟨h'.1.1.trans h.1.1, h'.1.2.trans h.1.2⟩, fun hB => h'.2 (h.2 hB)⟩

theorem BitBuffer.KeepsForm.bytes {nb : Nat} {q q' : Fifo Byte} (h : q.wf nb = true → q'.wf nb = true) :
    BitBuffer.KeepsForm ⟨nb, .bytes q⟩ ⟨nb, .bytes q'⟩ := ⟨⟨rfl, rfl⟩, h⟩

theorem BitBuffer.KeepsForm.bits {nb : Nat} {order : BitOrder} {q q' : Fifo Bit}
    (h : q.wf (8 * nb) = true → q'.wf (8 * nb) = true) :
    BitBuffer.KeepsForm ⟨nb, .bits order q⟩ ⟨nb, .bits order q'⟩ := ⟨⟨rfl, by cases order <;> rfl⟩, h⟩

theorem BitBuffer.cleared_keepsForm (B : BitBuffer) : B.KeepsForm B.cleared := by
  refine ⟨?_, BitBuffer.cleared_wf⟩
  obtain ⟨nb, _ | ⟨_ | _, q⟩ | _⟩ := B <;> exact ⟨rfl, rfl⟩

/-- The bit order of a buffer in a mode (30_encoding.md R86). -/
def orderOfMode : Mode → Option BitOrder
  | .byte => none
  | .bitLsb => some .lsb
  | .bitMsb => some .msb
  | .reserved => none

theorem BitBuffer.order?_eq_orderOfMode (B : BitBuffer) : B.order? = orderOfMode B.mode := by
  obtain ⟨nb, _ | ⟨_ | _, q⟩ | _⟩ := B <;> rfl

theorem BitBuffer.SameShape.order?_eq {B B' : BitBuffer} (h : B.SameShape B') : B'.order? = B.order? := by
  rw [B'.order?_eq_orderOfMode, h.2, B.order?_eq_orderOfMode]

/-! ### Every act fits -/

/-- The units that a looping stage's step consumes are there, and what it puts out fits into `cap` units. -/
def StepFits (cap : Nat) (try1 : σ → Fifo α → Fifo β → StepTry σ β) : Prop :=
  ∀ st i o st' n us, try1 st i o = .done st' n us → n ≤ i.filled ∧ o.filled + us.length ≤ cap

/-- The same of the last act of an atomic stage, which may also put out nothing. -/
def Act.Fits (a : Act σ β) (cap : Nat) (i : Fifo α) (o : Fifo β) : Prop :=
  a.n ≤ i.filled ∧ (a.us = [] ∨ o.filled + a.us.length ≤ cap)

theorem Act.none_fits (rc : ResultCode) (st : σ) (cap : Nat) (i : Fifo α) (o : Fifo β) :
    (Act.none rc st : Act σ β).Fits cap i o := ⟨Nat.zero_le _, .inl rfl⟩

theorem Fifo.filled_pos_of_read?_zero {q : Fifo α} {u : α} (h : q.read? 0 = some u) : 1 ≤ q.filled :=
  (List.getElem?_eq_some_iff.mp h).1

theorem copyStep_fits (cap : Nat) : StepFits cap (copyStep cap : σ → Fifo α → Fifo α → StepTry σ α) := by
  intro st i o st' n us h
  unfold copyStep at h
  split at h
  · cases h
  next u hu =>
    split at h
    next hs =>
      cases h
      exact ⟨Fifo.filled_pos_of_read?_zero hu, (o.hasSpace_iff cap 0 1).mp hs⟩
    · cases h

theorem packStep_fits (order : BitOrder) (cap : Nat) : StepFits cap (packStep order cap) := by
  intro st i o st' n us h
  unfold packStep at h
  simp only at h
  by_cases hk : (if st.flush then 1 else 8) ≤ min 8 i.filled
  · rw [if_pos hk] at h
    split at h
    next hs =>
      cases h
      exact ⟨min_le_right _ _, (o.hasSpace_iff cap 0 1).mp hs⟩
    · cases h
  · rw [if_neg hk] at h
    cases h

theorem unpackStep_fits (order : BitOrder) (cap : Nat) :
    StepFits cap (unpackStep order cap : σ → Fifo Byte → Fifo Bit → StepTry σ Bit) := by
  intro st i o st' n us h
  unfold unpackStep at h
  split at h
  · cases h
  next v hv =>
    split at h
    next hs =>
      cases h
      rw [unpackByte_length]
      exact ⟨Fifo.filled_pos_of_read?_zero hv, (o.hasSpace_iff cap 0 8).mp hs⟩
    · cases h

theorem bmcEncStep_fits (cap : Nat) : StepFits cap (bmcEncStep cap) := by
  intro st i o st' n us h
  unfold bmcEncStep at h
  split at h
  · cases h
  next b hb =>
    split at h
    next hs =>
      cases h
      exact ⟨Fifo.filled_pos_of_read?_zero hb, (o.hasSpace_iff cap 0 2).mp hs⟩
    · cases h

theorem bmcDecStep_fits (cap : Nat) : StepFits cap (bmcDecStep cap) := by
  intro st i o st' n us h
  unfold bmcDecStep at h
  split at h
  next h0 h1 hr0 hr1 =>
    split at h
    next hs =>
      cases h
      exact ⟨(List.getElem?_eq_some_iff.mp hr1).1, (o.hasSpace_iff cap 0 1).mp hs⟩
    · cases h
  · cases h

theorem frameEncAct_fits (fe : FrameEnc) (cap : Nat) (i o : Fifo Bit) : (frameEncAct fe cap i o).Fits cap i o := by
  unfold frameEncAct
  split
  · exact Act.none_fits ..
  · simp only
    split
    next hs => exact ⟨le_refl _, .inr ((o.hasSpace_iff cap 0 _).mp hs)⟩
    · exact Act.none_fits ..

theorem findMarker_le {bs : List Bit} {p : Nat} (h : findMarker bs = some p) :
    p + Config.eofMarker.length ≤ bs.length := by
  induction bs generalizing p with
  | nil => cases h
  | cons b bs ih =>
    unfold findMarker at h
    split at h
    next hm =>
      cases h
      rw [Nat.zero_add]
      exact (List.isPrefixOf_iff_prefix.mp hm).length_le
    · obtain ⟨p', hp', rfl⟩ := Option.map_eq_some_iff.mp h
      have := ih hp'
      rw [List.length_cons]
      omega

/-- The act with which the frame decoder returns fits (44_frame_decoder.md R192 to R197). -/
theorem fdStep_ret_fits {cap : Nat} {st : FdState} {i o : Fifo Bit} {a : Act FdState Bit}
    (h : fdStep cap st i o = .ret a) : a.Fits cap i o := by
  cases st <;> simp only [fdStep] at h
  case init =>
    unfold stepInit at h
    split at h <;> cases h
    exact Act.none_fits ..
  case leadOnes =>
    unfold stepLeadOnes at h
    split at h <;> cases h
    exact Act.none_fits ..
  case extraZero =>
    unfold stepExtraZero at h
    split at h <;> cases h
    exact Act.none_fits ..
  case data =>
    unfold stepData at h
    split at h <;> cases h
    · split
      · exact ⟨le_refl _, .inl rfl⟩
      · exact Act.none_fits ..
    next p hp =>
      split
      next hs => exact ⟨findMarker_le hp, .inr ((o.hasSpace_iff cap 0 _).mp hs)⟩
      · exact Act.none_fits ..
  case trailing =>
    unfold stepTrailing at h
    split at h <;> cases h
    exact Act.none_fits ..

/-! ### Stages on the units of two buffers, and of one -/

/-- A transaction on the units of two buffers keeps the canonical form of the input, whatever its capacity, and of an
output of `cap` units. -/
def FifoResult.KeepsWf (r : FifoResult σ α β) (cap : Nat) (i : Fifo α) (o : Fifo β) : Prop :=
  (∀ c, i.wf c = true → r.inp.wf c = true) ∧ (o.wf cap = true → r.out.wf cap = true)

theorem loopSteps_keepsWf {cap : Nat} {try1 : σ → Fifo α → Fifo β → StepTry σ β} (hfit : StepFits cap try1)
    (fuel : Nat) (progress : Bool) (st : σ) (i : Fifo α) (o : Fifo β) :
    (loopSteps try1 fuel progress st i o).KeepsWf cap i o := by
  induction fuel generalizing progress st i o with
  | zero => exact ⟨fun _ => id, id⟩
  | succ fuel ih =>
    cases hs : try1 st i o with
    | done st' n us =>
      rw [loopSteps_done hs]
      obtain ⟨hinp, hout⟩ := ih true st' (i.consume n) (o.emit us)
      exact ⟨fun c hi => hinp c (Fifo.consume_wf hi n), fun ho => hout (Fifo.emit_wf ho (hfit _ _ _ _ _ _ hs).2)⟩
    | blocked rc =>
      rw [loopSteps_blocked hs]
      exact ⟨fun _ => id, id⟩

theorem loopOne_wf {cap : Nat} {try1 : σ → Fifo α → Fifo α → StepTry σ α} (hfit : StepFits cap try1) {fuel : Nat}
    {progress : Bool} {st : σ} {q : Fifo α} {r : OneFifoResult σ α} (h : loopOne try1 fuel progress st q = some r)
    (hq : q.wf cap = true) : r.buf.wf cap = true := by
  induction fuel generalizing progress st q with
  | zero => cases h
  | succ fuel ih =>
    cases hs : try1 st q q with
    | done st' n us =>
      rw [loopOne_done hs] at h
      exact ih h (Fifo.consume_wf (Fifo.emit_wf hq (hfit _ _ _ _ _ _ hs).2) n)
    | blocked rc =>
      rw [loopOne_blocked hs] at h
      cases h
      exact hq

theorem Act.Fits.emit_wf {a : Act σ β} {cap : Nat} {i : Fifo α} {o : Fifo β} (h : a.Fits cap i o)
    (ho : o.wf cap = true) : (o.emit a.us).wf cap = true := by
  rcases h.2 with hnil | hs
  · rwa [hnil, Fifo.emit_nil]
  · exact Fifo.emit_wf ho hs

theorem Act.Fits.two_keepsWf {a : Act σ β} {cap : Nat} {i : Fifo α} {o : Fifo β} (h : a.Fits cap i o) :
    (a.two i o).KeepsWf cap i o := ⟨fun _ hi => Fifo.consume_wf hi a.n, h.emit_wf⟩

theorem Act.Fits.one_wf {a : Act σ α} {cap : Nat} {q : Fifo α} (h : a.Fits cap q q) (hq : q.wf cap = true) :
    (a.one q).buf.wf cap = true := Fifo.consume_wf (h.emit_wf hq) a.n

theorem fdRun_keepsWf (cap : Nat) (st : FdState) (i o : Fifo Bit) : (fdRun cap st i o).KeepsWf cap i o :=
  fdRun_induct (P := fun _ i r => r.KeepsWf cap i o) (fun _ _ _ hs => (fdStep_ret_fits hs).two_keepsWf)
    (fun _ _ _ n _ _ hr => ⟨fun c hi => hr.1 c (Fifo.consume_wf hi n), hr.2⟩) st i

theorem fdRunOne_wf {cap : Nat} (st : FdState) {q : Fifo Bit} (hq : q.wf cap = true) :
    (fdRunOne cap st q).buf.wf cap = true :=
  fdRunOne_induct (P := fun _ q r => q.wf cap = true → r.buf.wf cap = true)
    (fun _ _ _ hs hq => (fdStep_ret_fits hs).one_wf hq) (fun _ _ _ n _ _ hr hq => hr (Fifo.consume_wf hq n)) st q hq

/-! ### Stages on buffers -/

/-- A stage, on two buffers and on one, keeps the form of the buffers it works on. -/
structure StageKeepsForm (two : BitBuffer → BitBuffer → StageResult σ) (one : BitBuffer → Option (OneResult σ)) :
    Prop where
  inp : ∀ i o : BitBuffer, i.KeepsForm (two i o).inp
  out : ∀ i o : BitBuffer, o.KeepsForm (two i o).out
  one : ∀ (b : BitBuffer) r, one b = some r → b.KeepsForm r.buf

/-- A stage that works on bit buffers only keeps their form where its body keeps the canonical form of the units. -/
theorem onBits_keepsForm (st : σ) {body : Nat → Fifo Bit → Fifo Bit → FifoResult σ Bit Bit}
    {bodyOne : Nat → Fifo Bit → Option (OneFifoResult σ Bit)} (htwo : ∀ cap i o, (body cap i o).KeepsWf cap i o)
    (hone : ∀ cap q r, bodyOne cap q = some r → q.wf cap = true → r.buf.wf cap = true) :
    StageKeepsForm (fun i o => onBits st i o body) (fun b => onOneBits st b bodyOne) where
  inp := by
    rintro ⟨ni, _ | ⟨oi, iq⟩ | _⟩ ⟨no, _ | ⟨oo, oq⟩ | _⟩
    case bits.bits => exact .bits ((htwo (8 * no) iq oq).1 _)
    all_goals exact .refl _
  out := by
    rintro ⟨ni, _ | ⟨oi, iq⟩ | _⟩ ⟨no, _ | ⟨oo, oq⟩ | _⟩
    case bits.bits => exact .bits (htwo (8 * no) iq oq).2
    all_goals exact .refl _
  one := by
    rintro ⟨nb, _ | ⟨order, q⟩ | _⟩ r h
    case bits =>
      obtain ⟨r', hr', rfl⟩ := Option.map_eq_some_iff.mp h
      exact .bits (hone _ _ _ hr')
    all_goals cases h; exact .refl _

theorem bmcEnc_keepsForm (be : BiphaseEnc) : StageKeepsForm (bmcEncProcess be) (bmcEncOne be) :=
  onBits_keepsForm be (fun cap _ _ => loopSteps_keepsWf (bmcEncStep_fits cap) ..)
    fun cap _ _ h => loopOne_wf (bmcEncStep_fits cap) h

theorem bmcDec_keepsForm : StageKeepsForm bmcDecProcess bmcDecOne :=
  onBits_keepsForm () (fun cap _ _ => loopSteps_keepsWf (bmcDecStep_fits cap) ..)
    fun cap _ _ h => loopOne_wf (bmcDecStep_fits cap) h

theorem frameEnc_keepsForm (fe : FrameEnc) : StageKeepsForm (frameEncProcess fe) (frameEncOne fe) :=
  onBits_keepsForm fe (fun cap i o => (frameEncAct_fits fe cap i o).two_keepsWf)
    fun cap q _ h => Option.some.inj h ▸ (frameEncAct_fits fe cap q q).one_wf

theorem frameDec_keepsForm (fd : FrameDec) : StageKeepsForm (frameDecProcess fd) (frameDecOne fd) :=
  onBits_keepsForm fd (fun cap i o => fdRun_keepsWf cap fd.st i o) fun _ _ _ h => Option.some.inj h ▸ fdRunOne_wf fd.st

/-- Each of the transcoder's four cases is a loop whose steps fit. -/
theorem xcProcess_keepsForm (x : Xc) (i o : BitBuffer) :
    i.KeepsForm (xcProcess x i o).inp ∧ o.KeepsForm (xcProcess x i o).out := by
  obtain ⟨ni, _ | ⟨oi, iq⟩ | _⟩ := i <;> obtain ⟨no, _ | ⟨oo, oq⟩ | _⟩ := o
  case bytes.bytes iq oq =>
    obtain ⟨hinp, hout⟩ := loopSteps_keepsWf (copyStep_fits no) (iq.filled + 1) false x iq oq
    exact ⟨.bytes (hinp _), .bytes hout⟩
  case bytes.bits iq =>
    obtain ⟨hinp, hout⟩ := loopSteps_keepsWf (unpackStep_fits oo (8 * no)) (iq.filled + 1) false x iq oq
    exact ⟨.bytes (hinp _), .bits hout⟩
  case bits.bytes oq =>
    obtain ⟨hinp, hout⟩ := loopSteps_keepsWf (packStep_fits oi no) (iq.filled + 1) false x iq oq
    exact ⟨.bits (hinp _), .bytes hout⟩
  case bits.bits =>
    obtain ⟨hinp, hout⟩ := loopSteps_keepsWf (copyStep_fits (8 * no)) (iq.filled + 1) false x iq oq
    exact ⟨.bits (hinp _), .bits hout⟩
  all_goals exact ⟨.refl _, .refl _⟩

/-- The transcoder on one buffer changes nothing where it ends. -/
theorem xcOne_eq_some {x : Xc} {b : BitBuffer} {r : OneResult Xc} (h : xcOne x b = some r) : r.st = x ∧ r.buf = b := by
  obtain ⟨nb, q | ⟨order, q⟩ | _⟩ := b
  · rw [xcOne_bytes] at h
    split_ifs at h <;> cases h <;> exact ⟨rfl, rfl⟩
  · rw [xcOne_bits] at h
    split_ifs at h <;> cases h <;> exact ⟨rfl, rfl⟩
  · cases h
    exact ⟨rfl, rfl⟩

theorem xc_keepsForm (x : Xc) : StageKeepsForm (xcProcess x) (xcOne x) where
  inp i o := (xcProcess_keepsForm x i o).1
  out i o := (xcProcess_keepsForm x i o).2
  one b r h := by rw [(xcOne_eq_some h).2]; exact .refl b

/-- A pipeline keeps the form of its end buffers where its two parts do. -/
theorem pipe_keepsForm {front : BitBuffer → OneResult σ} {back : σ → BitBuffer → OneResult σ}
    (hfront : ∀ i : BitBuffer, i.KeepsForm (front i).buf)
    (hback : ∀ (u : σ) (o : BitBuffer), o.KeepsForm (back u o).buf) :
    StageKeepsForm (pipeTwo front back) (fun b => some (pipeOne front back b)) where
  inp i o := by
    by_cases hok : (front i).code = .ok
    · rw [pipeTwo_ok _ _ _ _ hok]
      exact hfront i
    · rw [pipeTwo_stop _ _ _ _ hok]
      exact hfront i
  out i o := by
    by_cases hok : (front i).code = .ok
    · rw [pipeTwo_ok _ _ _ _ hok]
      exact hback _ o
    · rw [pipeTwo_stop _ _ _ _ hok]
      exact .refl o
  one b r h := by
    cases h
    unfold pipeOne
    simp only
    split
    · exact hfront b
    · exact (hfront b).trans (hback _ _)

end Sys2Proof.Machine
end

section
/-!
Where the frame decoder rests: never in EXTRA_ZERO, unless it began there, and in LEAD_ONES on buffered ones only
(44_frame_decoder.md R192 to R194).
-/
namespace Sys2Proof.Machine

/-! ### Runs -/

/-- A run that is not confirmed is all there is. -/
theorem eq_head_of_confirmedRun_none {v : Bit} {t : List Bit} (h : confirmedRun (v :: t) = none) : ∀ b ∈ t, b = v := by
  unfold confirmedRun at h
  simp only [ite_eq_right_iff, reduceCtorEq, imp_false, List.length_cons] at h
  have hall : t.takeWhile (· == v) = t := (List.takeWhile_prefix _).eq_of_length_le (by omega)
  exact fun b hb => eq_of_beq (List.takeWhile_eq_self_iff.mp hall b hb)

/-- Behind a confirmed run stands a bit of the other value. -/
theorem head?_drop_of_confirmedRun {bs : List Bit} {v : Bit} {r : Nat} (h : confirmedRun bs = some (v, r)) :
    (bs.drop r).head? = some (!v) := by
  unfold confirmedRun at h
  split at h
  · cases h
  next w t =>
    simp only [Option.ite_none_right_eq_some, Option.some.injEq, Prod.mk.injEq, List.length_cons] at h
    obtain ⟨hlt, rfl, rfl⟩ := h
    have happend : t.takeWhile (· == w) ++ t.dropWhile (· == w) = t := List.takeWhile_append_dropWhile
    have hdrop : (t.takeWhile (· == w) ++ t.dropWhile (· == w)).drop (t.takeWhile (· == w)).length =
        t.dropWhile (· == w) := List.drop_left
    rw [happend] at hdrop
    have hother := List.head?_dropWhile_not (· == w) t
    rw [Nat.add_comm 1, List.drop_succ_cons, hdrop]
    cases hd : t.dropWhile (· == w) with
    | nil =>
      rw [hd, List.append_nil] at happend
      rw [happend] at hlt
      omega
    | cons b rest =>
      rw [hd] at hother
      exact congrArg some (Bool.eq_not_iff.mpr (by simpa using hother))

/-! ### Steps -/

/-- What the input begins with where a step has gone on into a state. -/
def FdState.Entered (st : FdState) (bs : List Bit) : Prop :=
  match st with
  | .leadOnes => bs.head? = some true
  | .extraZero => bs ≠ []
  | .init => True
  | .data => True
  | .trailing => True

/-- What is left of the input where a transaction rests in a state: ones, at least one, in LEAD_ONES; it never rests in
EXTRA_ZERO. -/
def FdState.Rests (st : FdState) (bs : List Bit) : Prop :=
  match st with
  | .leadOnes => bs ≠ [] ∧ ∀ b ∈ bs, b = true
  | .extraZero => False
  | .init => True
  | .data => True
  | .trailing => True

theorem fdStep_goOn_entered {cap n : Nat} {st st' : FdState} {i o : Fifo Bit} (h : fdStep cap st i o = .goOn st' n) :
    st'.Entered (i.content.drop n) := by
  cases st <;> simp only [fdStep] at h
  case init =>
    unfold stepInit at h
    split at h
    · cases h
    next v r hr =>
      split at h <;> cases h
      next hv =>
        have := head?_drop_of_confirmedRun hr
        rwa [hv.1] at this
      · trivial
  case leadOnes =>
    unfold stepLeadOnes at h
    split at h
    · cases h
    next v r hr =>
      split at h <;> cases h
      · intro hnil
        have := head?_drop_of_confirmedRun hr
        simp [hnil] at this
      · trivial
  case extraZero =>
    unfold stepExtraZero at h
    split at h <;> cases h
    trivial
  case data =>
    unfold stepData at h
    split at h <;> cases h
  case trailing =>
    unfold stepTrailing at h
    split at h <;> cases h
    trivial

/-- A return in LEAD_ONES or EXTRA_ZERO is a wait there. -/
theorem fdStep_ret_waits {cap : Nat} {st : FdState} {i o : Fifo Bit} {a : Act FdState Bit}
    (h : fdStep cap st i o = .ret a) :
    (a.st = .leadOnes → st = .leadOnes ∧ a.n = 0 ∧ confirmedRun i.content = none) ∧
    (a.st = .extraZero → st = .extraZero ∧ i.content = []) := by
  cases st <;> simp only [fdStep] at h
  case init =>
    unfold stepInit at h
    split at h <;> cases h
    exact ⟨nofun, nofun⟩
  case leadOnes =>
    unfold stepLeadOnes at h
    split at h <;> cases h
    next hr => exact ⟨fun _ => ⟨rfl, rfl, hr⟩, nofun⟩
  case extraZero =>
    unfold stepExtraZero at h
    split at h <;> cases h
    next hav =>
      rw [Fifo.hasAvailable_iff] at hav
      exact ⟨nofun, fun _ => ⟨rfl, List.length_eq_zero_iff.mp (by simp only [Fifo.filled] at hav; omega)⟩⟩
  case data =>
    unfold stepData at h
    split at h <;> cases h <;> split <;> exact ⟨nofun, nofun⟩
  case trailing =>
    unfold stepTrailing at h
    split at h <;> cases h
    exact ⟨nofun, nofun⟩

theorem fdStep_ret_rests {cap : Nat} {st : FdState} {i o : Fifo Bit} {a : Act FdState Bit}
    (h : fdStep cap st i o = .ret a) (hst : st.Entered i.content) : a.st.Rests (i.content.drop a.n) := by
  obtain ⟨hlead, hextra⟩ := fdStep_ret_waits h
  cases ha : a.st with
  | init => trivial
  | data => trivial
  | trailing => trivial
  | extraZero =>
    obtain ⟨rfl, hnil⟩ := hextra ha
    exact hst hnil
  | leadOnes =>
    obtain ⟨rfl, hn, hrun⟩ := hlead ha
    rw [hn, List.drop_zero]
    rcases hc : i.content with _ | ⟨v, t⟩
    · rw [hc] at hst
      cases hst
    · rw [hc] at hst hrun
      cases hst
      exact ⟨List.cons_ne_nil _ _, List.forall_mem_cons.mpr ⟨rfl, eq_head_of_confirmedRun_none hrun⟩⟩

/-! ### Transactions -/

theorem fdRun_rests (cap : Nat) {st : FdState} {i : Fifo Bit} (o : Fifo Bit) (hst : st.Entered i.content) :
    (fdRun cap st i o).st.Rests (fdRun cap st i o).inp.content := by
  refine fdRun_induct (P := fun st i r => st.Entered i.content → r.st.Rests r.inp.content) ?_ ?_ st i hst
  · intro st i a hs hst
    simpa [Act.two] using fdStep_ret_rests hs hst
  · intro st i st' n r hs hr _
    exact hr (by simpa using fdStep_goOn_entered hs)

/-- What keeps a frame decoder from waiting in EXTRA_ZERO: it is not there, or there is a bit to take. -/
def FdState.PassesExtraZero (st : FdState) (i : Fifo Bit) : Prop := st = .extraZero → i.content ≠ []

theorem fdStep_goOn_passesExtraZero {cap n : Nat} {st st' : FdState} {i o : Fifo Bit}
    (h : fdStep cap st i o = .goOn st' n) : st'.PassesExtraZero (i.consume n) := by
  rintro rfl
  rw [Fifo.consume_content]
  exact fdStep_goOn_entered h

theorem fdStep_ret_ne_extraZero {cap : Nat} {st : FdState} {i o : Fifo Bit} {a : Act FdState Bit}
    (h : fdStep cap st i o = .ret a) (hst : st.PassesExtraZero i) : a.st ≠ .extraZero := fun ha =>
  have ⟨heq, hnil⟩ := (fdStep_ret_waits h).2 ha
  hst heq hnil

theorem fdRun_ne_extraZero (cap : Nat) {st : FdState} (i o : Fifo Bit) (hst : st ≠ .extraZero) :
    (fdRun cap st i o).st ≠ .extraZero :=
  fdRun_induct (P := fun st i r => st.PassesExtraZero i → r.st ≠ .extraZero)
    (fun _ _ _ hs => fdStep_ret_ne_extraZero hs) (fun _ _ _ _ _ hs hr _ => hr (fdStep_goOn_passesExtraZero hs)) st i
    fun heq => absurd heq hst

theorem fdRunOne_ne_extraZero (cap : Nat) {st : FdState} (q : Fifo Bit) (hst : st ≠ .extraZero) :
    (fdRunOne cap st q).st ≠ .extraZero :=
  fdRunOne_induct (P := fun st q r => st.PassesExtraZero q → r.st ≠ .extraZero)
    (fun _ _ _ hs => fdStep_ret_ne_extraZero hs) (fun _ _ _ _ _ hs hr _ => hr (fdStep_goOn_passesExtraZero hs)) st q
    fun heq => absurd heq hst

theorem frameDecProcess_ne_extraZero {fd : FrameDec} (i o : BitBuffer) (hfd : fd.st ≠ .extraZero) :
    (frameDecProcess fd i o).st.st ≠ .extraZero := by
  obtain ⟨ni, _ | ⟨oi, iq⟩ | _⟩ := i
  case bits =>
    obtain ⟨no, _ | ⟨oo, oq⟩ | _⟩ := o
    case bits => exact fdRun_ne_extraZero (8 * no) iq oq hfd
    all_goals exact hfd
  all_goals exact hfd

theorem frameDecOne_ne_extraZero {fd : FrameDec} {b : BitBuffer} {r : OneResult FrameDec}
    (h : frameDecOne fd b = some r) (hfd : fd.st ≠ .extraZero) : r.st.st ≠ .extraZero := by
  obtain ⟨nb, _ | ⟨order, q⟩ | _⟩ := b <;> cases h
  case bits => exact fdRunOne_ne_extraZero (8 * nb) q hfd
  all_goals exact hfd

end Sys2Proof.Machine
end

section
/-!
What the operations on a session do to its buffers and its frame decoder (45_pipeline.md R221 to R227): each keeps the
form of the three buffers, and each leaves a decode session as well-formed as it was.
-/
namespace Sys2Proof.Machine

/-! ### Encode sessions -/

/-- An encode session before and after: each of its buffers keeps its form. -/
def EncSession.KeepsForm (e e' : EncSession) : Prop :=
  e.a.KeepsForm e'.a ∧ e.b.KeepsForm e'.b ∧ e.c.KeepsForm e'.c

theorem EncSession.KeepsForm.refl (e : EncSession) : e.KeepsForm e := ⟨.refl _, .refl _, .refl _⟩

theorem EncSession.KeepsForm.trans {e f g : EncSession} (h : e.KeepsForm f) (h' : f.KeepsForm g) : e.KeepsForm g :=
  ⟨h.1.trans h'.1, h.2.1.trans h'.2.1, h.2.2.trans h'.2.2⟩

theorem EncSession.reset_keepsForm (e : EncSession) : e.KeepsForm e.reset :=
  ⟨e.a.cleared_keepsForm, e.b.cleared_keepsForm, e.c.cleared_keepsForm⟩

theorem x2dEncFront_keepsForm (e : EncSession) (flush : Bool) (i : BitBuffer) :
    i.KeepsForm (x2dEncFront e flush i).buf ∧ e.KeepsForm (x2dEncFront e flush i).st := by
  obtain ⟨hi, ha⟩ := xcProcess_keepsForm (e.setFlush flush).xc1 i e.a
  unfold x2dEncFront
  simp only
  split
  · exact ⟨hi, ha, .refl _, .refl _⟩
  have frame := frameEnc_keepsForm e.fe
  split
  · exact ⟨hi, ha.trans (frame.inp _ _), frame.out _ _, .refl _⟩
  have biphase := bmcEnc_keepsForm e.be
  exact ⟨hi, ha.trans (frame.inp _ _), (frame.out _ _).trans (biphase.inp _ _), biphase.out _ _⟩

theorem x2dEncBack_keepsForm (e : EncSession) (o : BitBuffer) :
    o.KeepsForm (x2dEncBack e o).buf ∧ e.KeepsForm (x2dEncBack e o).st :=
  have ⟨hc, ho⟩ := xcProcess_keepsForm e.xc2 e.c o
  ⟨ho, .refl _, .refl _, hc⟩

theorem x2dEnc_keepsForm (e : EncSession) (flush : Bool) : StageKeepsForm (x2dEncProcess e flush) (x2dEncOne e flush) :=
  pipe_keepsForm (fun i => (x2dEncFront_keepsForm e flush i).1) fun u o => (x2dEncBack_keepsForm u o).1

theorem EncSession.wf_iff (e : EncSession) :
    e.wf = true ↔ (e.a.wf = true ∧ e.b.wf = true ∧ e.c.wf = true) ∧
      e.a.order?.isSome = true ∧ e.b.order? = some .lsb ∧ e.c.order? = some .msb := by
  simp only [EncSession.wf, Bool.and_eq_true, beq_iff_eq, and_assoc]

/-- Nothing but its buffers' form makes an encode session well-formed. -/
theorem EncSession.KeepsForm.wf {e e' : EncSession} (h : e.KeepsForm e') (he : e.wf = true) : e'.wf = true := by
  obtain ⟨⟨hsa, hwa⟩, ⟨hsb, hwb⟩, ⟨hsc, hwc⟩⟩ := h
  rw [EncSession.wf_iff] at he ⊢
  rw [hsa.order?_eq, hsb.order?_eq, hsc.order?_eq]
  exact ⟨⟨hwa he.1.1, hwb he.1.2.1, hwc he.1.2.2⟩, he.2⟩

theorem EncSession.powerOn_wf (p : Config.Params) : (EncSession.powerOn p).wf = true :=
  (EncSession.wf_iff _).mpr ⟨⟨Fifo.empty_wf _, Fifo.empty_wf _, Fifo.empty_wf _⟩, rfl, rfl, rfl⟩

/-! ### Decode sessions -/

/-- A decode session before and after: each of its buffers keeps its form. -/
def DecSession.KeepsForm (d d' : DecSession) : Prop :=
  d.a.KeepsForm d'.a ∧ d.b.KeepsForm d'.b ∧ d.c.KeepsForm d'.c

theorem DecSession.KeepsForm.trans {d e f : DecSession} (h : d.KeepsForm e) (h' : e.KeepsForm f) : d.KeepsForm f :=
  ⟨h.1.trans h'.1, h.2.1.trans h'.2.1, h.2.2.trans h'.2.2⟩

theorem DecSession.reset_keepsForm (d : DecSession) : d.KeepsForm d.reset :=
  ⟨d.a.cleared_keepsForm, d.b.cleared_keepsForm, d.c.cleared_keepsForm⟩

theorem x2dDecFront_keepsForm (d : DecSession) (flush : Bool) (i : BitBuffer) :
    i.KeepsForm (x2dDecFront d flush i).buf ∧ d.KeepsForm (x2dDecFront d flush i).st := by
  obtain ⟨hi, ha⟩ := xcProcess_keepsForm (d.setFlush flush).xc1 i d.a
  unfold x2dDecFront
  simp only
  split
  · exact ⟨hi, ha, .refl _, .refl _⟩
  have biphase := bmcDec_keepsForm
  split
  · exact ⟨hi, ha.trans (biphase.inp _ _), biphase.out _ _, .refl _⟩
  have frame := frameDec_keepsForm d.fd
  exact ⟨hi, ha.trans (biphase.inp _ _), (biphase.out _ _).trans (frame.inp _ _), frame.out _ _⟩

theorem x2dDecBack_keepsForm (d : DecSession) (o : BitBuffer) :
    o.KeepsForm (x2dDecBack d o).buf ∧ d.KeepsForm (x2dDecBack d o).st :=
  have ⟨hc, ho⟩ := xcProcess_keepsForm d.xc2 d.c o
  ⟨ho, .refl _, .refl _, hc⟩

theorem x2dDec_keepsForm (d : DecSession) (flush : Bool) : StageKeepsForm (x2dDecProcess d flush) (x2dDecOne d flush) :=
  pipe_keepsForm (fun i => (x2dDecFront_keepsForm d flush i).1) fun u o => (x2dDecBack_keepsForm u o).1

/-! ### The frame decoder of a session -/

/-- The bits of a buffer, none where it is no bit buffer. -/
def BitBuffer.bitsD (B : BitBuffer) : List Bit := B.bits?.getD []

theorem BitBuffer.eq_bits_of_order? {B : BitBuffer} (h : B.order?.isSome = true) :
    ∃ nb order q, B = ⟨nb, .bits order q⟩ := by
  obtain ⟨nb, _ | ⟨order, q⟩ | _⟩ := B
  case bits => exact ⟨nb, order, q, rfl⟩
  all_goals cases h

theorem DecSession.wf_iff (d : DecSession) :
    d.wf = true ↔ (d.a.wf = true ∧ d.b.wf = true ∧ d.c.wf = true) ∧
      (d.a.order? = some .msb ∧ d.b.order? = some .lsb ∧ d.c.order?.isSome = true) ∧ d.fd.st.Rests d.b.bitsD := by
  have hrests : d.fd.st.Rests d.b.bitsD ↔
      d.fd.st ≠ .extraZero ∧ (d.fd.st ≠ .leadOnes ∨ (d.b.bitsD.all id = true ∧ d.b.bitsD ≠ [])) := by
    cases d.fd.st <;> simp [FdState.Rests, and_comm]
  simp only [DecSession.wf, Bool.and_eq_true, Bool.or_eq_true, bne_iff_ne, beq_iff_eq, and_assoc]
  rw [hrests, BitBuffer.bitsD]

/-- A decode session is as well-formed as it was where its buffers keep their form and its frame decoder rests well. -/
theorem DecSession.KeepsForm.wf {d d' : DecSession} (h : d.KeepsForm d') (hrests : d'.fd.st.Rests d'.b.bitsD)
    (hd : d.wf = true) : d'.wf = true := by
  obtain ⟨⟨hsa, hwa⟩, ⟨hsb, hwb⟩, ⟨hsc, hwc⟩⟩ := h
  rw [DecSession.wf_iff] at hd ⊢
  obtain ⟨⟨ha, hb, hc⟩, horders, -⟩ := hd
  rw [hsa.order?_eq, hsb.order?_eq, hsc.order?_eq]
  exact ⟨⟨hwa ha, hwb hb, hwc hc⟩, horders, hrests⟩

theorem DecSession.rests_of_wf {d : DecSession} (hd : d.wf = true) : d.fd.st.Rests d.b.bitsD := (d.wf_iff.mp hd).2.2

/-- Bits that join what a resting decoder has buffered let its next step go on as its last did. -/
theorem FdState.Rests.entered_append {st : FdState} {bs : List Bit} (h : st.Rests bs) (us : List Bit) :
    st.Entered (bs ++ us) := by
  cases st with
  | leadOnes =>
    obtain ⟨hne, hall⟩ := h
    obtain ⟨b, t, rfl⟩ := List.exists_cons_of_ne_nil hne
    exact congrArg some (hall b (List.mem_cons_self ..))
  | extraZero => exact h.elim
  | init => trivial
  | data => trivial
  | trailing => trivial

/-- The biphase decoder appends to its output, and nothing if it does not answer OK (42_biphase_mark.md R155). -/
theorem bmcDecProcess_out (i o : BitBuffer) :
    (∃ us, (bmcDecProcess i o).out.bitsD = o.bitsD ++ us) ∧
      ((bmcDecProcess i o).code ≠ .ok → (bmcDecProcess i o).out = o) := by
  obtain ⟨ni, _ | ⟨oi, q⟩ | _⟩ := i
  case bits =>
    obtain ⟨no, _ | ⟨oo, p⟩ | _⟩ := o
    case bits =>
      rw [bmcDecProcess_bits]
      refine ⟨⟨_, rfl⟩, fun hcode => ?_⟩
      have hnone : min (q.filled / 2) (8 * no - p.filled) = 0 := by
        by_contra hpos
        exact hcode (if_pos (.inr (Nat.pos_of_ne_zero hpos)))
      simp only [hnone, Nat.mul_zero, List.take_zero, Spec.dataBits, Fifo.emit_nil]
    all_goals exact ⟨⟨[], (List.append_nil _).symm⟩, fun _ => rfl⟩
  all_goals exact ⟨⟨[], (List.append_nil _).symm⟩, fun _ => rfl⟩

theorem frameDecProcess_rests {fd : FrameDec} {i o : BitBuffer} (hi : i.order?.isSome = true)
    (ho : o.order?.isSome = true) (hst : fd.st.Entered i.bitsD) :
    (frameDecProcess fd i o).st.st.Rests (frameDecProcess fd i o).inp.bitsD := by
  obtain ⟨ni, oi, q, rfl⟩ := BitBuffer.eq_bits_of_order? hi
  obtain ⟨no, oo, p, rfl⟩ := BitBuffer.eq_bits_of_order? ho
  exact fdRun_rests (8 * no) p hst

/-- Whatever stage ends stages 1 to 3, the session's frame decoder rests well on what is left in `DEC.B`. -/
theorem x2dDecFront_rests {d : DecSession} (hd : d.wf = true) (flush : Bool) (i : BitBuffer) :
    (x2dDecFront d flush i).st.fd.st.Rests (x2dDecFront d flush i).st.b.bitsD := by
  obtain ⟨-, ⟨-, hb, hc⟩, hrests⟩ := d.wf_iff.mp hd
  obtain ⟨⟨us, hus⟩, hkept⟩ := bmcDecProcess_out (xcProcess (d.setFlush flush).xc1 i (d.setFlush flush).a).out
    (d.setFlush flush).b
  unfold x2dDecFront
  simp only
  split
  · exact hrests
  split
  next hcode =>
    show d.fd.st.Rests (bmcDecProcess _ (d.setFlush flush).b).out.bitsD
    rw [hkept hcode]
    exact hrests
  · refine frameDecProcess_rests ?_ hc ?_
    · rw [(bmcDec_keepsForm.out _ _).1.order?_eq]
      exact Option.isSome_of_mem hb
    · rw [hus]
      exact hrests.entered_append us

theorem x2dDecFront_wf {d : DecSession} (hd : d.wf = true) (flush : Bool) (i : BitBuffer) :
    (x2dDecFront d flush i).st.wf = true :=
  (x2dDecFront_keepsForm d flush i).2.wf (x2dDecFront_rests hd flush i) hd

theorem x2dDecBack_wf {d : DecSession} (hd : d.wf = true) (o : BitBuffer) : (x2dDecBack d o).st.wf = true :=
  (x2dDecBack_keepsForm d o).2.wf (show d.fd.st.Rests d.b.bitsD from DecSession.rests_of_wf hd) hd

theorem DecSession.reset_wf {d : DecSession} (hd : d.wf = true) : d.reset.wf = true := d.reset_keepsForm.wf trivial hd

theorem DecSession.powerOn_wf (p : Config.Params) : (DecSession.powerOn p).wf = true :=
  (DecSession.wf_iff _).mpr ⟨⟨Fifo.empty_wf _, Fifo.empty_wf _, Fifo.empty_wf _⟩, ⟨rfl, rfl, rfl⟩, trivial⟩

end Sys2Proof.Machine
end

section
/-!
Everything an operation can do to the units, the sessions and the buffers of the machine, said once: it touches at most
one unit or session, in the way of that operation, and every buffer of the caller's keeps its form (60_exceptions.md
R251, 70_reset_and_hazards.md R271).
-/
namespace Sys2Proof.Machine

variable {σ : Type}

/-! ### One unit of a list touched -/

/-- A list of units before and after: the same, or one unit changed in a way `A` allows for its reference. -/
inductive Touched (A : Nat → σ → σ → Prop) (l : List σ) : List σ → Prop where
  | same : Touched A l l
  | set {k : Nat} {u u' : σ} (hu : l[k]? = some u) (hA : A k u u') : Touched A l (l.set k u')

theorem Touched.get {A : Nat → σ → σ → Prop} {l l' : List σ} (h : Touched A l l') {k : Nat} {u u' : σ}
    (hu : l[k]? = some u) (hu' : l'[k]? = some u') : u' = u ∨ A k u u' := by
  cases h with
  | same => exact .inl (Option.some.inj (hu'.symm.trans hu))
  | @set j v v' hv hA =>
    by_cases hjk : j = k
    · subst hjk
      obtain rfl : v = u := Option.some.inj (hv.symm.trans hu)
      obtain ⟨hj, -⟩ := List.getElem?_eq_some_iff.mp hv
      rw [List.getElem?_set_self hj] at hu'
      exact .inr (Option.some.inj hu' ▸ hA)
    · rw [List.getElem?_set_ne hjk] at hu'
      exact .inl (Option.some.inj (hu'.symm.trans hu))

theorem Touched.all {A : Nat → σ → σ → Prop} {l l' : List σ} (h : Touched A l l') {p : σ → Bool}
    (hp : ∀ {k u u'}, A k u u' → p u = true → p u' = true) (hl : l.all p = true) : l'.all p = true := by
  rw [List.all_eq_true] at *
  cases h with
  | same => exact hl
  | set hu hA =>
    intro w hw
    rcases List.mem_or_eq_of_mem_set hw with hw | rfl
    · exact hl w hw
    · exact hp hA (hl _ (List.mem_of_getElem? hu))

/-! ### The caller's buffers -/

/-- The caller's buffers before and after: each is one that was there, with its form. -/
def Memory.KeepsForm (m m' : Memory) : Prop := ∀ (k : Nat) (B' : BitBuffer), m'[k]? = some B' →
  ∃ B : BitBuffer, m[k]? = some B ∧ B.KeepsForm B'

theorem Memory.KeepsForm.refl (m : Memory) : Memory.KeepsForm m m := fun _ B hB => ⟨B, hB, .refl B⟩

theorem Memory.KeepsForm.set {m m' : Memory} (h : Memory.KeepsForm m m') {k : Nat} {B B' : BitBuffer}
    (hB : m[k]? = some B) (hform : B.KeepsForm B') : Memory.KeepsForm m (m'.set k B') := by
  intro j C hC
  by_cases hkj : k = j
  · subst hkj
    obtain ⟨hk, -⟩ := List.getElem?_eq_some_iff.mp hC
    rw [List.getElem?_set_self (by rwa [List.length_set] at hk)] at hC
    exact ⟨B, hB, Option.some.inj hC ▸ hform⟩
  · rw [List.getElem?_set_ne hkj] at hC
    exact h j C hC

theorem Memory.keepsForm_set {m : Memory} {k : Nat} {B B' : BitBuffer} (hB : m[k]? = some B) (hform : B.KeepsForm B') :
    Memory.KeepsForm m (m.set k B') := (Memory.KeepsForm.refl m).set hB hform

theorem Memory.KeepsForm.wf {m m' : Memory} (h : Memory.KeepsForm m m') (hm : Memory.wf m = true) :
    Memory.wf m' = true := by
  refine List.all_eq_true.mpr fun B' hB' => ?_
  obtain ⟨k, hk⟩ := List.mem_iff_getElem?.mp hB'
  obtain ⟨B, hB, hform⟩ := h k B' hk
  exact hform.2 (Memory.wf_get hm hB)

/-! ### What the operations do to a unit or session -/

/-- What an operation does to the transcoder it names. -/
inductive Xc.ChangedBy : Instr → Nat → Xc → Xc → Prop where
  | reset {k x} : ChangedBy (.xcReset k) k x x.reset
  | config {k x v} : ChangedBy (.xcConfig k .flush v) k x (x.setFlush (decide (v = 1)))
  | two {k inp out x} (i o : BitBuffer) : ChangedBy (.xcProcess k inp out) k x (xcProcess x i o).st
  | one {k inp out x b r} (h : xcOne x b = some r) : ChangedBy (.xcProcess k inp out) k x r.st

/-- What an operation does to the frame encoder it names. -/
inductive FrameEnc.ChangedBy : Instr → Nat → FrameEnc → FrameEnc → Prop where
  | reset {k x} : ChangedBy (.frameEncReset k) k x x.reset
  | config {k x reg v x'} (h : x.config reg v = some x') : ChangedBy (.frameEncConfig k reg v) k x x'
  | two {k inp out x} (i o : BitBuffer) : ChangedBy (.frameEncProcess k inp out) k x (frameEncProcess x i o).st
  | one {k inp out x b r} (h : frameEncOne x b = some r) : ChangedBy (.frameEncProcess k inp out) k x r.st

/-- What an operation does to the frame decoder it names. -/
inductive FrameDec.ChangedBy : Instr → Nat → FrameDec → FrameDec → Prop where
  | reset {k x} : ChangedBy (.frameDecReset k) k x x.reset
  | two {k inp out x} (i o : BitBuffer) : ChangedBy (.frameDecProcess k inp out) k x (frameDecProcess x i o).st
  | one {k inp out x b r} (h : frameDecOne x b = some r) : ChangedBy (.frameDecProcess k inp out) k x r.st

/-- What an operation does to the encode session it names. -/
inductive EncSession.ChangedBy : Instr → Nat → EncSession → EncSession → Prop where
  | reset {k e} : ChangedBy (.x2dEncReset k) k e e.reset
  | config {k e reg v fe'} (h : e.fe.config reg v = some fe') :
      ChangedBy (.x2dEncConfig k reg v) k e { e with fe := fe' }
  | two {k inp out flush e} (i o : BitBuffer) :
      ChangedBy (.x2dEncProcess k inp out flush) k e (x2dEncProcess e flush i o).st
  | one {k inp out flush e b r} (h : x2dEncOne e flush b = some r) : ChangedBy (.x2dEncProcess k inp out flush) k e r.st

/-- What an operation does to the decode session it names. -/
inductive DecSession.ChangedBy : Instr → Nat → DecSession → DecSession → Prop where
  | reset {k d} : ChangedBy (.x2dDecReset k) k d d.reset
  | two {k inp out flush d} (i o : BitBuffer) :
      ChangedBy (.x2dDecProcess k inp out flush) k d (x2dDecProcess d flush i o).st
  | one {k inp out flush d b r} (h : x2dDecOne d flush b = some r) : ChangedBy (.x2dDecProcess k inp out flush) k d r.st

/-- What an operation does to the machine. A field that is not given holds because the operation leaves it alone. -/
structure Effect (i : Instr) (s t : State) : Prop where
  xcs : Touched (Xc.ChangedBy i) s.xcs t.xcs := by exact .same
  fes : Touched (FrameEnc.ChangedBy i) s.fes t.fes := by exact .same
  fds : Touched (FrameDec.ChangedBy i) s.fds t.fds := by exact .same
  encs : Touched (EncSession.ChangedBy i) s.encs t.encs := by exact .same
  decs : Touched (DecSession.ChangedBy i) s.decs t.decs := by exact .same
  bufs : Memory.KeepsForm s.bufs t.bufs := by exact .refl _

/-! ### Primitives -/

section Primitives

variable {s t : State} {buf off n v : Nat}

theorem execBufRead_effect (h : execBufRead buf off s = .next t) : Effect (.bufRead buf off) s t := by
  obtain ⟨⟨nb, store⟩, -, h⟩ := withBuffer_next h
  cases store <;> simp only at h
  case reserved => cases h
  all_goals
    split at h <;> cases h
    exact {}

theorem execBufHasAvail_effect (h : execBufHasAvail buf off n s = .next t) : Effect (.bufHasAvail buf off n) s t := by
  obtain ⟨⟨nb, store⟩, -, h⟩ := withBuffer_next h
  cases store <;> cases h <;> exact {}

theorem execBufHasSpace_effect (h : execBufHasSpace buf off n s = .next t) : Effect (.bufHasSpace buf off n) s t := by
  obtain ⟨⟨nb, store⟩, -, h⟩ := withBuffer_next h
  cases store <;> cases h <;> exact {}

theorem execBufWrite_effect (h : execBufWrite buf off v s = .next t) : Effect (.bufWrite buf off v) s t := by
  obtain ⟨⟨nb, store⟩, hB, h⟩ := withBuffer_next h
  cases store <;> simp only at h
  case bytes q =>
    split at h
    next hs =>
      split at h <;> cases h
      exact { bufs := Memory.keepsForm_set hB (.bytes fun hq => Fifo.writeUnit_wf hq hs _) }
    · cases h
  case bits order q =>
    split at h
    next hs =>
      split at h <;> cases h
      exact { bufs := Memory.keepsForm_set hB (.bits fun hq => Fifo.writeUnit_wf hq hs _) }
    · cases h
  case reserved => cases h

theorem execBufConsume_effect (h : execBufConsume buf n s = .next t) : Effect (.bufConsume buf n) s t := by
  obtain ⟨⟨nb, store⟩, hB, h⟩ := withBuffer_next h
  cases store <;> simp only at h
  case bytes q =>
    split at h <;> cases h
    exact { bufs := Memory.keepsForm_set hB (.bytes fun hq => Fifo.consume_wf hq n) }
  case bits order q =>
    split at h <;> cases h
    exact { bufs := Memory.keepsForm_set hB (.bits fun hq => Fifo.consume_wf hq n) }
  case reserved => cases h

theorem execBufProduce_effect (h : execBufProduce buf n s = .next t) : Effect (.bufProduce buf n) s t := by
  obtain ⟨⟨nb, store⟩, hB, h⟩ := withBuffer_next h
  cases store <;> simp only at h
  case bytes q =>
    split at h <;> cases h
    next hs => exact { bufs := Memory.keepsForm_set hB (.bytes fun hq => Fifo.produce_wf _ hq hs) }
  case bits order q =>
    split at h <;> cases h
    next hs => exact { bufs := Memory.keepsForm_set hB (.bits fun hq => Fifo.produce_wf _ hq hs) }
  case reserved => cases h

end Primitives

/-! ### RESETs and CONFIGs -/

section Registers

variable {s t : State} {k : Nat} {reg : Reg} {val : Byte}

theorem execXcReset_effect (h : execXcReset k s = .next t) : Effect (.xcReset k) s t := by
  obtain ⟨x, hx, h⟩ := withUnit_next h
  cases h
  exact { xcs := .set hx .reset }

theorem execBmcEncReset_effect (h : execBmcEncReset k s = .next t) : Effect (.bmcEncReset k) s t := by
  obtain ⟨x, -, h⟩ := withUnit_next h
  cases h
  exact {}

theorem execBmcDecReset_effect (h : execBmcDecReset s = .next t) : Effect .bmcDecReset s t := by
  cases h
  exact {}

theorem execFrameEncReset_effect (h : execFrameEncReset k s = .next t) : Effect (.frameEncReset k) s t := by
  obtain ⟨x, hx, h⟩ := withUnit_next h
  cases h
  exact { fes := .set hx .reset }

theorem execFrameDecReset_effect (h : execFrameDecReset k s = .next t) : Effect (.frameDecReset k) s t := by
  obtain ⟨x, hx, h⟩ := withUnit_next h
  cases h
  exact { fds := .set hx .reset }

theorem execX2dEncReset_effect (h : execX2dEncReset k s = .next t) : Effect (.x2dEncReset k) s t := by
  obtain ⟨e, he, h⟩ := withUnit_next h
  cases h
  exact { encs := .set he .reset }

theorem execX2dDecReset_effect (h : execX2dDecReset k s = .next t) : Effect (.x2dDecReset k) s t := by
  obtain ⟨d, hd, h⟩ := withUnit_next h
  cases h
  exact { decs := .set hd .reset }

theorem Reg.eq_flush_of_xcWritable {r : Reg} (h : r.xcWritable = true) : r = .flush := by
  cases r with
  | flush => rfl
  | _ => cases h

theorem execXcConfig_effect (h : execXcConfig k reg val s = .next t) : Effect (.xcConfig k reg val) s t := by
  obtain ⟨x, hx, hnext⟩ := withUnit_next h
  split at hnext
  next hreg =>
    obtain rfl := Reg.eq_flush_of_xcWritable hreg
    split at hnext <;> cases hnext
    exact { xcs := .set hx .config }
  · cases hnext

theorem execFrameEncConfig_effect (h : execFrameEncConfig k reg val s = .next t) :
    Effect (.frameEncConfig k reg val) s t := by
  obtain ⟨x, hx, h⟩ := withUnit_next h
  split at h <;> cases h
  next hx' => exact { fes := .set hx (.config hx') }

theorem execX2dEncConfig_effect (h : execX2dEncConfig k reg val s = .next t) :
    Effect (.x2dEncConfig k reg val) s t := by
  obtain ⟨e, he, h⟩ := withUnit_next h
  split at h <;> cases h
  next hfe => exact { encs := .set he (.config hfe) }

end Registers

/-! ### PROCESS -/

section Process

variable {s t : State} {k inp out : Nat} {flush : Bool}

/-- A PROCESS transaction puts back a unit state that the stage gave, buffers that keep their form, and a code. -/
theorem State.process_effect {two : BitBuffer → BitBuffer → StageResult σ} {one : BitBuffer → Option (OneResult σ)}
    {save : State → σ → State} (h : s.process inp out two one save = .next t) (hform : StageKeepsForm two one)
    (hsave : ∀ u, (save s u).bufs = s.bufs) {A : σ → Prop} (htwo : ∀ i o, A (two i o).st)
    (hone : ∀ {b r}, one b = some r → A r.st) :
    ∃ u m rc, A u ∧ Memory.KeepsForm s.bufs m ∧ t = { save s u with bufs := m, response := some (.code rc) } := by
  obtain ⟨i, o, hi, ho, ⟨-, rfl⟩ | ⟨-, r, hr, rfl⟩⟩ := State.process_next h
  · refine ⟨_, _, _, htwo i o, ?_, rfl⟩
    rw [State.putBuf_bufs, State.putBuf_bufs, hsave]
    exact (Memory.keepsForm_set hi (hform.inp i o)).set ho (hform.out i o)
  · refine ⟨_, _, _, hone hr, ?_, rfl⟩
    rw [State.putBuf_bufs, hsave]
    exact Memory.keepsForm_set hi (hform.one i r hr)

theorem execXcProcess_effect (h : execXcProcess k inp out s = .next t) : Effect (.xcProcess k inp out) s t := by
  obtain ⟨x, hx, h⟩ := withUnit_next h
  obtain ⟨x', m, rc, hx', hm, rfl⟩ := State.process_effect (A := Xc.ChangedBy (.xcProcess k inp out) k x) h
    (xc_keepsForm x) (fun _ => rfl) .two .one
  exact { xcs := .set hx hx', bufs := hm }

theorem execBmcEncProcess_effect (h : execBmcEncProcess k inp out s = .next t) :
    Effect (.bmcEncProcess k inp out) s t := by
  obtain ⟨x, -, h⟩ := withUnit_next h
  obtain ⟨x', m, rc, -, hm, rfl⟩ := State.process_effect (A := fun _ => True) h (bmcEnc_keepsForm x) (fun _ => rfl)
    (fun _ _ => trivial) (fun _ => trivial)
  exact { bufs := hm }

theorem execBmcDecProcess_effect (h : execBmcDecProcess inp out s = .next t) : Effect (.bmcDecProcess inp out) s t := by
  obtain ⟨u, m, rc, -, hm, rfl⟩ := State.process_effect (A := fun _ => True) h bmcDec_keepsForm (fun _ => rfl)
    (fun _ _ => trivial) (fun _ => trivial)
  exact { bufs := hm }

theorem execFrameEncProcess_effect (h : execFrameEncProcess k inp out s = .next t) :
    Effect (.frameEncProcess k inp out) s t := by
  obtain ⟨x, hx, h⟩ := withUnit_next h
  obtain ⟨x', m, rc, hx', hm, rfl⟩ := State.process_effect (A := FrameEnc.ChangedBy (.frameEncProcess k inp out) k x) h
    (frameEnc_keepsForm x) (fun _ => rfl) .two .one
  exact { fes := .set hx hx', bufs := hm }

theorem execFrameDecProcess_effect (h : execFrameDecProcess k inp out s = .next t) :
    Effect (.frameDecProcess k inp out) s t := by
  obtain ⟨x, hx, h⟩ := withUnit_next h
  obtain ⟨x', m, rc, hx', hm, rfl⟩ := State.process_effect (A := FrameDec.ChangedBy (.frameDecProcess k inp out) k x) h
    (frameDec_keepsForm x) (fun _ => rfl) .two .one
  exact { fds := .set hx hx', bufs := hm }

theorem execX2dEncProcess_effect (h : execX2dEncProcess k inp out flush s = .next t) :
    Effect (.x2dEncProcess k inp out flush) s t := by
  obtain ⟨e, he, h⟩ := withUnit_next h
  obtain ⟨e', m, rc, he', hm, rfl⟩ := State.process_effect
    (A := EncSession.ChangedBy (.x2dEncProcess k inp out flush) k e) h (x2dEnc_keepsForm e flush)
    (fun _ => rfl) .two .one
  exact { encs := .set he he', bufs := hm }

theorem execX2dDecProcess_effect (h : execX2dDecProcess k inp out flush s = .next t) :
    Effect (.x2dDecProcess k inp out flush) s t := by
  obtain ⟨d, hd, h⟩ := withUnit_next h
  obtain ⟨d', m, rc, hd', hm, rfl⟩ := State.process_effect
    (A := DecSession.ChangedBy (.x2dDecProcess k inp out flush) k d) h (x2dDec_keepsForm d flush)
    (fun _ => rfl) .two .one
  exact { decs := .set hd hd', bufs := hm }

end Process

/-- Every operation that answers a next state has its effect. -/
theorem exec_effect {i : Instr} {s t : State} (h : exec i s = .next t) : Effect i s t :=
  match i with
  | .bufRead .. => execBufRead_effect h
  | .bufWrite .. => execBufWrite_effect h
  | .bufHasAvail .. => execBufHasAvail_effect h
  | .bufHasSpace .. => execBufHasSpace_effect h
  | .bufConsume .. => execBufConsume_effect h
  | .bufProduce .. => execBufProduce_effect h
  | .xcReset .. => execXcReset_effect h
  | .xcProcess .. => execXcProcess_effect h
  | .xcConfig .. => execXcConfig_effect h
  | .bmcEncReset .. => execBmcEncReset_effect h
  | .bmcEncProcess .. => execBmcEncProcess_effect h
  | .bmcDecReset => execBmcDecReset_effect h
  | .bmcDecProcess .. => execBmcDecProcess_effect h
  | .frameEncReset .. => execFrameEncReset_effect h
  | .frameEncProcess .. => execFrameEncProcess_effect h
  | .frameEncConfig .. => execFrameEncConfig_effect h
  | .frameDecReset .. => execFrameDecReset_effect h
  | .frameDecProcess .. => execFrameDecProcess_effect h
  | .x2dEncReset .. => execX2dEncReset_effect h
  | .x2dEncProcess .. => execX2dEncProcess_effect h
  | .x2dEncConfig .. => execX2dEncConfig_effect h
  | .x2dDecReset .. => execX2dDecReset_effect h
  | .x2dDecProcess .. => execX2dDecProcess_effect h

end Sys2Proof.Machine
end

section
/-!
The invariant of the machine: power-on has it, and every operation and every making of a buffer, unit or session keeps
it (10_state.md R21, 45_pipeline.md R221, R222, 44_frame_decoder.md R193, R194).
-/
namespace Sys2Proof.Machine

/-! ### Pipelines -/

/-- What stages 1 to 3 give, and stage 4 keeps, holds of the session that a pipeline leaves, whatever ended it. -/
theorem pipe_st {σ : Type} {front : BitBuffer → OneResult σ} {back : σ → BitBuffer → OneResult σ} {P : σ → Prop}
    (hfront : ∀ i, P (front i).st) (hback : ∀ u o, P u → P (back u o).st) :
    (∀ i o, P (pipeTwo front back i o).st) ∧ ∀ b, P (pipeOne front back b).st := by
  refine ⟨fun i o => ?_, fun b => ?_⟩
  · by_cases hok : (front i).code = .ok
    · rw [pipeTwo_ok _ _ _ _ hok]
      exact hback _ o (hfront i)
    · rw [pipeTwo_stop _ _ _ _ hok]
      exact hfront i
  · unfold pipeOne
    simp only
    split
    · exact hfront b
    · exact hback _ _ (hfront b)

theorem EncSession.ChangedBy.keepsForm {i : Instr} {k : Nat} {e e' : EncSession} (h : EncSession.ChangedBy i k e e') :
    e.KeepsForm e' := by
  have pipe := fun flush => pipe_st (P := e.KeepsForm) (fun i => (x2dEncFront_keepsForm e flush i).2)
    fun u o hu => hu.trans (x2dEncBack_keepsForm u o).2
  cases h with
  | reset => exact e.reset_keepsForm
  | config _ => exact .refl e
  | two i o => exact (pipe _).1 i o
  | one h => exact Option.some.inj h ▸ (pipe _).2 _

theorem DecSession.ChangedBy.keepsForm {i : Instr} {k : Nat} {d d' : DecSession} (h : DecSession.ChangedBy i k d d') :
    d.KeepsForm d' := by
  have pipe := fun flush => pipe_st (P := d.KeepsForm) (fun i => (x2dDecFront_keepsForm d flush i).2)
    fun u o hu => hu.trans (x2dDecBack_keepsForm u o).2
  cases h with
  | reset => exact d.reset_keepsForm
  | two i o => exact (pipe _).1 i o
  | one h => exact Option.some.inj h ▸ (pipe _).2 _

theorem DecSession.ChangedBy.wf {i : Instr} {k : Nat} {d d' : DecSession} (h : DecSession.ChangedBy i k d d')
    (hd : d.wf = true) : d'.wf = true := by
  have pipe := fun flush => pipe_st (P := (DecSession.wf · = true)) (x2dDecFront_wf hd flush)
    fun _ o hu => x2dDecBack_wf hu o
  cases h with
  | reset => exact DecSession.reset_wf hd
  | two i o => exact (pipe _).1 i o
  | one h => exact Option.some.inj h ▸ (pipe _).2 _

theorem FrameDec.ChangedBy.ne_extraZero {i : Instr} {k : Nat} {x x' : FrameDec} (h : FrameDec.ChangedBy i k x x')
    (hx : x.st ≠ .extraZero) : x'.st ≠ .extraZero := by
  cases h with
  | reset => exact nofun
  | two i o => exact frameDecProcess_ne_extraZero i o hx
  | one h => exact frameDecOne_ne_extraZero h hx

/-! ### The invariant -/

theorem State.inv_iff (s : State) :
    s.inv = true ↔ Memory.wf s.bufs = true ∧ s.encs.all EncSession.wf = true ∧ s.decs.all DecSession.wf = true ∧
      (s.fds.all fun fd => fd.st != .extraZero) = true := by
  simp only [State.inv, Bool.and_eq_true, and_assoc]

theorem Effect.inv {i : Instr} {s t : State} (h : Effect i s t) (hs : s.inv = true) : t.inv = true := by
  rw [State.inv_iff] at *
  obtain ⟨hbufs, hencs, hdecs, hfds⟩ := hs
  refine ⟨h.bufs.wf hbufs, h.encs.all (fun hA => hA.keepsForm.wf) hencs, h.decs.all (fun hA => hA.wf) hdecs,
    h.fds.all (fun hA hx => ?_) hfds⟩
  rw [bne_iff_ne] at *
  exact hA.ne_extraZero hx

theorem all_concat {α : Type} {p : α → Bool} {l : List α} {x : α} (hl : l.all p = true) (hx : p x = true) :
    (l ++ [x]).all p = true := by
  rw [List.all_append, hl, List.all_cons, hx]
  rfl

theorem State.create_inv {s : State} (hs : s.inv = true) (k : Creation) : (s.create k).inv = true := by
  rw [State.inv_iff] at *
  obtain ⟨hbufs, hencs, hdecs, hfds⟩ := hs
  cases k with
  | buffer mode nbytes => exact ⟨Memory.wf_append hbufs (BitBuffer.make_wf mode nbytes), hencs, hdecs, hfds⟩
  | xc => exact ⟨hbufs, hencs, hdecs, hfds⟩
  | bmcEnc => exact ⟨hbufs, hencs, hdecs, hfds⟩
  | frameEnc => exact ⟨hbufs, hencs, hdecs, hfds⟩
  | frameDec => exact ⟨hbufs, hencs, hdecs, all_concat hfds rfl⟩
  | encSession p => exact ⟨hbufs, all_concat hencs (EncSession.powerOn_wf p), hdecs, hfds⟩
  | decSession p => exact ⟨hbufs, hencs, all_concat hdecs (DecSession.powerOn_wf p), hfds⟩

theorem step_of_make {s : State} {k : Creation} {rest : List Call} (h : s.calls = .make k :: rest) :
    step s = .next (State.create { s with calls := rest } k) := by
  simp only [step, State.takeCall_of_calls_cons h]

/-- Everything a step can do when it answers a next state: nothing with no call waiting, or it takes a call off the list
and makes what is asked for or runs the operation asked for. -/
theorem step_next {s t : State} (h : step s = .next t) :
    t = s ∨ ∃ rest, (∃ k, t = State.create { s with calls := rest } k) ∨
      ∃ i, exec i { s with calls := rest } = .next t := by
  rcases hcalls : s.calls with _ | ⟨c | k, rest⟩
  · rw [step_of_calls_nil hcalls] at h
    exact .inl (Host.Outcome.next.inj h).symm
  · cases hdec : decode c with
    | error e =>
      simp only [step, State.takeCall_of_calls_cons hcalls, hdec] at h
      cases h
    | ok i => exact .inr ⟨rest, .inr ⟨i, step_of_decode_ok hcalls hdec ▸ h⟩⟩
  · rw [step_of_make hcalls] at h
    exact .inr ⟨rest, .inl ⟨k, (Host.Outcome.next.inj h).symm⟩⟩

/-- Settles O60: an operation keeps the invariant by its effect, and what a caller makes is at power-on. -/
theorem stepKeepsInvariant : Obligations.StepKeepsInvariant := by
  intro s t hs h
  obtain rfl | ⟨rest, ⟨k, rfl⟩ | ⟨i, hexec⟩⟩ := step_next h
  · exact hs
  · exact State.create_inv (s := { s with calls := rest }) hs k
  · exact (exec_effect hexec).inv hs

/-- Settles O8: the caller's store is in canonical form there, and each kind has one session or unit at power-on. -/
theorem powerOnInvariant : Obligations.PowerOnInvariant :=
  (State.inv_iff _).mpr ⟨reset_memory_wf, all_concat (l := []) rfl (EncSession.powerOn_wf _),
    all_concat (l := []) rfl (DecSession.powerOn_wf _), rfl⟩

end Sys2Proof.Machine
end

section
/-!
Registers and shapes: which operation owns a register, that none changes the mode or the size of a buffer, and what
power-on gives every register (10_state.md R20, R27, R28, R31, R32, R36, R37).
-/
namespace Sys2Proof.Machine

/-! ### The flush flag -/

/-- The transcoder's loop never writes its flush flag (41_bitwidth_converter.md R135). -/
theorem xcProcess_st (x : Xc) (i o : BitBuffer) : (xcProcess x i o).st = x := by
  obtain ⟨ni, iq | ⟨oi, iq⟩ | _⟩ := i <;> obtain ⟨no, oq | ⟨oo, oq⟩ | _⟩ := o
  case bytes.bytes => rw [xcProcess_bytes_bytes]
  case bytes.bits => rw [xcProcess_bytes_bits]
  case bits.bytes => rw [xcProcess_bits_bytes]
  case bits.bits => rw [xcProcess_bits_bits]
  all_goals rfl

theorem Xc.ChangedBy.flush_owner {i : Instr} {k : Nat} {x x' : Xc} (h : Xc.ChangedBy i k x x')
    (hne : x'.flush ≠ x.flush) : i = .xcReset k ∨ ∃ v, i = .xcConfig k .flush v := by
  cases h with
  | reset => exact .inl rfl
  | config => exact .inr ⟨_, rfl⟩
  | two i o => exact absurd (congrArg Xc.flush (xcProcess_st x i o)) hne
  | one h => exact absurd (congrArg Xc.flush (xcOne_eq_some h).1) hne

/-! ### Z, O and the preamble flag -/

/-- A frame encoder before and after where no RESET and no CONFIG ran: Z and O are kept, and a set preamble flag stays
set. -/
def FrameEnc.KeepsRegisters (x x' : FrameEnc) : Prop :=
  x'.z = x.z ∧ x'.o = x.o ∧ (x.preambleEmitted = true → x'.preambleEmitted = true)

theorem FrameEnc.KeepsRegisters.refl (x : FrameEnc) : x.KeepsRegisters x := ⟨rfl, rfl, id⟩

theorem frameEncAct_keepsRegisters (x : FrameEnc) (cap : Nat) (i o : Fifo Bit) :
    x.KeepsRegisters (frameEncAct x cap i o).st := by
  unfold frameEncAct
  split
  · exact .refl x
  · simp only
    split
    · exact ⟨rfl, rfl, fun _ => rfl⟩
    · exact .refl x

theorem frameEncProcess_keepsRegisters (x : FrameEnc) (i o : BitBuffer) :
    x.KeepsRegisters (frameEncProcess x i o).st := by
  obtain ⟨ni, _ | ⟨oi, iq⟩ | _⟩ := i
  case bits =>
    obtain ⟨no, _ | ⟨oo, oq⟩ | _⟩ := o
    case bits => exact frameEncAct_keepsRegisters x (8 * no) iq oq
    all_goals exact .refl x
  all_goals exact .refl x

theorem frameEncOne_keepsRegisters {x : FrameEnc} {b : BitBuffer} {r : OneResult FrameEnc}
    (h : frameEncOne x b = some r) : x.KeepsRegisters r.st := by
  obtain ⟨nb, _ | ⟨order, q⟩ | _⟩ := b <;> cases h
  case bits => exact frameEncAct_keepsRegisters x (8 * nb) q q
  all_goals exact .refl x

theorem x2dEncFront_keepsRegisters (e : EncSession) (flush : Bool) (i : BitBuffer) :
    e.fe.KeepsRegisters (x2dEncFront e flush i).st.fe := by
  unfold x2dEncFront
  simp only
  split
  · exact .refl e.fe
  split
  · exact frameEncProcess_keepsRegisters e.fe _ _
  · exact frameEncProcess_keepsRegisters e.fe _ _

/-- Where a register of a frame encoder changed, `i` is the operation that owns it: `config` is the CONFIG of a register
with a value, `reset` the RESET (43_frame_encoder.md R170, R171). -/
def FrameEnc.ChangeOwnedBy (config : Reg → Byte → Instr) (reset : Instr) (i : Instr) (x x' : FrameEnc) : Prop :=
  (x'.z ≠ x.z → i = config .z x'.z) ∧ (x'.o ≠ x.o → i = config .o x'.o) ∧
    (x.preambleEmitted = true → x'.preambleEmitted = false → i = reset)

section Owners

variable {config : Reg → Byte → Instr} {reset i : Instr} {x x' : FrameEnc}

theorem FrameEnc.KeepsRegisters.changeOwnedBy (h : x.KeepsRegisters x') : x.ChangeOwnedBy config reset i x' := by
  obtain ⟨hz, ho, hp⟩ := h
  exact ⟨fun hne => absurd hz hne, fun hne => absurd ho hne, fun hset hcleared => nomatch (hp hset).symm.trans hcleared⟩

theorem FrameEnc.config_changeOwnedBy {reg : Reg} {v : Byte} (h : x.config reg v = some x') :
    x.ChangeOwnedBy config reset (config reg v) x' := by
  cases reg with
  | z =>
    cases h
    exact ⟨fun _ => rfl, fun hne => absurd rfl hne, fun hset hcleared => nomatch hset.symm.trans hcleared⟩
  | o =>
    cases h
    exact ⟨fun hne => absurd rfl hne, fun _ => rfl, fun hset hcleared => nomatch hset.symm.trans hcleared⟩
  | _ => cases h

theorem FrameEnc.reset_changeOwnedBy : x.ChangeOwnedBy config reset reset x.reset :=
  ⟨fun hne => absurd rfl hne, fun hne => absurd rfl hne, fun _ _ => rfl⟩

end Owners

theorem FrameEnc.ChangedBy.owner {i : Instr} {k : Nat} {x x' : FrameEnc} (h : FrameEnc.ChangedBy i k x x') :
    x.ChangeOwnedBy (.frameEncConfig k) (.frameEncReset k) i x' := by
  cases h with
  | reset => exact FrameEnc.reset_changeOwnedBy
  | config h => exact FrameEnc.config_changeOwnedBy h
  | two i o => exact (frameEncProcess_keepsRegisters x i o).changeOwnedBy
  | one h => exact (frameEncOne_keepsRegisters h).changeOwnedBy

theorem EncSession.ChangedBy.owner {i : Instr} {k : Nat} {e e' : EncSession} (h : EncSession.ChangedBy i k e e') :
    e.fe.ChangeOwnedBy (.x2dEncConfig k) (.x2dEncReset k) i e'.fe := by
  have pipe := fun flush => pipe_st (P := (e.fe.KeepsRegisters ·.fe)) (x2dEncFront_keepsRegisters e flush)
    (back := x2dEncBack) fun _ _ hu => hu
  cases h with
  | reset => exact FrameEnc.reset_changeOwnedBy
  | config h => exact FrameEnc.config_changeOwnedBy h
  | two i o => exact ((pipe _).1 i o).changeOwnedBy
  | one h => exact (Option.some.inj h ▸ (pipe _).2 _).changeOwnedBy

/-- Settles O56: of what an operation can do to a unit, only its RESET and its CONFIG touch these registers so. -/
theorem registersChangeOnlyByTheirOperations : Obligations.RegistersChangeOnlyByTheirOperations := by
  intro i s t k h
  have effect := exec_effect h
  refine ⟨fun x x' hx hx' hne => ?_, fun x x' hx hx' => ?_, fun e e' he he' => ?_⟩
  · obtain rfl | hA := effect.xcs.get hx hx'
    · exact absurd rfl hne
    · exact hA.flush_owner hne
  · obtain rfl | hA := effect.fes.get hx hx'
    · exact (FrameEnc.KeepsRegisters.refl _).changeOwnedBy
    · exact hA.owner
  · obtain rfl | hA := effect.encs.get he he'
    · exact (FrameEnc.KeepsRegisters.refl _).changeOwnedBy
    · exact hA.owner

/-! ### Shapes -/

/-- Settles O57: every buffer keeps its form, of which its shape is a part. -/
theorem shapesNeverChange : Obligations.ShapesNeverChange := by
  intro i s t k h
  have effect := exec_effect h
  refine ⟨fun B B' hB hB' => ?_, fun e e' he he' => ?_, fun d d' hd hd' => ?_⟩
  · obtain ⟨C, hC, hform⟩ := effect.bufs k B' hB'
    obtain rfl : C = B := Option.some.inj (hC.symm.trans hB)
    exact hform.1
  · obtain rfl | hA := effect.encs.get he he'
    · exact ⟨.refl _, .refl _, .refl _⟩
    · obtain ⟨ha, hb, hc⟩ := hA.keepsForm
      exact ⟨ha.1, hb.1, hc.1⟩
  · obtain rfl | hA := effect.decs.get hd hd'
    · exact ⟨.refl _, .refl _, .refl _⟩
    · obtain ⟨ha, hb, hc⟩ := hA.keepsForm
      exact ⟨ha.1, hb.1, hc.1⟩

/-! ### Power-on -/

theorem BitBuffer.link_empty (order : BitOrder) (p : Config.Params) :
    (BitBuffer.link order p).nbytes = p.capBytes ∧ (BitBuffer.link order p).capacity = 8 * p.capBytes ∧
      (BitBuffer.link order p).filled = 0 := ⟨rfl, rfl, rfl⟩

/-- Settles O5: what a step makes is a session at power-on, and its buffers are links. -/
theorem madeSessionsAreAtPowerOn : Obligations.MadeSessionsAreAtPowerOn := by
  intro s p rest
  refine ⟨fun hcalls => ⟨.powerOn p, step_of_make hcalls, rfl, rfl, rfl, rfl, rfl, rfl, rfl, rfl, rfl, ?_⟩,
    fun hcalls => ⟨.powerOn p, step_of_make hcalls, rfl, rfl, rfl, rfl, rfl, rfl, ?_⟩⟩
  all_goals
    simp only [List.forall_mem_cons, List.not_mem_nil, false_implies, implies_true, and_true]
    exact ⟨BitBuffer.link_empty .., BitBuffer.link_empty .., BitBuffer.link_empty ..⟩

/-- Settles O6: every unit there is one at power-on, and its registers read so by definition. -/
theorem powerOnRegisters : Obligations.PowerOnRegisters := by
  simp only [Obligations.PowerOnRegisters, State.reset, List.forall_mem_singleton]
  exact ⟨rfl, rfl, ⟨rfl, rfl, rfl⟩, rfl, ⟨rfl, rfl, rfl, rfl, rfl, rfl, rfl, rfl, rfl⟩, ⟨rfl, rfl, rfl, rfl, rfl, rfl⟩⟩

/-- Settles O7: each RESET puts the power-on values where they already stand. -/
theorem powerOnIsAsReset : Obligations.PowerOnIsAsReset := by
  simp only [Obligations.PowerOnIsAsReset, List.forall_mem_cons, List.not_mem_nil, false_implies, implies_true,
    and_true]
  exact ⟨rfl, rfl, rfl, rfl, rfl, rfl, rfl⟩

end Sys2Proof.Machine
end

section
/-!
Frames: what a RESET, a CONFIG or a PROCESS leaves as it was, and that a PROCESS only takes units from the start of its
input and only adds units at the end of its output (20_memory.md R50, R53, 60_exceptions.md R251).
-/
namespace Sys2Proof.Machine

variable {σ α β : Type}

/-! ### What a state update leaves as it was -/

/-- Two lists of one length that agree at every index not owned. -/
def SameExcept (owned : Nat → Prop) (l l' : List σ) : Prop :=
  l'.length = l.length ∧ ∀ k, ¬ owned k → l'[k]? = l[k]?

theorem SameExcept.refl (owned : Nat → Prop) (l : List σ) : SameExcept owned l l := ⟨rfl, fun _ _ => rfl⟩

theorem SameExcept.set {owned : Nat → Prop} {l l' : List σ} (h : SameExcept owned l l') {k : Nat} (hk : owned k)
    (u : σ) : SameExcept owned l (l'.set k u) :=
  ⟨List.length_set.trans h.1, fun j hj =>
    (List.getElem?_set_ne fun hkj : k = j => hj (hkj ▸ hk)).trans (h.2 j hj)⟩

/-- At most the unit or session of a footprint changed, and perhaps the response: everything else is as before, every
buffer of the caller's and the counter of free values too. -/
def OnlyUnit (fp : Footprint) (s t : State) : Prop :=
  UnchangedOutside fp s t ∧ t.bufs = s.bufs ∧ t.fresh = s.fresh

section Updates

variable {fp : Footprint} {s t : State} {k : Nat}

/-- Field by field; a field that is not given holds because the update leaves it alone. -/
theorem OnlyUnit.of_fields
    (xcs : SameExcept (fp.xc = some ·) s.xcs t.xcs := by exact .refl _ _)
    (bes : SameExcept (fp.be = some ·) s.bes t.bes := by exact .refl _ _)
    (fes : SameExcept (fp.fe = some ·) s.fes t.fes := by exact .refl _ _)
    (fds : SameExcept (fp.fd = some ·) s.fds t.fds := by exact .refl _ _)
    (encs : SameExcept (fp.enc = some ·) s.encs t.encs := by exact .refl _ _)
    (decs : SameExcept (fp.dec = some ·) s.decs t.decs := by exact .refl _ _)
    (bufs : t.bufs = s.bufs := by rfl) (calls : t.calls = s.calls := by rfl) (fresh : t.fresh = s.fresh := by rfl) :
    OnlyUnit fp s t :=
  ⟨⟨xcs, bes, fes, fds, encs, decs, bufs ▸ SameExcept.refl (· ∈ fp.bufs) s.bufs, calls⟩, bufs, fresh⟩

theorem OnlyUnit.refl (fp : Footprint) (s : State) : OnlyUnit fp s s := .of_fields

theorem OnlyUnit.respond (h : OnlyUnit fp s t) (r : Response) : OnlyUnit fp s (t.respond r) := h

theorem State.putXc_onlyUnit (hk : fp.xc = some k) (x : Xc) : OnlyUnit fp s (s.putXc k x) :=
  .of_fields (xcs := (SameExcept.refl _ _).set hk x)

theorem State.putBe_onlyUnit (hk : fp.be = some k) (x : BiphaseEnc) : OnlyUnit fp s (s.putBe k x) :=
  .of_fields (bes := (SameExcept.refl _ _).set hk x)

theorem State.putFe_onlyUnit (hk : fp.fe = some k) (x : FrameEnc) : OnlyUnit fp s (s.putFe k x) :=
  .of_fields (fes := (SameExcept.refl _ _).set hk x)

theorem State.putFd_onlyUnit (hk : fp.fd = some k) (x : FrameDec) : OnlyUnit fp s (s.putFd k x) :=
  .of_fields (fds := (SameExcept.refl _ _).set hk x)

theorem State.putEnc_onlyUnit (hk : fp.enc = some k) (e : EncSession) : OnlyUnit fp s (s.putEnc k e) :=
  .of_fields (encs := (SameExcept.refl _ _).set hk e)

theorem State.putDec_onlyUnit (hk : fp.dec = some k) (d : DecSession) : OnlyUnit fp s (s.putDec k d) :=
  .of_fields (decs := (SameExcept.refl _ _).set hk d)

theorem UnchangedOutside.respond (h : UnchangedOutside fp s t) (r : Response) : UnchangedOutside fp s (t.respond r) := h

theorem UnchangedOutside.putBuf (h : UnchangedOutside fp s t) (hk : k ∈ fp.bufs) (B : BitBuffer) :
    UnchangedOutside fp s (t.putBuf k B) := by
  obtain ⟨hxcs, hbes, hfes, hfds, hencs, hdecs, hbufs, hcalls⟩ := h
  exact ⟨hxcs, hbes, hfes, hfds, hencs, hdecs, SameExcept.set hbufs hk B, hcalls⟩

/-! ### RESETs and CONFIGs -/

/-- A RESET puts back one unit or session, whatever it held, and answers. -/
theorem withUnit_put_onlyUnit {units : List σ} {put : σ → State} {r : Response}
    (h : withUnit units k (fun u => .next ((put u).respond r)) = .next t) (hput : ∀ u, OnlyUnit fp s (put u)) :
    OnlyUnit fp s t := by
  obtain ⟨u, -, h⟩ := withUnit_next h
  cases h
  exact (hput u).respond r

theorem execXcConfig_onlyUnit {reg : Reg} {val : Byte} (h : execXcConfig k reg val s = .next t)
    (hk : fp.xc = some k) : OnlyUnit fp s t := by
  obtain ⟨x, -, h⟩ := withUnit_next h
  split at h
  · split at h <;> cases h
    exact (State.putXc_onlyUnit hk _).respond _
  · cases h

theorem execFrameEncConfig_onlyUnit {reg : Reg} {val : Byte} (h : execFrameEncConfig k reg val s = .next t)
    (hk : fp.fe = some k) : OnlyUnit fp s t := by
  obtain ⟨x, -, h⟩ := withUnit_next h
  split at h <;> cases h
  exact (State.putFe_onlyUnit hk _).respond _

theorem execX2dEncConfig_onlyUnit {reg : Reg} {val : Byte} (h : execX2dEncConfig k reg val s = .next t)
    (hk : fp.enc = some k) : OnlyUnit fp s t := by
  obtain ⟨e, -, h⟩ := withUnit_next h
  split at h <;> cases h
  exact (State.putEnc_onlyUnit hk _).respond _

end Updates

/-- Settles O53: each RESET and CONFIG puts back the one unit or session it names, and answers. -/
theorem resetAndConfigFrame : Obligations.ResetAndConfigFrame := by
  intro i s t hkind h
  cases i with
  | xcReset k => exact withUnit_put_onlyUnit h fun _ => State.putXc_onlyUnit rfl _
  | bmcEncReset k => exact withUnit_put_onlyUnit h fun _ => State.putBe_onlyUnit rfl _
  | bmcDecReset =>
    cases h
    exact (OnlyUnit.refl _ s).respond _
  | frameEncReset k => exact withUnit_put_onlyUnit h fun _ => State.putFe_onlyUnit rfl _
  | frameDecReset k => exact withUnit_put_onlyUnit h fun _ => State.putFd_onlyUnit rfl _
  | x2dEncReset k => exact withUnit_put_onlyUnit h fun _ => State.putEnc_onlyUnit rfl _
  | x2dDecReset k => exact withUnit_put_onlyUnit h fun _ => State.putDec_onlyUnit rfl _
  | xcConfig k reg val => exact execXcConfig_onlyUnit h rfl
  | frameEncConfig k reg val => exact execFrameEncConfig_onlyUnit h rfl
  | x2dEncConfig k reg val => exact execX2dEncConfig_onlyUnit h rfl
  | _ => nomatch hkind

/-! ### Units taken from the start, units added at the end -/

/-- The content lost units at its start (40_bitbuffer_ops.md R114). -/
def Fifo.ConsumedTo (q q' : Fifo α) : Prop := ∃ k, q'.content = q.content.drop k

/-- The content gained units at its end (40_bitbuffer_ops.md R115). -/
def Fifo.ProducedTo (q q' : Fifo α) : Prop := ∃ us, q'.content = q.content ++ us

theorem Fifo.ConsumedTo.refl (q : Fifo α) : q.ConsumedTo q := ⟨0, rfl⟩

theorem Fifo.ProducedTo.refl (q : Fifo α) : q.ProducedTo q := ⟨[], (List.append_nil _).symm⟩

/-- What is consumed after `n` units have gone goes, with them, from the start of the old content. -/
theorem Fifo.ConsumedTo.of_consume {q q' : Fifo α} {n : Nat} (h : (q.consume n).ConsumedTo q') : q.ConsumedTo q' := by
  obtain ⟨k, hk⟩ := h
  exact ⟨n + k, by rw [hk, Fifo.consume_content, List.drop_drop]⟩

/-- What is produced after `us` still follows the old content. -/
theorem Fifo.ProducedTo.of_emit {q q' : Fifo α} {us : List α} (h : (q.emit us).ProducedTo q') : q.ProducedTo q' := by
  obtain ⟨vs, hvs⟩ := h
  exact ⟨us ++ vs, by rw [hvs, Fifo.emit_content, List.append_assoc]⟩

theorem BitBuffer.ConsumedTo.refl (B : BitBuffer) : B.ConsumedTo B := by
  obtain ⟨nb, q | ⟨order, q⟩ | _⟩ := B
  · exact ⟨rfl, Fifo.ConsumedTo.refl q⟩
  · exact ⟨rfl, rfl, Fifo.ConsumedTo.refl q⟩
  · exact ⟨rfl, trivial⟩

theorem BitBuffer.ProducedTo.refl (B : BitBuffer) : B.ProducedTo B := by
  obtain ⟨nb, q | ⟨order, q⟩ | _⟩ := B
  · exact ⟨rfl, Fifo.ProducedTo.refl q⟩
  · exact ⟨rfl, rfl, Fifo.ProducedTo.refl q⟩
  · exact ⟨rfl, trivial⟩

/-! ### Stages on the units of two buffers -/

/-- A transaction on the units of two buffers takes from the start of the one and adds at the end of the other. -/
def FifoResult.Moves (r : FifoResult σ α β) (i : Fifo α) (o : Fifo β) : Prop :=
  i.ConsumedTo r.inp ∧ o.ProducedTo r.out

/-- A looping stage moves units so, whatever its step is: the loop alone consumes and emits (41_bitwidth_converter.md
R135). -/
theorem loopSteps_moves (try1 : σ → Fifo α → Fifo β → StepTry σ β) (fuel : Nat) (progress : Bool) (st : σ)
    (i : Fifo α) (o : Fifo β) : (loopSteps try1 fuel progress st i o).Moves i o := by
  induction fuel generalizing progress st i o with
  | zero => exact ⟨.refl i, .refl o⟩
  | succ fuel ih =>
    cases hs : try1 st i o with
    | done st' n us =>
      rw [loopSteps_done hs]
      obtain ⟨hinp, hout⟩ := ih true st' (i.consume n) (o.emit us)
      exact ⟨hinp.of_consume, hout.of_emit⟩
    | blocked rc =>
      rw [loopSteps_blocked hs]
      exact ⟨.refl i, .refl o⟩

theorem Act.two_moves (a : Act σ β) (i : Fifo α) (o : Fifo β) : (a.two i o).Moves i o :=
  ⟨⟨a.n, i.consume_content a.n⟩, ⟨a.us, o.emit_content a.us⟩⟩

theorem fdRun_moves (cap : Nat) (st : FdState) (i o : Fifo Bit) : (fdRun cap st i o).Moves i o :=
  fdRun_induct (P := fun _ i r => r.Moves i o) (fun _ i a _ => a.two_moves i o)
    (fun _ _ _ _ _ _ ⟨hinp, hout⟩ => ⟨hinp.of_consume, hout⟩) st i

/-! ### Stages on two buffers -/

/-- A stage takes from the start of its input and adds at the end of its output, and keeps their modes and sizes. -/
def StageMoves (two : BitBuffer → BitBuffer → StageResult σ) : Prop :=
  ∀ i o : BitBuffer, i.ConsumedTo (two i o).inp ∧ o.ProducedTo (two i o).out

theorem onBits_moves (st : σ) {body : Nat → Fifo Bit → Fifo Bit → FifoResult σ Bit Bit}
    (hbody : ∀ cap i o, (body cap i o).Moves i o) : StageMoves fun i o => onBits st i o body := by
  rintro ⟨ni, _ | ⟨oi, iq⟩ | _⟩ ⟨no, _ | ⟨oo, oq⟩ | _⟩
  case bits.bits =>
    obtain ⟨hinp, hout⟩ := hbody (8 * no) iq oq
    exact ⟨⟨rfl, rfl, hinp⟩, ⟨rfl, rfl, hout⟩⟩
  all_goals exact ⟨.refl _, .refl _⟩

theorem bmcEnc_moves (be : BiphaseEnc) : StageMoves (bmcEncProcess be) :=
  onBits_moves be fun _ _ _ => loopSteps_moves ..

theorem bmcDec_moves : StageMoves bmcDecProcess := onBits_moves () fun _ _ _ => loopSteps_moves ..

theorem frameEnc_moves (fe : FrameEnc) : StageMoves (frameEncProcess fe) :=
  onBits_moves fe fun _ _ _ => Act.two_moves ..

theorem frameDec_moves (fd : FrameDec) : StageMoves (frameDecProcess fd) :=
  onBits_moves fd fun cap i o => fdRun_moves cap fd.st i o

/-- Each of the transcoder's four cases is a loop, and with a reserved mode it moves nothing. -/
theorem xc_moves (x : Xc) : StageMoves (xcProcess x) := by
  rintro ⟨ni, iq | ⟨oi, iq⟩ | _⟩ ⟨no, oq | ⟨oo, oq⟩ | _⟩
  case bytes.bytes =>
    obtain ⟨hinp, hout⟩ := loopSteps_moves (copyStep no) (iq.filled + 1) false x iq oq
    exact ⟨⟨rfl, hinp⟩, ⟨rfl, hout⟩⟩
  case bytes.bits =>
    obtain ⟨hinp, hout⟩ := loopSteps_moves (unpackStep oo (8 * no)) (iq.filled + 1) false x iq oq
    exact ⟨⟨rfl, hinp⟩, ⟨rfl, rfl, hout⟩⟩
  case bits.bytes =>
    obtain ⟨hinp, hout⟩ := loopSteps_moves (packStep oi no) (iq.filled + 1) false x iq oq
    exact ⟨⟨rfl, rfl, hinp⟩, ⟨rfl, hout⟩⟩
  case bits.bits =>
    obtain ⟨hinp, hout⟩ := loopSteps_moves (copyStep (8 * no)) (iq.filled + 1) false x iq oq
    exact ⟨⟨rfl, rfl, hinp⟩, ⟨rfl, rfl, hout⟩⟩
  all_goals exact ⟨.refl _, .refl _⟩

/-- A pipeline moves units so where its front takes them from the input and its back adds them to the output. -/
theorem pipeTwo_moves {front : BitBuffer → OneResult σ} {back : σ → BitBuffer → OneResult σ}
    (hfront : ∀ i : BitBuffer, i.ConsumedTo (front i).buf)
    (hback : ∀ (u : σ) (o : BitBuffer), o.ProducedTo (back u o).buf) : StageMoves (pipeTwo front back) := by
  intro i o
  by_cases hok : (front i).code = .ok
  · rw [pipeTwo_ok _ _ _ _ hok]
    exact ⟨hfront i, hback _ o⟩
  · rw [pipeTwo_stop _ _ _ _ hok]
    exact ⟨hfront i, .refl o⟩

/-- Of stages 1 to 3 only stage 1 works on the caller's input (45_pipeline.md R224). -/
theorem x2dEncFront_buf (e : EncSession) (flush : Bool) (i : BitBuffer) :
    (x2dEncFront e flush i).buf = (xcProcess (e.xc1.setFlush flush) i e.a).inp := by
  unfold x2dEncFront
  simp only
  split
  · rfl
  split <;> rfl

/-- Of stages 1 to 3 only stage 1 works on the caller's input (45_pipeline.md R225). -/
theorem x2dDecFront_buf (d : DecSession) (flush : Bool) (i : BitBuffer) :
    (x2dDecFront d flush i).buf = (xcProcess (d.xc1.setFlush flush) i d.a).inp := by
  unfold x2dDecFront
  simp only
  split
  · rfl
  split <;> rfl

theorem x2dEnc_moves (e : EncSession) (flush : Bool) : StageMoves (x2dEncProcess e flush) :=
  pipeTwo_moves (fun i => x2dEncFront_buf e flush i ▸ (xc_moves _ i e.a).1) fun u o => (xc_moves u.xc2 u.c o).2

theorem x2dDec_moves (d : DecSession) (flush : Bool) : StageMoves (x2dDecProcess d flush) :=
  pipeTwo_moves (fun i => x2dDecFront_buf d flush i ▸ (xc_moves _ i d.a).1) fun u o => (xc_moves u.xc2 u.c o).2

/-! ### PROCESS -/

section Process

variable {fp : Footprint} {s t : State} {inp out : Nat}

/-- The frame of a PROCESS with these references to its input and its output, which may be one. -/
def ProcessFramed (fp : Footprint) (inp out : Nat) (s t : State) : Prop :=
  UnchangedOutside fp s t ∧ t.fresh = s.fresh ∧
  (inp ≠ out →
    (∃ B B', s.bufs[inp]? = some B ∧ t.bufs[inp]? = some B' ∧ B.ConsumedTo B') ∧
    (∃ B B', s.bufs[out]? = some B ∧ t.bufs[out]? = some B' ∧ B.ProducedTo B')) ∧
  (inp = out → ∃ B B', s.bufs[inp]? = some B ∧ t.bufs[inp]? = some B' ∧ B.SameShape B')

theorem getElem?_set_of_some {l : List σ} {k : Nat} {u : σ} (h : l[k]? = some u) (u' : σ) :
    (l.set k u')[k]? = some u' :=
  List.getElem?_set_self (List.getElem?_eq_some_iff.mp h).1

theorem State.process_framed {two : BitBuffer → BitBuffer → StageResult σ} {one : BitBuffer → Option (OneResult σ)}
    {save : State → σ → State} (h : s.process inp out two one save = .next t) (hfp : fp.bufs = [inp, out])
    (hsave : ∀ u, OnlyUnit fp s (save s u)) (hmoves : StageMoves two) (hform : StageKeepsForm two one) :
    ProcessFramed fp inp out s t := by
  have hinp : inp ∈ fp.bufs := by simp [hfp]
  have hout : out ∈ fp.bufs := by simp [hfp]
  obtain ⟨i, o, hi, ho, ⟨hne, rfl⟩ | ⟨rfl, r, hr, rfl⟩⟩ := State.process_next h
  · obtain ⟨hunit, hbufs, hfresh⟩ := hsave (two i o).st
    obtain ⟨hcons, hprod⟩ := hmoves i o
    refine ⟨((hunit.putBuf hinp _).putBuf hout _).respond _, hfresh,
      fun _ => ⟨⟨i, _, hi, ?_, hcons⟩, ⟨o, _, ho, ?_, hprod⟩⟩, fun he => absurd he hne⟩
    · rw [State.respond_bufs, State.putBuf_bufs, State.putBuf_bufs, hbufs, List.getElem?_set_ne hne.symm]
      exact getElem?_set_of_some hi _
    · rw [State.respond_bufs, State.putBuf_bufs, State.putBuf_bufs, hbufs]
      exact getElem?_set_of_some ((List.getElem?_set_ne hne).trans ho) _
  · obtain ⟨hunit, hbufs, hfresh⟩ := hsave r.st
    refine ⟨(hunit.putBuf hinp _).respond _, hfresh, fun hne => absurd rfl hne,
      fun _ => ⟨i, _, hi, ?_, (hform.one i r hr).1⟩⟩
    rw [State.respond_bufs, State.putBuf_bufs, hbufs]
    exact getElem?_set_of_some hi _

/-- The same where the stage is run from the unit or session that a reference names. -/
theorem withUnit_process_framed {υ : Type} {units : List υ} {k : Nat}
    {two : υ → BitBuffer → BitBuffer → StageResult σ} {one : υ → BitBuffer → Option (OneResult σ)}
    {save : State → σ → State} (h : withUnit units k (fun u => s.process inp out (two u) (one u) save) = .next t)
    (hfp : fp.bufs = [inp, out]) (hsave : ∀ u, OnlyUnit fp s (save s u)) (hmoves : ∀ u, StageMoves (two u))
    (hform : ∀ u, StageKeepsForm (two u) (one u)) : ProcessFramed fp inp out s t := by
  obtain ⟨u, -, h⟩ := withUnit_next h
  exact State.process_framed h hfp hsave (hmoves u) (hform u)

end Process

/-- Settles O55: each PROCESS is a stage or pipeline that moves units so, and puts back the one unit or session it
names. -/
theorem processFrame : Obligations.ProcessFrame := by
  intro i s t inp out hkind hbufs h
  cases i with
  | xcProcess k i o =>
    cases hbufs
    exact withUnit_process_framed h rfl (State.putXc_onlyUnit rfl) xc_moves xc_keepsForm
  | bmcEncProcess k i o =>
    cases hbufs
    exact withUnit_process_framed h rfl (State.putBe_onlyUnit rfl) bmcEnc_moves bmcEnc_keepsForm
  | bmcDecProcess i o =>
    cases hbufs
    exact State.process_framed (save := fun s' _ => s') h rfl (fun _ => .refl _ s) bmcDec_moves bmcDec_keepsForm
  | frameEncProcess k i o =>
    cases hbufs
    exact withUnit_process_framed h rfl (State.putFe_onlyUnit rfl) frameEnc_moves frameEnc_keepsForm
  | frameDecProcess k i o =>
    cases hbufs
    exact withUnit_process_framed h rfl (State.putFd_onlyUnit rfl) frameDec_moves frameDec_keepsForm
  | x2dEncProcess k i o flush =>
    cases hbufs
    exact withUnit_process_framed h rfl (State.putEnc_onlyUnit rfl) (x2dEnc_moves · flush) (x2dEnc_keepsForm · flush)
  | x2dDecProcess k i o flush =>
    cases hbufs
    exact withUnit_process_framed h rfl (State.putDec_onlyUnit rfl) (x2dDec_moves · flush) (x2dDec_keepsForm · flush)
  | _ => nomatch hkind

end Sys2Proof.Machine
end

section
/-!
The decoder and the encoder (30_encoding.md R87 to R92): the encoding of every operation is read back, and a command
whose byte is that of no operation is refused as reserved.
-/
namespace Sys2Proof

open Laws

theorem decode_of_xcConfig {c : Command} (h : c.cmd = 0x12#8) :
    decode c = decodeConfig c.args (.xcConfig c.args.ref) := by
  simp [decode, cmdUnit, cmdOp, h]

theorem decode_of_frameEncConfig {c : Command} (h : c.cmd = 0x42#8) :
    decode c = decodeConfig c.args (.frameEncConfig c.args.ref) := by
  simp [decode, cmdUnit, cmdOp, h]

theorem decode_of_x2dEncConfig {c : Command} (h : c.cmd = 0x62#8) :
    decode c = decodeConfig c.args (.x2dEncConfig c.args.ref) := by
  simp [decode, cmdUnit, cmdOp, h]

/-- No operand of any operation is dropped, also not of a CONFIG that the meaning refuses. -/
theorem decode_encode (i : Instr) : decode (encode i) = .ok i := by
  cases i with
  | bufRead => exact RoundTrip.bufRead _ _ rfl
  | bufWrite => exact RoundTrip.bufWrite _ _ _ rfl
  | bufHasAvail => exact RoundTrip.bufHasAvail _ _ _ rfl
  | bufHasSpace => exact RoundTrip.bufHasSpace _ _ _ rfl
  | bufConsume => exact RoundTrip.bufConsume _ _ rfl
  | bufProduce => exact RoundTrip.bufProduce _ _ rfl
  | xcReset => exact RoundTrip.xcReset _ rfl
  | xcProcess => exact RoundTrip.xcProcess _ _ _ rfl
  | xcConfig => exact (decode_of_xcConfig rfl).trans (RoundTrip.decodeConfig_number _ _ _ _)
  | bmcEncReset => exact RoundTrip.bmcEncReset _ rfl
  | bmcEncProcess => exact RoundTrip.bmcEncProcess _ _ _ rfl
  | bmcDecReset => exact RoundTrip.bmcDecReset rfl
  | bmcDecProcess => exact RoundTrip.bmcDecProcess _ _ rfl
  | frameEncReset => exact RoundTrip.frameEncReset _ rfl
  | frameEncProcess => exact RoundTrip.frameEncProcess _ _ _ rfl
  | frameEncConfig => exact (decode_of_frameEncConfig rfl).trans (RoundTrip.decodeConfig_number _ _ _ _)
  | frameDecReset => exact RoundTrip.frameDecReset _ rfl
  | frameDecProcess => exact RoundTrip.frameDecProcess _ _ _ rfl
  | x2dEncReset => exact RoundTrip.x2dEncReset _ rfl
  | x2dEncProcess => exact RoundTrip.x2dEncProcess _ _ _ _ rfl
  | x2dEncConfig => exact (decode_of_x2dEncConfig rfl).trans (RoundTrip.decodeConfig_number _ _ _ _)
  | x2dDecReset => exact RoundTrip.x2dDecReset _ rfl
  | x2dDecProcess => exact RoundTrip.x2dDecProcess _ _ _ _ rfl

/-- The two halves of a command byte are all of it. -/
theorem cmdByte_of_halves {cmd : Byte} {u o : BitVec 4} (hu : (cmdUnit cmd).toNat = u.toNat)
    (ho : (cmdOp cmd).toNat = o.toNat) : cmdByte u o = cmd := by
  rw [← BitVec.eq_of_toNat_eq hu, ← BitVec.eq_of_toNat_eq ho]
  simp only [cmdByte, cmdUnit, cmdOp, BitVec.extractLsb'_append_extractLsb'_eq_extractLsb']
  exact BitVec.extractLsb'_eq_self

theorem Reg.number_of_ofNumber? {n : Nat} {r : Reg} (h : Reg.ofNumber? n = some r) : r.number = n := by
  unfold Reg.ofNumber? at h
  split at h <;> cases h <;> rfl

/-- Everything a CONFIG's operands can be read as: none, or the register with that number and a value. -/
theorem decodeConfig_cases (a : Operands) (k : Reg → Byte → Instr) :
    (∃ e, decodeConfig a k = .error e) ∨ ∃ r v, r.number = a.reg ∧ decodeConfig a k = .ok (k r v) := by
  unfold decodeConfig
  cases hr : Reg.ofNumber? a.reg with
  | none => exact .inl ⟨_, rfl⟩
  | some r =>
    by_cases hv : a.val < 256
    · exact .inr ⟨r, _, Reg.number_of_ofNumber? hr, if_pos hv⟩
    · exact .inl ⟨_, if_neg hv⟩

/-- What the decoder can answer to a command: an operation that has its byte, a refusal of the operands where some
operation has its byte, or that the byte is reserved. -/
inductive Decodes (c : Command) : Except DecodeError Instr → Prop where
  | operation {i : Instr} (hcmd : (encode i).cmd = c.cmd) : Decodes c (.ok i)
  | badOperand {i : Instr} (hcmd : (encode i).cmd = c.cmd) (e : DecodeError) : Decodes c (.error e)
  | reserved : Decodes c (.error (.reservedCommand c.cmd))

theorem decodeConfig_decodes {c : Command} {k : Reg → Byte → Instr} (hcmd : ∀ r v, (encode (k r v)).cmd = c.cmd) :
    Decodes c (decodeConfig c.args k) := by
  obtain ⟨e, he⟩ | ⟨r, v, -, hok⟩ := decodeConfig_cases c.args k
  · exact he ▸ .badOperand (hcmd .flush 0) e
  · exact hok ▸ .operation (hcmd r v)

/-- Along the rows of R88: the 9th, 16th and 21st are the CONFIGs, and what comes after the 23rd is no row. -/
theorem decode_decodes (c : Command) : Decodes c (decode c) := by
  unfold decode
  split
  case h_9 hu ho | h_16 hu ho | h_21 hu ho => exact decodeConfig_decodes fun _ _ => cmdByte_of_halves hu ho
  case h_24 => exact .reserved
  all_goals next hu ho => exact .operation (cmdByte_of_halves hu ho)

theorem encode_cmd_of_decode {c : Command} {i : Instr} (h : decode c = .ok i) : (encode i).cmd = c.cmd := by
  have hc := decode_decodes c
  rw [h] at hc
  cases hc with
  | operation hcmd => exact hcmd

/-- Settles O2: encodings are read back, and of what the decoder can answer only an operation is no refusal. -/
theorem decodeEncodeAgree : Obligations.DecodeEncodeAgree :=
  ⟨fun i _ => decode_encode i, fun _ i h => ⟨encode_cmd_of_decode h, decode_encode i⟩⟩

/-- Settles O1, by running the decoder on the 23 commands. -/
theorem tableWordsDecode : Obligations.TableWordsDecode := by
  unfold Obligations.TableWordsDecode
  decide

/-- The command bytes of the table of 30_encoding.md R88. -/
def tableBytes : List Byte :=
  [0x00#8, 0x01#8, 0x02#8, 0x03#8, 0x04#8, 0x05#8, 0x10#8, 0x11#8, 0x12#8, 0x20#8, 0x21#8, 0x30#8, 0x31#8,
    0x40#8, 0x41#8, 0x42#8, 0x50#8, 0x51#8, 0x60#8, 0x61#8, 0x62#8, 0x70#8, 0x71#8]

theorem encode_cmd_mem_tableBytes (i : Instr) : (encode i).cmd ∈ tableBytes := by
  cases i <;> simp [encode, cmdByte, tableBytes]

theorem decode_of_not_mem_tableBytes {c : Command} (h : c.cmd ∉ tableBytes) :
    decode c = .error (.reservedCommand c.cmd) := by
  have hrow (i : Instr) : (encode i).cmd ≠ c.cmd := fun hcmd => h (hcmd ▸ encode_cmd_mem_tableBytes i)
  have hc := decode_decodes c
  generalize decode c = d at hc ⊢
  cases hc with
  | operation hcmd => exact absurd hcmd (hrow _)
  | badOperand hcmd => exact absurd hcmd (hrow _)
  | reserved => rfl

end Sys2Proof
end

section
/-!
What is refused: an ill-formed CONFIG by its meaning, and the commands of 30_encoding.md R92 by the decoder or the
meaning.
-/
namespace Sys2Proof.Machine

/-! ### Ill-formed CONFIGs -/

theorem withUnit_refused {σ : Type} {units : List σ} {ref : Nat} {k : σ → Host.Outcome State Fault Refusal}
    (hk : ∀ u, ∃ r, k u = .refused r) : ∃ r, withUnit units ref k = .refused r := by
  unfold withUnit
  cases units[ref]? with
  | none => exact ⟨_, rfl⟩
  | some u => exact hk u

theorem FrameEnc.config_of_not_writable (x : FrameEnc) {reg : Reg} (val : Byte) (h : reg.frameEncWritable = false) :
    x.config reg val = none := by
  cases reg with
  | z => cases h
  | o => cases h
  | _ => rfl

theorem execXcConfig_refused {k : Nat} {reg : Reg} {val : Byte} (s : State)
    (h : (reg.xcWritable && decide (val.toNat ≤ 1)) = false) : ∃ r, execXcConfig k reg val s = .refused r :=
  withUnit_refused fun x => by
    by_cases hreg : reg.xcWritable = true
    · have hval : ¬ val.toNat ≤ 1 := by simpa [hreg] using h
      exact ⟨_, (if_pos hreg).trans (if_neg hval)⟩
    · exact ⟨_, if_neg hreg⟩

theorem execFrameEncConfig_refused {k : Nat} {reg : Reg} {val : Byte} (s : State) (h : reg.frameEncWritable = false) :
    ∃ r, execFrameEncConfig k reg val s = .refused r :=
  withUnit_refused fun x => ⟨.registerNotWritable reg, by rw [x.config_of_not_writable val h]⟩

theorem execX2dEncConfig_refused {k : Nat} {reg : Reg} {val : Byte} (s : State) (h : reg.frameEncWritable = false) :
    ∃ r, execX2dEncConfig k reg val s = .refused r :=
  withUnit_refused fun e => ⟨.registerNotWritable reg, by rw [e.fe.config_of_not_writable val h]⟩

/-- Settles O19: only the three CONFIGs can be ill-formed. -/
theorem illFormedConfigsRefused : Obligations.IllFormedConfigsRefused := by
  intro i s h
  cases i with
  | xcConfig => exact execXcConfig_refused s h
  | frameEncConfig => exact execFrameEncConfig_refused s h
  | x2dEncConfig => exact execX2dEncConfig_refused s h
  | _ => cases h

/-! ### Refused commands -/

theorem step_of_decode_error {s : State} {c : Command} {rest : List Call} {e : DecodeError}
    (hcalls : s.calls = .invoke c :: rest) (hdec : decode c = .error e) : step s = .refused (.undecodable e) := by
  simp only [step, State.takeCall_of_calls_cons hcalls, hdec]

/-- A CONFIG that is ill-formed whatever its value is refused, by the decoder or by the meaning. -/
theorem step_config_refused {s : State} {c : Command} {rest : List Call} {k : Reg → Byte → Instr}
    (hcalls : s.calls = .invoke c :: rest) (hdec : decode c = decodeConfig c.args k)
    (hbad : ∀ r v, r.number = c.args.reg → (k r v).WellFormed = false) : ∃ r, step s = .refused r := by
  obtain ⟨e, he⟩ | ⟨r, v, hr, hok⟩ := decodeConfig_cases c.args k
  · exact ⟨_, step_of_decode_error hcalls (hdec.trans he)⟩
  · rw [step_of_decode_ok hcalls (hdec.trans hok)]
    exact illFormedConfigsRefused _ _ (hbad r v hr)

theorem xcConfig_illFormed_of_number {r : Reg} (h : r.number ≠ 0) (x : Nat) (v : Byte) :
    (Instr.xcConfig x r v).WellFormed = false := by
  cases r with
  | flush => exact absurd rfl h
  | _ => rfl

theorem Reg.frameEncWritable_of_number {r : Reg} (hz : r.number ≠ 3) (ho : r.number ≠ 4) :
    r.frameEncWritable = false := by
  cases r with
  | z => exact absurd rfl hz
  | o => exact absurd rfl ho
  | _ => rfl

/-- Settles O3: a byte outside the table is no operation's, and a CONFIG's register is the one with its number. -/
theorem reservedCommandsRefused : Obligations.ReservedCommandsRefused := by
  intro s c rest hcalls
  refine ⟨fun hcmd => ?_, fun hcmd h0 => ?_, fun hcmd h3 h4 => ?_, fun hcmd h3 h4 => ?_⟩
  · exact step_of_decode_error hcalls (decode_of_not_mem_tableBytes hcmd)
  · exact step_config_refused hcalls (decode_of_xcConfig hcmd)
      fun _ _ hr => xcConfig_illFormed_of_number (hr ▸ h0) _ _
  · exact step_config_refused hcalls (decode_of_frameEncConfig hcmd)
      fun _ _ hr => Reg.frameEncWritable_of_number (hr ▸ h3) (hr ▸ h4)
  · exact step_config_refused hcalls (decode_of_x2dEncConfig hcmd)
      fun _ _ hr => Reg.frameEncWritable_of_number (hr ▸ h3) (hr ▸ h4)

end Sys2Proof.Machine
end

section
/-!
Buffers of a mode that a stage does not accept (30_encoding.md R91, 60_exceptions.md R244).
-/
namespace Sys2Proof.Machine

variable {σ : Type}

/-! ### Putting back what is there -/

theorem set_of_get {α : Type} {l : List α} {k : Nat} {u : α} (h : l[k]? = some u) : l.set k u = l := by
  obtain ⟨hk, rfl⟩ := List.getElem?_eq_some_iff.mp h
  exact List.set_getElem_self hk

theorem State.putXc_of_get {s : State} {k : Nat} {x : Xc} (h : s.xcs[k]? = some x) : s.putXc k x = s := by
  rw [State.putXc, set_of_get h]

theorem State.putBe_of_get {s : State} {k : Nat} {x : BiphaseEnc} (h : s.bes[k]? = some x) : s.putBe k x = s := by
  rw [State.putBe, set_of_get h]

theorem State.putFe_of_get {s : State} {k : Nat} {x : FrameEnc} (h : s.fes[k]? = some x) : s.putFe k x = s := by
  rw [State.putFe, set_of_get h]

theorem State.putFd_of_get {s : State} {k : Nat} {x : FrameDec} (h : s.fds[k]? = some x) : s.putFd k x = s := by
  rw [State.putFd, set_of_get h]

theorem State.putBuf_of_get {s : State} {k : Nat} {B : BitBuffer} (h : s.bufs[k]? = some B) : s.putBuf k B = s := by
  rw [State.putBuf, set_of_get h]

/-! ### Stages that test the modes -/

/-- A stage that starts from unit state `st` and answers an invalid input or else an invalid output with its code,
giving everything back as it was. -/
structure StageTestsModes (invalid : BitBuffer → Prop) (st : σ) (two : BitBuffer → BitBuffer → StageResult σ)
    (one : BitBuffer → Option (OneResult σ)) : Prop where
  inp : ∀ i o, invalid i → two i o = { code := .invalidInputType, st := st, inp := i, out := o }
  out : ∀ i o, ¬ invalid i → invalid o → two i o = { code := .invalidOutputType, st := st, inp := i, out := o }
  one : ∀ b, invalid b → one b = some { code := .invalidInputType, st := st, buf := b }

theorem onBits_testsModes (st : σ) (body : Nat → Fifo Bit → Fifo Bit → FifoResult σ Bit Bit)
    (bodyOne : Nat → Fifo Bit → Option (OneFifoResult σ Bit)) :
    StageTestsModes (·.order? = none) st (fun i o => onBits st i o body) (fun b => onOneBits st b bodyOne) where
  inp := by
    rintro ⟨ni, q | ⟨order, q⟩ | _⟩ o h
    case bits => cases h
    all_goals rfl
  out := by
    rintro ⟨ni, q | ⟨order, q⟩ | _⟩ ⟨no, p | ⟨order', p⟩ | _⟩ hi ho
    case bits.bits => cases ho
    case bits.bytes => rfl
    case bits.reserved => rfl
    all_goals exact absurd rfl hi
  one := by
    rintro ⟨nb, q | ⟨order, q⟩ | _⟩ h
    case bits => cases h
    all_goals rfl

theorem BitBuffer.mode_eq_reserved_iff (B : BitBuffer) : B.mode = .reserved ↔ B.store = .reserved := by
  obtain ⟨nb, q | ⟨_ | _, q⟩ | _⟩ := B <;> simp [BitBuffer.mode]

theorem xc_testsModes (x : Xc) : StageTestsModes (·.mode = .reserved) x (xcProcess x) (xcOne x) where
  inp := by
    simp only [BitBuffer.mode_eq_reserved_iff]
    rintro ⟨ni, _⟩ o ⟨⟩
    rfl
  out := by
    simp only [BitBuffer.mode_eq_reserved_iff]
    rintro ⟨ni, q | ⟨order, q⟩ | _⟩ ⟨no, _⟩ hi ⟨⟩
    case reserved => exact absurd rfl hi
    all_goals rfl
  one := by
    simp only [BitBuffer.mode_eq_reserved_iff]
    rintro ⟨nb, _⟩ ⟨⟩
    rfl

/-! ### The transaction -/

/-- What an operation answers to an invalid input, or else output, with nothing else changed. -/
def ReportsModes (invalid : BitBuffer → Prop) (bi bo : BitBuffer) (s : State) (t : Host.Outcome State Fault Refusal) :
    Prop :=
  (invalid bi → t = .next (s.respond (.code .invalidInputType))) ∧
  (¬ invalid bi → invalid bo → t = .next (s.respond (.code .invalidOutputType)))

section Process

variable {s : State} {k inp out : Nat} {bi bo : BitBuffer} {invalid : BitBuffer → Prop}

theorem State.process_reportsModes {two : BitBuffer → BitBuffer → StageResult σ}
    {one : BitBuffer → Option (OneResult σ)} {save : State → σ → State} {st : σ}
    (hstage : StageTestsModes invalid st two one) (hsave : save s st = s) (hbi : s.bufs[inp]? = some bi)
    (hbo : s.bufs[out]? = some bo) :
    ReportsModes invalid bi bo s (s.process inp out two one save) := by
  by_cases hne : inp = out
  · subst hne
    obtain rfl : bi = bo := Option.some.inj (hbi.symm.trans hbo)
    refine ⟨fun hi => ?_, fun hi ho => absurd ho hi⟩
    rw [State.process_of_eq hbi (hstage.one bi hi), hsave, State.putBuf_of_get hbi]
  · rw [State.process_of_ne hbi hbo hne]
    refine ⟨fun hi => ?_, fun hi ho => ?_⟩
    · rw [hstage.inp bi bo hi, hsave, State.putBuf_of_get hbi, State.putBuf_of_get hbo]
    · rw [hstage.out bi bo hi ho, hsave, State.putBuf_of_get hbi, State.putBuf_of_get hbo]

/-- The same where the stage is run from the unit that a reference names. -/
theorem withUnit_process_reportsModes {units : List σ} {two : σ → BitBuffer → BitBuffer → StageResult σ}
    {one : σ → BitBuffer → Option (OneResult σ)} {save : State → σ → State}
    (hstage : ∀ u, StageTestsModes invalid u (two u) (one u)) (hsave : ∀ {u}, units[k]? = some u → save s u = s)
    (hk : k < units.length) (hbi : s.bufs[inp]? = some bi) (hbo : s.bufs[out]? = some bo) :
    ReportsModes invalid bi bo s (withUnit units k fun u => s.process inp out (two u) (one u) save) := by
  have hu := List.getElem?_eq_getElem hk
  rw [withUnit_of_get hu]
  exact State.process_reportsModes (hstage _) (hsave hu) hbi hbo

end Process

/-- Settles O47: each of the stages tests the modes before anything else. -/
theorem wrongModesAreReportedInputFirst : Obligations.WrongModesAreReportedInputFirst := by
  intro s k inp out bi bo hbi hbo
  refine ⟨?_, fun hk => withUnit_process_reportsModes xc_testsModes State.putXc_of_get hk hbi hbo⟩
  rintro i (⟨rfl, hk⟩ | rfl | ⟨rfl, hk⟩ | ⟨rfl, hk⟩)
  · exact withUnit_process_reportsModes (fun _ => onBits_testsModes ..) State.putBe_of_get hk hbi hbo
  · exact State.process_reportsModes (save := fun s' _ => s') (onBits_testsModes ..) rfl hbi hbo
  · exact withUnit_process_reportsModes (fun _ => onBits_testsModes ..) State.putFe_of_get hk hbi hbo
  · exact withUnit_process_reportsModes (fun _ => onBits_testsModes ..) State.putFd_of_get hk hbi hbo

end Sys2Proof.Machine
end

section
/-!
The six buffer primitives (40_bitbuffer_ops.md R110 to R116): what each does to the units of a buffer, what it leaves
as it was, and where it faults.
-/
namespace Sys2Proof.Machine

/-! ### Units -/

section Units

variable {α : Type}

theorem Fifo.read?_of_get {q : Fifo α} {off : Nat} {u : α} (h : q.content[off]? = some u) : q.read? off = some u := h

theorem Fifo.read?_eq_none {q : Fifo α} {off : Nat} (h : q.filled ≤ off) : q.read? off = none :=
  List.getElem?_eq_none h

theorem Fifo.cell_of_get {q : Fifo α} {k : Nat} {u : α} (h : q.content[k]? = some u) : q.cell k = some u :=
  (if_pos (List.getElem?_eq_some_iff.mp h).1).trans h

theorem Fifo.cell_filled_add (q : Fifo α) (j : Nat) : q.cell (q.filled + j) = (q.staged[j]?).join := by
  rw [Fifo.cell, if_neg (by omega), Nat.add_sub_cancel_left]

/-- A write sets the one cell at its offset behind the content (R111). -/
theorem Fifo.writeUnit_cell (q : Fifo α) (off : Nat) (v : α) (k : Nat) :
    (q.writeUnit off v).cell k = if k = q.filled + off then some v else q.cell k := by
  by_cases hk : k < q.filled
  · rw [if_neg (by omega)]
    exact (if_pos hk).trans (if_pos hk).symm
  · obtain ⟨j, rfl⟩ := Nat.exists_eq_add_of_le (Nat.le_of_not_lt hk)
    have hstaged : (q.writeUnit off v).cell (q.filled + j) = ((stageAt q.staged off v)[j]?).join :=
      Fifo.cell_filled_add (q.writeUnit off v) j
    rw [hstaged, stageAt_get, Fifo.cell_filled_add]
    simp only [Nat.add_left_cancel_iff]

/-- The units that a produce appends: as many as asked for, and each written one among them (R115). -/
theorem Fifo.exists_produce_eq (free : Nat → α) (q : Fifo α) (n : Nat) :
    ∃ us : List α, us.length = n ∧ (∀ j u, j < n → q.cell (q.filled + j) = some u → us[j]? = some u) ∧
      q.produce free n = ⟨q.content ++ us, q.staged.drop n⟩ := by
  refine ⟨_, ?_, fun j u hj hu => ?_, rfl⟩
  · rw [List.length_map, List.length_range]
  · rw [Fifo.cell_filled_add] at hu
    rw [List.getElem?_map, List.getElem?_range hj, Option.map_some, hu, Option.getD_some]

/-- Where the next `us.length` units are written, they are what a produce appends. -/
theorem Fifo.produce_of_staged (free : Nat → α) {q : Fifo α} {us : List α} {rest : List (Option α)}
    (h : q.staged = us.map some ++ rest) : q.produce free us.length = ⟨q.content ++ us, rest⟩ := by
  obtain ⟨vs, hlen, hwritten, hprod⟩ := q.exists_produce_eq free us.length
  have hvs : vs = us := by
    refine List.ext_getElem hlen fun j hj hj' => ?_
    have hcell : q.cell (q.filled + j) = some us[j] := by
      rw [Fifo.cell_filled_add, h, List.getElem?_append_left (by simpa using hj'), List.getElem?_map,
        List.getElem?_eq_getElem hj']
      rfl
    exact Option.some.inj ((List.getElem?_eq_getElem hj).symm.trans (hwritten j _ hj' hcell))
  rw [hprod, hvs, h, List.drop_left' (by simp)]

theorem stageAt_append (l r : List (Option α)) (v : α) : stageAt (l ++ r) l.length v = l ++ some v :: r.drop 1 := by
  induction l with
  | nil => cases r <;> rfl
  | cons a l ih => exact congrArg (a :: ·) ih

/-- A write at each offset from `off` on, in turn (R115, last sentence). -/
def Fifo.writeUnits (q : Fifo α) (off : Nat) (us : List α) : Fifo α :=
  (us.zipIdx off).foldl (fun p u => p.writeUnit u.2 u.1) q

theorem Fifo.writeUnits_content (q : Fifo α) (off : Nat) (us : List α) :
    (q.writeUnits off us).content = q.content := by
  induction us generalizing q off with
  | nil => rfl
  | cons u us ih => exact ih (q.writeUnit off u) (off + 1)

theorem Fifo.writeUnits_staged {q : Fifo α} {l r : List (Option α)} (h : q.staged = l ++ r) (us : List α) :
    (q.writeUnits l.length us).staged = l ++ us.map some ++ r.drop us.length := by
  induction us generalizing q l r with
  | nil => simpa [Fifo.writeUnits] using h
  | cons u us ih =>
    have hstaged : (q.writeUnit l.length u).staged = (l ++ [some u]) ++ r.drop 1 := by
      rw [Fifo.writeUnit_staged, h, stageAt_append, List.append_cons]
    have hnext := ih hstaged
    rw [List.length_append, List.length_singleton, List.drop_drop, Nat.add_comm 1] at hnext
    rw [List.map_cons, List.append_cons, List.length_cons, ← hnext]
    rfl

theorem Fifo.writeUnits_produce (q : Fifo α) (us : List α) (free : Nat → α) :
    (q.writeUnits 0 us).produce free us.length = q.emit us := by
  have hstaged : (q.writeUnits 0 us).staged = us.map some ++ q.staged.drop us.length :=
    Fifo.writeUnits_staged (l := []) rfl us
  rw [Fifo.produce_of_staged free hstaged, Fifo.writeUnits_content]
  rfl

end Units

/-- Settles O15: the writes stage exactly the units that the produce then appends. -/
theorem emitIsWritesThenProduce : Obligations.EmitIsWritesThenProduce := fun _ q us free =>
  ⟨congrArg Fifo.content (q.writeUnits_produce us free), congrArg Fifo.staged (q.writeUnits_produce us free)⟩

/-! ### What a primitive answers -/

/-- The bit at index `k` stands in byte `k / 8` at the place that `shift` gives it (20_memory.md R51). -/
theorem BitBuffer.dataBit_of_get {nb : Nat} {order : BitOrder} {q : Fifo Bit} {k : Nat} {b : Bit}
    (h : q.content[k]? = some b) : (BitBuffer.mk nb (.bits order q)).dataBit (k / 8) (shift order k) = some b := by
  simp only [BitBuffer.dataBit, shift_shift, Nat.div_add_mod]
  exact Fifo.cell_of_get h

theorem BitBuffer.dataByte_of_get {nb : Nat} {q : Fifo Byte} {k : Nat} {v : Byte} (h : q.content[k]? = some v) :
    (BitBuffer.mk nb (.bytes q)).dataByte k = some v := by
  have hbits : (List.range 8).mapM (fun p => (BitBuffer.mk nb (.bytes q)).dataBit k p) = some (unpackByte .lsb v) := by
    simp only [BitBuffer.dataBit, Fifo.cell_of_get h]
    rfl
  rw [BitBuffer.dataByte, hbits, Option.map_some, packByte_unpackByte]

theorem BitBuffer.mode_bits_ne_byte (nb : Nat) (order : BitOrder) (q : Fifo Bit) :
    BitBuffer.mode ⟨nb, .bits order q⟩ ≠ .byte := by cases order <;> exact nofun

section Faults

variable {s : State} {buf off n v : Nat} {B : BitBuffer}

theorem execBufRead_readPastContent (hB : s.bufs[buf]? = some B) (hmode : B.mode ≠ .reserved) (h : B.filled ≤ off) :
    execBufRead buf off s = .fault .readPastContent := by
  rw [execBufRead, withBuffer_of_get hB]
  obtain ⟨nb, q | ⟨order, q⟩ | _⟩ := B
  case reserved => exact absurd rfl hmode
  all_goals simp only [Fifo.read?_eq_none h]

theorem execBufWrite_writePastCapacity (hB : s.bufs[buf]? = some B) (hmode : B.mode ≠ .reserved)
    (h : B.capacity ≤ B.filled + off) : execBufWrite buf off v s = .fault .writePastCapacity := by
  rw [execBufWrite, withBuffer_of_get hB]
  obtain ⟨nb, q | ⟨order, q⟩ | _⟩ := B
  case reserved => exact absurd rfl hmode
  all_goals exact if_neg (Nat.not_lt.mpr h)

theorem execBufWrite_valueNotAUnit (hB : s.bufs[buf]? = some B) (hmode : B.mode ≠ .reserved)
    (h : B.filled + off < B.capacity) (hv : (if B.mode = .byte then 256 else 2) ≤ v) :
    execBufWrite buf off v s = .fault .valueNotAUnit := by
  rw [execBufWrite, withBuffer_of_get hB]
  obtain ⟨nb, q | ⟨order, q⟩ | _⟩ := B
  case reserved => exact absurd rfl hmode
  case bytes =>
    rw [if_pos (show BitBuffer.mode ⟨nb, .bytes q⟩ = .byte from rfl)] at hv
    exact (if_pos h).trans (if_neg (Nat.not_lt.mpr hv))
  case bits =>
    rw [if_neg (BitBuffer.mode_bits_ne_byte nb order q)] at hv
    exact (if_pos h).trans (if_neg (Nat.not_lt.mpr hv))

theorem execBufConsume_consumePastContent (hB : s.bufs[buf]? = some B) (hmode : B.mode ≠ .reserved)
    (h : B.filled < n) : execBufConsume buf n s = .fault .consumePastContent := by
  rw [execBufConsume, withBuffer_of_get hB]
  obtain ⟨nb, q | ⟨order, q⟩ | _⟩ := B
  case reserved => exact absurd rfl hmode
  all_goals exact if_neg (Nat.not_le.mpr h)

theorem execBufProduce_producePastCapacity (hB : s.bufs[buf]? = some B) (hmode : B.mode ≠ .reserved)
    (h : B.capacity < B.filled + n) : execBufProduce buf n s = .fault .producePastCapacity := by
  rw [execBufProduce, withBuffer_of_get hB]
  obtain ⟨nb, q | ⟨order, q⟩ | _⟩ := B
  case reserved => exact absurd rfl hmode
  all_goals exact if_neg (Nat.not_le.mpr h)

end Faults

/-- Settles O9: the unit read is the one that the view of the physical bytes shows at its place. -/
theorem bufReadAnswersTheUnit : Obligations.BufReadAnswersTheUnit := by
  intro s buf off nb
  refine ⟨fun order q b hB hb => ⟨(withBuffer_of_get hB).trans ?_, BitBuffer.dataBit_of_get hb⟩,
    fun q v hB hv => ⟨(withBuffer_of_get hB).trans ?_, BitBuffer.dataByte_of_get hv⟩,
    fun B => execBufRead_readPastContent⟩
  · simp only [Fifo.read?_of_get hb, State.respond]
  · simp only [Fifo.read?_of_get hv, State.respond]

/-- Settles O10: within its bounds a write is `writeUnit`, which sets one cell. -/
theorem bufWriteSetsOneUnit : Obligations.BufWriteSetsOneUnit := fun _ _ off v _ =>
  ⟨fun _ q hB hs hv => ⟨q.writeUnit off (decide (v = 1)),
      (withBuffer_of_get hB).trans ((if_pos hs).trans (if_pos hv)), rfl, q.writeUnit_cell off _⟩,
    fun q hB hs hv => ⟨q.writeUnit off (BitVec.ofNat 8 v),
      (withBuffer_of_get hB).trans ((if_pos hs).trans (if_pos hv)), rfl, q.writeUnit_cell off _⟩⟩

/-- Settles O13: with room a produce appends what was written, and free values else. -/
theorem bufProduceAppendsWhatWasWritten : Obligations.BufProduceAppendsWhatWasWritten := by
  intro s buf n nb
  refine ⟨fun order q hB hs => ?_, fun q hB hs => ?_⟩
  · obtain ⟨us, hlen, hwritten, hprod⟩ := q.exists_produce_eq (fun j => Config.freeBit (s.fresh + j)) n
    refine ⟨us, hlen, hwritten, (withBuffer_of_get hB).trans ((if_pos hs).trans ?_)⟩
    rw [← hprod]
    rfl
  · obtain ⟨us, hlen, hwritten, hprod⟩ := q.exists_produce_eq (fun j => Config.freeByte (s.fresh + j)) n
    refine ⟨us, hlen, hwritten, (withBuffer_of_get hB).trans ((if_pos hs).trans ?_)⟩
    rw [← hprod]
    rfl

/-- Settles O11: in a buffer of either kind of unit the two tests are the bounds. -/
theorem bufTestsAnswerTheBounds : Obligations.BufTestsAnswerTheBounds := by
  intro s buf off n B hB hmode
  obtain ⟨nb, q | ⟨order, q⟩ | _⟩ := B
  case reserved => exact absurd rfl hmode
  all_goals exact ⟨withBuffer_of_get hB, withBuffer_of_get hB⟩

/-- Settles O12: within the content a consume is `Fifo.consume`. -/
theorem bufConsumeRemovesFromTheHead : Obligations.BufConsumeRemovesFromTheHead := fun _ _ n _ =>
  ⟨fun _ q hB hn => ⟨q.consume n, (withBuffer_of_get hB).trans (if_pos hn), q.consume_content n, q.consume_filled n,
      fun h0 => if_pos h0⟩,
    fun q hB hn => ⟨q.consume n, (withBuffer_of_get hB).trans (if_pos hn), q.consume_content n, q.consume_filled n,
      fun h0 => if_pos h0⟩⟩

/-- Settles O14: a fault for each bound, and a buffer of the reserved mode has no unit for any of the six. -/
theorem bufPreconditionsFault : Obligations.BufPreconditionsFault := by
  intro s buf off n v B hB
  refine ⟨execBufRead_readPastContent hB, execBufWrite_writePastCapacity hB, execBufWrite_valueNotAUnit hB,
    execBufConsume_consumePastContent hB, execBufProduce_producePastCapacity hB, fun hmode => ?_⟩
  obtain ⟨nb, store⟩ := B
  obtain rfl := (BitBuffer.mode_eq_reserved_iff _).mp hmode
  simp only [List.forall_mem_cons, List.not_mem_nil, false_implies, implies_true, and_true]
  exact ⟨withBuffer_of_get hB, withBuffer_of_get hB, withBuffer_of_get hB, withBuffer_of_get hB,
    withBuffer_of_get hB, withBuffer_of_get hB⟩

/-! ### What a primitive can do to the machine -/

section Frames

variable {s t : State} {buf off n v : Nat}

theorem execBufRead_next (h : execBufRead buf off s = .next t) : ∃ r, t = s.respond r := by
  obtain ⟨⟨nb, store⟩, -, h⟩ := withBuffer_next h
  cases store <;> simp only at h
  case reserved => cases h
  all_goals
    split at h <;> cases h
    exact ⟨_, rfl⟩

theorem execBufHasAvail_next (h : execBufHasAvail buf off n s = .next t) : ∃ r, t = s.respond r := by
  obtain ⟨⟨nb, store⟩, -, h⟩ := withBuffer_next h
  cases store <;> cases h <;> exact ⟨_, rfl⟩

theorem execBufHasSpace_next (h : execBufHasSpace buf off n s = .next t) : ∃ r, t = s.respond r := by
  obtain ⟨⟨nb, store⟩, -, h⟩ := withBuffer_next h
  cases store <;> cases h <;> exact ⟨_, rfl⟩

theorem execBufWrite_next (h : execBufWrite buf off v s = .next t) : ∃ B, t = (s.putBuf buf B).respond .nothing := by
  obtain ⟨⟨nb, store⟩, -, h⟩ := withBuffer_next h
  cases store <;> simp only at h
  case reserved => cases h
  all_goals
    split at h
    · split at h <;> cases h
      exact ⟨_, rfl⟩
    · cases h

theorem execBufConsume_next (h : execBufConsume buf n s = .next t) : ∃ B, t = (s.putBuf buf B).respond .nothing := by
  obtain ⟨⟨nb, store⟩, -, h⟩ := withBuffer_next h
  cases store <;> simp only at h
  case reserved => cases h
  all_goals
    split at h <;> cases h
    exact ⟨_, rfl⟩

theorem execBufProduce_next (h : execBufProduce buf n s = .next t) :
    ∃ B, t = ((s.putBuf buf B).draw n).respond .nothing := by
  obtain ⟨⟨nb, store⟩, -, h⟩ := withBuffer_next h
  cases store <;> simp only at h
  case reserved => cases h
  all_goals
    split at h <;> cases h
    exact ⟨_, rfl⟩

theorem UnchangedOutside.refl (fp : Footprint) (s : State) : UnchangedOutside fp s s := (OnlyUnit.refl fp s).1

theorem UnchangedOutside.draw {fp : Footprint} (h : UnchangedOutside fp s t) (n : Nat) :
    UnchangedOutside fp s (t.draw n) := h

theorem frame_of_respond {fp : Footprint} (h : ∃ r, t = s.respond r) :
    UnchangedOutside fp s t ∧ t.fresh = s.fresh := by
  obtain ⟨r, rfl⟩ := h
  exact ⟨(UnchangedOutside.refl fp s).respond r, rfl⟩

theorem frame_of_putBuf {fp : Footprint} (hk : buf ∈ fp.bufs) (h : ∃ B, t = (s.putBuf buf B).respond .nothing) :
    UnchangedOutside fp s t ∧ t.fresh = s.fresh := by
  obtain ⟨B, rfl⟩ := h
  exact ⟨((UnchangedOutside.refl fp s).putBuf hk B).respond _, rfl⟩

end Frames

/-- Settles O54: a primitive puts back at most the buffer it names, and answers. -/
theorem primitiveFrame : Obligations.PrimitiveFrame := by
  intro i s t hkind h
  cases i with
  | bufRead => exact (frame_of_respond (execBufRead_next h)).imp_right fun hfresh _ => hfresh
  | bufHasAvail => exact (frame_of_respond (execBufHasAvail_next h)).imp_right fun hfresh _ => hfresh
  | bufHasSpace => exact (frame_of_respond (execBufHasSpace_next h)).imp_right fun hfresh _ => hfresh
  | bufWrite buf =>
    exact (frame_of_putBuf (List.mem_singleton_self buf) (execBufWrite_next h)).imp_right fun hfresh _ => hfresh
  | bufConsume buf =>
    exact (frame_of_putBuf (List.mem_singleton_self buf) (execBufConsume_next h)).imp_right fun hfresh _ => hfresh
  | bufProduce buf n =>
    obtain ⟨B, rfl⟩ := execBufProduce_next h
    exact ⟨(((UnchangedOutside.refl _ s).putBuf (List.mem_singleton_self buf) B).draw n).respond _,
      fun hne => absurd rfl (hne buf n)⟩
  | _ => nomatch hkind

end Sys2Proof.Machine
end

section
/-!
Which operations can fault (40_bitbuffer_ops.md R116): the primitives, and the transcoder from a buffer to itself.
-/
namespace Sys2Proof.Machine

variable {σ : Type}

/-- An operation on a unit faults only where the reference names one and what is done with it faults. -/
theorem withUnit_fault {units : List σ} {ref : Nat} {k : σ → Host.Outcome State Fault Refusal} {f : Fault}
    (h : withUnit units ref k = .fault f) : ∃ u, units[ref]? = some u ∧ k u = .fault f := by
  unfold withUnit at h
  cases hu : units[ref]? with
  | none => simp [hu] at h
  | some u => exact ⟨u, rfl, by simpa [hu] using h⟩

theorem withUnit_ne_fault {units : List σ} {ref : Nat} {k : σ → Host.Outcome State Fault Refusal} {f : Fault}
    (hk : ∀ u, k u ≠ .fault f) : withUnit units ref k ≠ .fault f := fun h =>
  have ⟨u, _, hu⟩ := withUnit_fault h
  hk u hu

/-! ### CONFIGs -/

section Configs

variable {k : Nat} {reg : Reg} {val : Byte} {f : Fault}

theorem execXcConfig_ne_fault (s : State) : execXcConfig k reg val s ≠ .fault f :=
  withUnit_ne_fault fun x => by
    split
    · split <;> exact nofun
    · exact nofun

theorem execFrameEncConfig_ne_fault (s : State) : execFrameEncConfig k reg val s ≠ .fault f :=
  withUnit_ne_fault fun x => by split <;> exact nofun

theorem execX2dEncConfig_ne_fault (s : State) : execX2dEncConfig k reg val s ≠ .fault f :=
  withUnit_ne_fault fun e => by split <;> exact nofun

end Configs

/-! ### PROCESS -/

theorem onOneBits_isSome (st : σ) {body : Nat → Fifo Bit → Option (OneFifoResult σ Bit)}
    (hbody : ∀ cap q, (body cap q).isSome = true) (b : BitBuffer) : (onOneBits st b body).isSome = true := by
  obtain ⟨nb, q | ⟨order, q⟩ | _⟩ := b
  case bits => exact Option.isSome_map.trans (hbody (8 * nb) q)
  all_goals rfl

theorem bmcEncOne_isSome (be : BiphaseEnc) (b : BitBuffer) : (bmcEncOne be b).isSome = true :=
  onOneBits_isSome be (fun cap q => runOne_bmcEnc_isSome cap be q) b

theorem bmcDecOne_isSome (b : BitBuffer) : (bmcDecOne b).isSome = true := onOneBits_isSome () runOne_bmcDec_isSome b

theorem frameEncOne_isSome (fe : FrameEnc) (b : BitBuffer) : (frameEncOne fe b).isSome = true :=
  onOneBits_isSome fe (fun _ _ => rfl) b

theorem frameDecOne_isSome (fd : FrameDec) (b : BitBuffer) : (frameDecOne fd b).isSome = true :=
  onOneBits_isSome fd (fun _ _ => rfl) b

theorem State.process_ne_fault {s : State} {inp out : Nat} {two : BitBuffer → BitBuffer → StageResult σ}
    {one : BitBuffer → Option (OneResult σ)} {save : State → σ → State} {f : Fault}
    (hone : ∀ b, (one b).isSome = true) : s.process inp out two one save ≠ .fault f := fun h => by
  obtain ⟨-, -, b, -, hnone⟩ := State.process_fault h
  exact Option.isSome_iff_ne_none.mp (hone b) hnone

theorem execXcProcess_fault {s : State} {k inp out : Nat} {f : Fault} (h : execXcProcess k inp out s = .fault f) :
    f = .neverEnds ∧ inp = out := by
  obtain ⟨x, -, h⟩ := withUnit_fault h
  obtain ⟨hf, heq, -⟩ := State.process_fault h
  exact ⟨hf, heq⟩

/-- Settles O52: no RESET and no CONFIG faults, nor a PROCESS whose stage on one buffer ends; and every act fits. -/
theorem onlyPrimitivesFault : Obligations.OnlyPrimitivesFault := by
  refine ⟨fun i s r h => ?_, fun cap order u be fe fs qb rb qy ry => ?_⟩
  · cases i with
    | bufRead | bufWrite | bufHasAvail | bufHasSpace | bufConsume | bufProduce => exact .inl rfl
    | xcProcess k inp out =>
      obtain ⟨hr, rfl⟩ := execXcProcess_fault h
      exact .inr ⟨hr, k, inp, rfl⟩
    | xcReset | bmcEncReset | frameEncReset | frameDecReset | x2dEncReset | x2dDecReset =>
      exact absurd h (withUnit_ne_fault fun _ => nofun)
    | bmcDecReset => cases h
    | xcConfig => exact absurd h (execXcConfig_ne_fault s)
    | frameEncConfig => exact absurd h (execFrameEncConfig_ne_fault s)
    | x2dEncConfig => exact absurd h (execX2dEncConfig_ne_fault s)
    | bmcEncProcess => exact absurd h (withUnit_ne_fault fun x => State.process_ne_fault (bmcEncOne_isSome x))
    | bmcDecProcess => exact absurd h (State.process_ne_fault (save := fun s' _ => s') bmcDecOne_isSome)
    | frameEncProcess => exact absurd h (withUnit_ne_fault fun x => State.process_ne_fault (frameEncOne_isSome x))
    | frameDecProcess => exact absurd h (withUnit_ne_fault fun x => State.process_ne_fault (frameDecOne_isSome x))
    | x2dEncProcess | x2dDecProcess =>
      exact absurd h (withUnit_ne_fault fun _ => State.process_ne_fault fun _ => rfl)
  · exact ⟨copyStep_fits cap u qb rb, copyStep_fits cap u qy ry, packStep_fits order cap u qb ry,
      unpackStep_fits order cap u qy rb, bmcEncStep_fits cap be qb rb, bmcDecStep_fits cap () qb rb,
      frameEncAct_fits fe cap qb rb, fun _ _ h => (fdStep_goOn_bounds h).2, fun _ h => fdStep_ret_fits h⟩

end Sys2Proof.Machine
end

section
/-!
The transcoder (41_bitwidth_converter.md): bits of packed and of expanded bytes, and its transactions as next states.
-/
namespace Sys2Proof.Machine

/-! ### Single bits of packed and of expanded bytes -/

theorem shift_eq_ite (order : BitOrder) {j : Nat} (hj : j < 8) :
    shift order j = if order = .lsb then j else 7 - j := by
  cases order <;> simp [shift, Nat.mod_eq_of_lt hj]

theorem shift_inj {order : BitOrder} {j k : Nat} (hj : j < 8) (hk : k < 8) (h : shift order j = shift order k) : j = k := by
  simpa [shift_shift, Nat.mod_eq_of_lt hj, Nat.mod_eq_of_lt hk] using congrArg (shift order) h

/-- What bit number `j` of a group adds to the byte (41_bitwidth_converter.md R133) is one at most at its own place. -/
theorem getLsbD_shiftedBit (order : BitOrder) (b : Bit) {j k : Nat} (hj : j < 8) (hk : k < 8) :
    (if b then BitVec.ofNat 8 (2 ^ shift order j) else 0).getLsbD (shift order k) = (decide (j = k) && b) := by
  cases b with
  | false => simp
  | true =>
    have hiff : shift order j = shift order k ↔ j = k := ⟨shift_inj hj hk, congrArg _⟩
    rw [if_pos rfl, BitVec.getLsbD_ofNat, Nat.testBit_two_pow]
    simp [shift_lt, hiff]

/-- The sum of R133 puts the bits from number `j` on at their places and leaves the other places 0. -/
theorem getLsbD_packFrom (order : BitOrder) (j : Nat) (bs : List Bit) (hlen : j + bs.length ≤ 8) {k : Nat} (hk : k < 8) :
    (packFrom order j bs).getLsbD (shift order k) = (decide (j ≤ k) && bs.getD (k - j) false) := by
  induction bs generalizing j k with
  | nil => simp [packFrom]
  | cons b bs ih =>
    rw [List.length_cons] at hlen
    have hj : j < 8 := by omega
    have hbit : ∀ {k}, k < 8 → (packFrom order (j + 1) bs).getLsbD (shift order k) =
        (decide (j + 1 ≤ k) && bs.getD (k - (j + 1)) false) := fun hk => ih (j + 1) (by omega) hk
    have hdisjoint : (if b then BitVec.ofNat 8 (2 ^ shift order j) else 0) &&& packFrom order (j + 1) bs = 0#8 := by
      refine BitVec.eq_of_getLsbD_eq fun p hp => ?_
      obtain ⟨k, hk, rfl⟩ : ∃ k < 8, shift order k = p :=
        ⟨shift order p, shift_lt order p, (shift_shift order p).trans (Nat.mod_eq_of_lt hp)⟩
      rw [BitVec.getLsbD_and, getLsbD_shiftedBit order b hj hk, hbit hk]
      by_cases hjk : j = k <;> simp [hjk]
    rw [packFrom, BitVec.add_eq_or_of_and_eq_zero _ _ hdisjoint, BitVec.getLsbD_or, getLsbD_shiftedBit order b hj hk,
      hbit hk]
    rcases Nat.lt_trichotomy j k with h | rfl | h
    · obtain ⟨d, rfl⟩ := Nat.exists_eq_add_of_lt h
      simp [show j + d + 1 - (j + 1) = d by omega, show j + d + 1 - j = d + 1 by omega, show j ≤ j + d + 1 by omega,
        show j ≠ j + d + 1 by omega]
    · simp
    · simp [show ¬ j = k by omega, show ¬ j + 1 ≤ k by omega, show ¬ j ≤ k by omega]

theorem getLsbD_packByte (order : BitOrder) {bs : List Bit} (hlen : bs.length ≤ 8) {k : Nat} (hk : k < 8) :
    (packByte order bs).getLsbD (shift order k) = bs.getD k false := by
  simpa [packByte] using getLsbD_packFrom order 0 bs (by omega) hk

/-- Bit number `8 * m + j` of the input is the one at the place of `j` in byte `m`, which has a 0 where there is none. -/
theorem bytesOfBits_getElem?_map (order : BitOrder) (bs : List Bit) {k m j : Nat} (hm : m < k) (hj : j < 8) :
    ((Spec.bytesOfBits order k bs)[m]?).map (fun v => v.getLsbD (shift order j)) = some (bs.getD (8 * m + j) false) := by
  have hget : (Spec.bytesOfBits order k bs)[m]? = some (packByte order ((bs.drop (8 * m)).take 8)) := by
    simp [Spec.bytesOfBits, hm]
  rw [hget, Option.map_some, getLsbD_packByte order (List.length_take_le ..) hj]
  simp [List.getD_eq_getElem?_getD, hj, List.getElem?_drop]

theorem unpackByte_getElem? (order : BitOrder) (v : Byte) {j : Nat} (hj : j < 8) :
    (unpackByte order v)[j]? = some (v.getLsbD (shift order j)) := by simp [unpackByte, hj]

theorem bitsOfBytes_getElem? (order : BitOrder) (vs : List Byte) (m : Nat) {j : Nat} (hj : j < 8) :
    (Spec.bitsOfBytes order vs)[8 * m + j]? = (vs[m]?).map (fun v => v.getLsbD (shift order j)) := by
  induction vs generalizing m with
  | nil => simp
  | cons v vs ih =>
    rw [bitsOfBytes_cons]
    cases m with
    | zero =>
      rw [List.getElem?_append_left (by simp; omega), Nat.mul_zero, Nat.zero_add, unpackByte_getElem? order v hj]
      rfl
    | succ m =>
      rw [List.getElem?_append_right (by simp; omega), unpackByte_length,
        show 8 * (m + 1) + j - 8 = 8 * m + j by omega, ih m]
      rfl

/-! ### The physical byte -/

theorem BitBuffer.dataByte_of_dataBit {B : BitBuffer} {m : Nat} {v : Byte}
    (h : ∀ p < 8, B.dataBit m p = some (v.getLsbD p)) : B.dataByte m = some v := by
  have hbits : (List.range 8).mapM (fun p => B.dataBit m p) = some (unpackByte .lsb v) := by
    simp [show List.range 8 = [0, 1, 2, 3, 4, 5, 6, 7] from rfl, h, unpackByte, shift]
  rw [BitBuffer.dataByte, hbits, Option.map_some, packByte_unpackByte]

/-- Settles O23: place `p` of physical byte `m` holds unit `8 * m + shift order p`, and `shift` is its own inverse. -/
theorem unpackedByteIsThePhysicalByte : Obligations.UnpackedByteIsThePhysicalByte := by
  intro nb m order p v hm
  refine BitBuffer.dataByte_of_dataBit fun k hk => Fifo.cell_of_get ?_
  rw [Fifo.emit_content, List.getElem?_append_right (by rw [← hm]; exact Nat.le_add_right ..),
    show 8 * m + shift order k - p.content.length = shift order k by rw [← hm]; exact Nat.add_sub_cancel_left ..,
    unpackByte_getElem? order v (shift_lt order k), shift_shift, Nat.mod_eq_of_lt hk]

/-! ### Transactions -/

theorem loopCode_of_pos {progress : Bool} {k : Nat} (h : 0 < k) (rc : ResultCode) : loopCode progress k rc = .ok :=
  if_pos (.inr h)

section Transactions

variable {s : State} {x inp out : Nat} {u : Xc} {i o : BitBuffer}

/-- XC.PROCESS on two buffers puts both back and changes nothing else, the transcoder itself included. -/
theorem exec_xcProcess_of_ne {r : StageResult Xc} (hx : s.xcs[x]? = some u) (hi : s.bufs[inp]? = some i)
    (ho : s.bufs[out]? = some o) (hne : inp ≠ out) (hr : xcProcess u i o = r) :
    exec (.xcProcess x inp out) s =
      .next { s with bufs := (s.bufs.set inp r.inp).set out r.out, response := some (.code r.code) } := by
  subst hr
  refine (withUnit_of_get hx).trans ((State.process_of_ne hi ho hne).trans ?_)
  rw [xcProcess_st, State.putXc_of_get hx]
  rfl

theorem exec_xcProcess_neverEnds (hx : s.xcs[x]? = some u) (hi : s.bufs[inp]? = some i) (hone : xcOne u i = none) :
    exec (.xcProcess x inp inp) s = .fault .neverEnds := by
  refine (withUnit_of_get hx).trans ?_
  simp [State.process, hi, hone]

end Transactions

/-- Buffers of different contents stand under different references. -/
theorem ne_of_get_ne {α : Type} {l : List α} {j k : Nat} {a b : α} (ha : l[j]? = some a) (hb : l[k]? = some b)
    (hab : a ≠ b) : j ≠ k := by
  rintro rfl
  exact hab (Option.some.inj (ha.symm.trans hb))

theorem Fifo.emit_take {α : Type} (q p : Fifo α) {k : Nat} (hk : k ≤ q.filled) :
    p.emit (q.content.take k) = { content := p.content ++ q.content.take k, staged := p.staged.drop k } := by
  rw [Fifo.emit, List.length_take_of_le hk]

/-- Settles O20: the closed form of the copy on two buffers, and its loop that never ends on one. -/
theorem xcCopiesLikeToLike : Obligations.XcCopiesLikeToLike := by
  intro s x inp out ni no k u oi oo qb pb qy py hx
  refine ⟨fun hne hk hi ho hmin => ?_, fun hne hk hi ho hmin => ?_, fun hi h0 hfull => ?_, fun hi h0 hfull => ?_⟩
  · rw [exec_xcProcess_of_ne hx hi ho hne (xcProcess_bits_bits ..), ← hmin, loopCode_of_pos hk, Fifo.consume_pos _ hk,
      Fifo.emit_take qb pb (hmin ▸ min_le_left ..)]
  · rw [exec_xcProcess_of_ne hx hi ho hne (xcProcess_bytes_bytes ..), ← hmin, loopCode_of_pos hk, Fifo.consume_pos _ hk,
      Fifo.emit_take qy py (hmin ▸ min_le_left ..)]
  · exact exec_xcProcess_neverEnds hx hi (by rw [xcOne_bits, if_neg (by omega), if_neg (by omega)])
  · exact exec_xcProcess_neverEnds hx hi (by rw [xcOne_bytes, if_neg (by omega), if_neg (by omega)])

theorem Fifo.consume_min_filled {α : Type} (q : Fifo α) {n : Nat} (hq : 0 < q.filled) (hn : 0 < n) :
    q.consume (min q.filled n) = { content := q.content.drop n, staged := [] } := by
  rw [Fifo.consume_pos _ (lt_min hq hn)]
  congr 1
  rcases Nat.le_total q.filled n with h | h
  · rw [min_eq_left h, List.drop_eq_nil_of_le h]
    exact List.drop_eq_nil_of_le le_rfl
  · rw [min_eq_right h]

/-- Settles O21: the closed form of the packing, whose bytes hold the input's bits at the places of their order. -/
theorem xcPacksBitsIntoBytes : Obligations.XcPacksBitsIntoBytes := by
  intro s x inp out ni no k flush order q p hx hi ho hmin hk
  have hne : inp ≠ out := ne_of_get_ne hi ho (by simp)
  have hcount : packCount flush q.filled (no - p.filled) = k := hmin.symm
  have hq : 0 < q.filled := by split at hmin <;> omega
  refine ⟨?_, Spec.bytesOfBits_length order k q.content, fun m hm j hj => ?_⟩
  · rw [exec_xcProcess_of_ne hx hi ho hne (xcProcess_bits_bytes ..), hcount, loopCode_of_pos hk,
      Fifo.consume_min_filled q hq (by omega), Fifo.emit, Spec.bytesOfBits_length]
  · rw [← shift_eq_ite order hj, bytesOfBits_getElem?_map order q.content hm hj]
    split
    · rfl
    next h => rw [List.getD_eq_default _ _ (Nat.le_of_not_lt h)]

/-- Settles O22: the closed form of the expansion, whose bits are those of the bytes at the places of their order. -/
theorem xcUnpacksBytesIntoBits : Obligations.XcUnpacksBytesIntoBits := by
  intro s x inp out ni no k u order q p hx hi ho hmin hk
  have hne : inp ≠ out := ne_of_get_ne hi ho (by simp)
  have hlen : (Spec.bitsOfBytes order (q.content.take k)).length = 8 * k := by
    rw [bitsOfBytes_length, List.length_take_of_le (hmin ▸ min_le_left ..)]
  refine ⟨?_, hlen, fun m hm j hj => ?_⟩
  · rw [exec_xcProcess_of_ne hx hi ho hne (xcProcess_bytes_bits ..), ← hmin, loopCode_of_pos hk, Fifo.consume_pos _ hk,
      Fifo.emit, hlen]
  · rw [← shift_eq_ite order hj, bitsOfBytes_getElem? order _ m hj, List.getElem?_take_of_lt hm]

/-- Settles O24: the first call leaves the bits of all the bytes, and the second makes of them the bytes again. -/
theorem transcoderRoundTrip : Obligations.TranscoderRoundTrip := by
  rintro s x a b c na nb nc ⟨flush⟩ order vs sa sc sb hx hab hbc hac hvs hnb hnc ha hb hc
  have hpos : 0 < vs.length := List.length_pos_of_ne_nil hvs
  have hunpack := (xcUnpacksBytesIntoBits s x a b na nb vs.length ⟨flush⟩ order ⟨vs, sa⟩ ⟨[], sb⟩ hx ha hb
    (by simp only [Fifo.filled, List.length_nil]; omega) hpos).1
  rw [List.take_length, List.nil_append] at hunpack
  generalize ht1 : ({ s with bufs := _, response := _ } : State) = t1 at hunpack
  have hbits : t1.bufs[b]? = some ⟨nb, .bits order ⟨Spec.bitsOfBytes order vs, sb.drop (8 * vs.length)⟩⟩ := by
    subst ht1
    exact List.getElem?_set_self (by simpa using (List.getElem?_eq_some_iff.mp hb).1)
  have hout : t1.bufs[c]? = some ⟨nc, .bytes ⟨[], sc⟩⟩ := by
    subst ht1
    exact (List.getElem?_set_ne hbc).trans ((List.getElem?_set_ne hac).trans hc)
  have hpack := (xcPacksBitsIntoBytes t1 x b c nb nc vs.length flush order _ _ (by subst ht1; exact hx) hbits hout
    (by simp only [Fifo.filled, bitsOfBytes_length, List.length_nil]; split <;> omega) hpos).1
  refine ⟨t1, _, hunpack, by subst ht1; rfl, hpack, rfl, ?_⟩
  have hback := bytesOfBits_bitsOfBytes order vs []
  rw [List.append_nil] at hback
  simp [(List.getElem?_eq_some_iff.mp hout).1, BitBuffer.bytes?, hback]

end Sys2Proof.Machine
end

section
/-!
Where the looping stages stop (41_bitwidth_converter.md R135, 42_biphase_mark.md R151, R155).
-/
namespace Sys2Proof.Machine

variable {σ α β : Type}

/-! ### Every step takes something -/

/-- A looping stage's step that is done consumes at least one unit. -/
def StepConsumes (try1 : σ → Fifo α → Fifo β → StepTry σ β) : Prop :=
  ∀ st i o st' n us, try1 st i o = .done st' n us → 0 < n

theorem copyStep_consumes (cap : Nat) : StepConsumes (copyStep cap : σ → Fifo α → Fifo α → StepTry σ α) := by
  intro st i o st' n us h
  unfold copyStep at h
  split at h
  · cases h
  · split at h <;> cases h
    exact Nat.one_pos

theorem packStep_consumes (order : BitOrder) (cap : Nat) : StepConsumes (packStep order cap) := by
  intro x i o x' n us h
  simp only [packStep] at h
  by_cases hk : (if x.flush then 1 else 8) ≤ min 8 i.filled
  · rw [if_pos hk] at h
    split at h <;> cases h
    refine lt_of_lt_of_le ?_ hk
    split <;> decide
  · rw [if_neg hk] at h
    cases h

theorem unpackStep_consumes (order : BitOrder) (cap : Nat) :
    StepConsumes (unpackStep order cap : σ → Fifo Byte → Fifo Bit → StepTry σ Bit) := by
  intro st i o st' n us h
  unfold unpackStep at h
  split at h
  · cases h
  · split at h <;> cases h
    exact Nat.one_pos

theorem bmcEncStep_consumes (cap : Nat) : StepConsumes (bmcEncStep cap) := by
  intro be i o be' n us h
  unfold bmcEncStep at h
  split at h
  · cases h
  · split at h <;> cases h
    exact Nat.one_pos

theorem bmcDecStep_consumes (cap : Nat) : StepConsumes (bmcDecStep cap) := by
  intro st i o st' n us h
  unfold bmcDecStep at h
  split at h
  · split at h <;> cases h
    exact Nat.two_pos
  · cases h

/-! ### The loop's end -/

theorem loopSteps_ends_blocked {cap : Nat} {try1 : σ → Fifo α → Fifo β → StepTry σ β} (hfit : StepFits cap try1)
    (hcons : StepConsumes try1) {fuel : Nat} {progress : Bool} {st : σ} {i : Fifo α} {o : Fifo β}
    (hf : i.filled < fuel) :
    ∃ rc, let r := loopSteps try1 fuel progress st i o; try1 r.st r.inp r.out = .blocked rc := by
  induction fuel generalizing progress st i o with
  | zero => omega
  | succ fuel ih =>
    cases hs : try1 st i o with
    | blocked rc => exact ⟨rc, by rwa [loopSteps_blocked hs]⟩
    | done st' n us =>
      have hpos := hcons _ _ _ _ _ _ hs
      have hle := (hfit _ _ _ _ _ _ hs).1
      rw [loopSteps_done hs]
      exact ih (by rw [Fifo.consume_filled]; omega)

theorem runLoop_ends_blocked {cap : Nat} {try1 : σ → Fifo α → Fifo β → StepTry σ β} (hfit : StepFits cap try1)
    (hcons : StepConsumes try1) (st : σ) (i : Fifo α) (o : Fifo β) :
    ∃ rc, let r := runLoop try1 st i o; try1 r.st r.inp r.out = .blocked rc :=
  loopSteps_ends_blocked hfit hcons (Nat.lt_succ_self _)

theorem loopOne_ends_blocked {try1 : σ → Fifo α → Fifo α → StepTry σ α} {fuel : Nat} {progress : Bool} {st : σ}
    {q : Fifo α} {r : OneFifoResult σ α} (h : loopOne try1 fuel progress st q = some r) :
    ∃ rc, try1 r.st r.buf r.buf = .blocked rc := by
  induction fuel generalizing progress st q with
  | zero => cases h
  | succ fuel ih =>
    cases hs : try1 st q q with
    | blocked rc =>
      rw [loopOne_blocked hs] at h
      cases h
      exact ⟨rc, hs⟩
    | done st' n us =>
      rw [loopOne_done hs] at h
      exact ih h

/-- On one buffer a loop that ends has ended at a blocked step: its bound gives no result. -/
theorem runOne_ends_blocked {try1 : σ → Fifo α → Fifo α → StepTry σ α} {cap : Nat} {st : σ} {q : Fifo α}
    (h : (runOne try1 cap st q).isSome = true) :
    ∃ r rc, runOne try1 cap st q = some r ∧ try1 r.st r.buf r.buf = .blocked rc := by
  obtain ⟨r, hr⟩ := Option.isSome_iff_exists.mp h
  obtain ⟨rc, hrc⟩ := loopOne_ends_blocked hr
  exact ⟨r, rc, hr, hrc⟩

/-- Settles O59: on two buffers each step takes a unit that is there, so the bound outlasts the input. -/
theorem loopsStopOnlyWhenBlocked : Obligations.LoopsStopOnlyWhenBlocked := fun cap order u be qb rb qy ry =>
  ⟨runLoop_ends_blocked (copyStep_fits cap) (copyStep_consumes cap) u qb rb,
    runLoop_ends_blocked (copyStep_fits cap) (copyStep_consumes cap) u qy ry,
    runLoop_ends_blocked (packStep_fits order cap) (packStep_consumes order cap) u qb ry,
    runLoop_ends_blocked (unpackStep_fits order cap) (unpackStep_consumes order cap) u qy rb,
    runLoop_ends_blocked (bmcEncStep_fits cap) (bmcEncStep_consumes cap) be qb rb,
    runLoop_ends_blocked (bmcDecStep_fits cap) (bmcDecStep_consumes cap) () qb rb,
    runOne_ends_blocked (runOne_bmcEnc_isSome cap be qb), runOne_ends_blocked (runOne_bmcDec_isSome cap qb),
    fun fuel => loopOne_copy_none cap fuel false u qb, fun fuel => loopOne_copy_none cap fuel false u qy⟩

end Sys2Proof.Machine
end

section
/-!
The stand-alone RESETs, and the CONFIGs of a register the unit owns, as next states.
-/
namespace Sys2Proof.Machine

/-- Settles O16: each RESET puts back the one unit its reference names, and answers. -/
theorem unitResets : Obligations.UnitResets := fun _ _ =>
  ⟨fun _ hx => withUnit_of_get hx, fun _ hx => withUnit_of_get hx, rfl, fun _ _ _ hx => withUnit_of_get hx,
    fun _ hx => withUnit_of_get hx⟩

theorem execXcConfig_flush {s : State} {k : Nat} {val : Byte} {x : Xc} (hx : s.xcs[k]? = some x) (hval : val.toNat ≤ 1) :
    execXcConfig k .flush val s = .next ((s.putXc k ⟨decide (val.toNat = 1)⟩).respond (.code .ok)) := by
  have hone : val = 1 ↔ val.toNat = 1 := BitVec.toNat_inj.symm
  refine (withUnit_of_get hx).trans ((if_pos hval).trans ?_)
  rw [decide_eq_decide.mpr hone]
  rfl

/-- Settles O18: each CONFIG of a register it may write puts back its unit with that register set. -/
theorem configsWriteOneRegister : Obligations.ConfigsWriteOneRegister := fun _ _ _ =>
  ⟨fun _ hx hval => execXcConfig_flush hx hval,
    fun _ _ _ hx => ⟨withUnit_of_get hx, withUnit_of_get hx⟩,
    fun _ he => ⟨withUnit_of_get he, withUnit_of_get he⟩⟩

end Sys2Proof.Machine
end

section
/-!
The biphase-mark codec (42_biphase_mark.md): lines and what is read back from them, its loops on one buffer from their
first step on, and its transactions as next states.
-/
namespace Sys2Proof.Machine

/-! ### Lines -/

theorem Spec.dataBits_length : ∀ hs : List Bit, (Spec.dataBits hs).length = hs.length / 2
  | [] => rfl
  | [_] => by simp [Spec.dataBits]
  | h0 :: h1 :: hs => by
    simp only [Spec.dataBits, List.length_cons, Spec.dataBits_length hs]
    omega

theorem Spec.dataBits_lineBits (p : Bit) (bs : List Bit) : Spec.dataBits (Spec.lineBits p bs) = bs := by
  induction bs generalizing p with
  | nil => rfl
  | cons b bs ih => simp [Spec.lineBits, Spec.dataBits, ih]

/-- A data bit is the exclusive or of its two line bits, and so of their inverses. -/
theorem Spec.dataBits_map_not : ∀ hs : List Bit, Spec.dataBits (hs.map not) = Spec.dataBits hs
  | [] => rfl
  | [_] => rfl
  | h0 :: h1 :: hs => by simp [Spec.dataBits, Spec.dataBits_map_not hs]

/-- The phase and the line behind it end with the phase afterwards. -/
theorem Spec.drop_phase_cons_lineBits (p : Bit) (bs : List Bit) :
    (p :: Spec.lineBits p bs).drop (2 * bs.length) = [Spec.linePhase p bs] := by
  induction bs generalizing p with
  | nil => rfl
  | cons b bs ih => exact ih _

/-- Across the boundary of two cells the line always changes (42_biphase_mark.md R156). -/
theorem Spec.dataBits_take_phase_cons_lineBits (p : Bit) (bs : List Bit) :
    Spec.dataBits ((p :: Spec.lineBits p bs).take (2 * bs.length)) = List.replicate bs.length true := by
  induction bs generalizing p with
  | nil => rfl
  | cons b bs ih => exact congrArg₂ List.cons (Bool.xor_not_self p) (ih _)

/-- The last bit of a line, whatever stands before it, is the phase it leaves (42_biphase_mark.md R152). -/
theorem Spec.getLast?_append_lineBits (l : List Bit) (p : Bit) {bs : List Bit} (hbs : bs ≠ []) :
    (l ++ Spec.lineBits p bs).getLast? = some (Spec.linePhase p bs) := by
  induction bs generalizing l p with
  | nil => exact absurd rfl hbs
  | cons b bs ih =>
    rw [Spec.lineBits, Spec.linePhase, List.append_cons, List.append_cons]
    cases bs with
    | nil => simp [Spec.lineBits, Spec.linePhase]
    | cons b' bs => exact ih _ _ (List.cons_ne_nil _ _)

/-! ### Loops on one buffer, from their first step on -/

section Loops

variable {σ α : Type} {try1 : σ → Fifo α → Fifo α → StepTry σ α}

theorem loopOne_code_of_progress {fuel : Nat} {st : σ} {q : Fifo α} {r : OneFifoResult σ α}
    (h : loopOne try1 fuel true st q = some r) : r.code = .ok := by
  induction fuel generalizing st q with
  | zero => cases h
  | succ fuel ih =>
    cases hs : try1 st q q with
    | done st' n us =>
      rw [loopOne_done hs] at h
      exact ih h
    | blocked rc =>
      rw [loopOne_blocked hs] at h
      cases h
      rfl

/-- A step done before changes nothing of what a loop leaves but its code. -/
theorem loopOne_of_progress {fuel : Nat} {st : σ} {q : Fifo α} {r : OneFifoResult σ α}
    (h : loopOne try1 fuel false st q = some r) : loopOne try1 fuel true st q = some { r with code := .ok } := by
  cases fuel with
  | zero => cases h
  | succ fuel =>
    cases hs : try1 st q q with
    | done st' n us =>
      rw [loopOne_done hs] at h ⊢
      rw [h, ← loopOne_code_of_progress h]
    | blocked rc =>
      rw [loopOne_blocked hs] at h ⊢
      cases h
      rfl

/-- Two bounds under which a loop ends give the same. -/
theorem loopOne_unique {m n : Nat} {progress : Bool} {st : σ} {q : Fifo α} {r r' : OneFifoResult σ α}
    (h : loopOne try1 m progress st q = some r) (h' : loopOne try1 n progress st q = some r') : r = r' := by
  rcases Nat.le_total m n with hmn | hnm
  · exact Option.some.inj ((loopOne_mono h hmn).symm.trans h')
  · exact Option.some.inj (h.symm.trans (loopOne_mono h' hnm))

/-- A transaction whose first step is done leaves what the transaction from there on leaves, its code being OK. -/
theorem runOne_of_done {cap n : Nat} {st st' : σ} {q : Fifo α} {us : List α} (hs : try1 st q q = .done st' n us)
    (hends : (runOne try1 cap st q).isSome = true)
    (hrest : (runOne try1 cap st' ((q.emit us).consume n)).isSome = true) :
    ∃ r, runOne try1 cap st' ((q.emit us).consume n) = some r ∧
      runOne try1 cap st q = some { r with code := .ok } := by
  obtain ⟨r₀, hr₀⟩ := Option.isSome_iff_exists.mp hends
  obtain ⟨r, hr⟩ := Option.isSome_iff_exists.mp hrest
  refine ⟨r, hr, hr₀.trans (congrArg some ?_)⟩
  exact loopOne_unique ((loopOne_done hs).symm.trans hr₀) (loopOne_of_progress hr)

end Loops

/-! ### Steps -/

theorem bmcEncStep_of_cons {cap : Nat} {be : BiphaseEnc} {i o : Fifo Bit} {b : Bit} {t : List Bit}
    (hi : i.content = b :: t) (ho : o.filled + 2 ≤ cap) :
    bmcEncStep cap be i o = .done ⟨xor (!be.phase) b⟩ 1 [!be.phase, xor (!be.phase) b] := by
  have hs : o.hasSpace cap 0 2 = true := (o.hasSpace_iff cap 0 2).mpr ho
  simp [bmcEncStep, Fifo.read?_zero, hi, hs, phaseToggle, phaseData]

theorem bmcDecStep_of_cons_cons {cap : Nat} {i o : Fifo Bit} {h0 h1 : Bit} {t : List Bit}
    (hi : i.content = h0 :: h1 :: t) (ho : o.filled + 1 ≤ cap) : bmcDecStep cap () i o = .done () 2 [xor h0 h1] := by
  have hs : o.hasSpace cap 0 1 = true := (o.hasSpace_iff cap 0 1).mpr ho
  simp [bmcDecStep, Fifo.read?, hi, hs]

/-- A step of the encoder that is done takes one bit and puts out two, the second being the phase afterwards. -/
theorem bmcEncStep_done {cap n : Nat} {be be' : BiphaseEnc} {i o : Fifo Bit} {us : List Bit}
    (h : bmcEncStep cap be i o = .done be' n us) : i.content ≠ [] ∧ n = 1 ∧ us = [!be.phase, be'.phase] := by
  unfold bmcEncStep at h
  split at h
  · cases h
  next b hb =>
    split at h <;> cases h
    exact ⟨fun hnil => by simp [Fifo.read?_zero, hnil] at hb, rfl, rfl⟩

theorem bmcEncStep_blocked {cap : Nat} {be : BiphaseEnc} {i o : Fifo Bit} {rc : ResultCode}
    (h : bmcEncStep cap be i o = .blocked rc) : rc ≠ .ok := by
  unfold bmcEncStep at h
  split at h
  · cases h
    exact nofun
  · split at h <;> cases h
    exact nofun

/-! ### The phase -/

theorem pos_of_loopCode {k : Nat} {rc : ResultCode} (h : loopCode false k rc = .ok) (hrc : rc ≠ .ok) : 0 < k := by
  unfold loopCode at h
  split at h
  next hk => exact hk.resolve_left nofun
  · exact absurd h hrc

theorem bmcEncProcess_phase (u : BiphaseEnc) (i o : BitBuffer) (hok : (bmcEncProcess u i o).code = .ok) :
    (bmcEncProcess u i o).out.bitsD.getLast? = some (bmcEncProcess u i o).st.phase := by
  obtain ⟨ni, q | ⟨oi, q⟩ | _⟩ := i
  case bits =>
    obtain ⟨no, r | ⟨oo, r⟩ | _⟩ := o
    case bits =>
      rw [bmcEncProcess_bits] at hok ⊢
      have hk := pos_of_loopCode hok (by split <;> exact nofun)
      refine Spec.getLast?_append_lineBits _ _ (List.ne_nil_of_length_pos ?_)
      rwa [List.length_take_of_le (show _ ≤ q.content.length from min_le_left q.filled _)]
    all_goals cases hok
  all_goals cases hok

/-- On one buffer the loop keeps the phase at the last bit, from its first step on. -/
theorem loopOne_bmcEnc_phase {cap fuel : Nat} {progress : Bool} {be : BiphaseEnc} {q : Fifo Bit}
    {r : OneFifoResult BiphaseEnc Bit} (h : loopOne (bmcEncStep cap) fuel progress be q = some r)
    (hq : progress = true → q.content.getLast? = some be.phase) (hok : r.code = .ok) :
    r.buf.content.getLast? = some r.st.phase := by
  induction fuel generalizing progress be q with
  | zero => cases h
  | succ fuel ih =>
    cases hs : bmcEncStep cap be q q with
    | done be' n us =>
      rw [loopOne_done hs] at h
      obtain ⟨hne, rfl, rfl⟩ := bmcEncStep_done hs
      obtain ⟨b, t, hbt⟩ := List.exists_cons_of_ne_nil hne
      exact ih h fun _ => by simp [hbt]
    | blocked rc =>
      rw [loopOne_blocked hs] at h
      cases h
      cases progress with
      | true => exact hq rfl
      | false => exact absurd hok (bmcEncStep_blocked hs)

theorem bmcEncOne_phase {u : BiphaseEnc} {b : BitBuffer} {r : OneResult BiphaseEnc} (h : bmcEncOne u b = some r)
    (hok : r.code = .ok) : r.buf.bitsD.getLast? = some r.st.phase := by
  obtain ⟨nb, q | ⟨order, q⟩ | _⟩ := b
  case bits =>
    obtain ⟨r', hr', rfl⟩ := Option.map_eq_some_iff.mp h
    exact loopOne_bmcEnc_phase hr' nofun hok
  all_goals cases h; cases hok

/-! ### Transactions -/

theorem getElem?_set_set_of_some {α : Type} {l : List α} {j k : Nat} {u : α} (h : l[k]? = some u) (hne : j ≠ k)
    (v w : α) : ((l.set j v).set k w)[k]? = some w :=
  getElem?_set_of_some ((List.getElem?_set_ne hne).trans h) w

section Transactions

variable {s : State} {be inp out : Nat} {u : BiphaseEnc} {i o : BitBuffer}

theorem exec_bmcEncProcess_of_ne {r : StageResult BiphaseEnc} (hbe : s.bes[be]? = some u) (hi : s.bufs[inp]? = some i)
    (ho : s.bufs[out]? = some o) (hne : inp ≠ out) (hr : bmcEncProcess u i o = r) :
    exec (.bmcEncProcess be inp out) s =
      .next { s with bes := s.bes.set be r.st, bufs := (s.bufs.set inp r.inp).set out r.out,
                     response := some (.code r.code) } := by
  subst hr
  exact (withUnit_of_get hbe).trans (State.process_of_ne hi ho hne)

theorem exec_bmcEncProcess_one {r : OneResult BiphaseEnc} (hbe : s.bes[be]? = some u) (hi : s.bufs[inp]? = some i)
    (hr : bmcEncOne u i = some r) :
    exec (.bmcEncProcess be inp inp) s =
      .next { s with bes := s.bes.set be r.st, bufs := s.bufs.set inp r.buf, response := some (.code r.code) } :=
  (withUnit_of_get hbe).trans (State.process_of_eq hi hr)

theorem exec_bmcDecProcess_of_ne {r : StageResult Unit} (hi : s.bufs[inp]? = some i) (ho : s.bufs[out]? = some o)
    (hne : inp ≠ out) (hr : bmcDecProcess i o = r) :
    exec (.bmcDecProcess inp out) s =
      .next { s with bufs := (s.bufs.set inp r.inp).set out r.out, response := some (.code r.code) } := by
  subst hr
  exact State.process_of_ne (save := fun s' _ => s') hi ho hne

theorem exec_bmcDecProcess_one {r : OneResult Unit} (hi : s.bufs[inp]? = some i) (hr : bmcDecOne i = some r) :
    exec (.bmcDecProcess inp inp) s = .next { s with bufs := s.bufs.set inp r.buf, response := some (.code r.code) } :=
  State.process_of_eq (save := fun s' _ => s') hi hr

end Transactions

/-- Settles O25: the closed form of the encoder on two buffers, and on one its loop from the first step on. -/
theorem bmcEncodesDataBits : Obligations.BmcEncodesDataBits := by
  intro s be inp out ni no k p oi oo q r hbe hi
  refine ⟨fun hne ho hmin hk => ?_, fun b t hq hroom => ?_⟩
  · rw [exec_bmcEncProcess_of_ne hbe hi ho hne (bmcEncProcess_bits ..), ← hmin, loopCode_of_pos hk, Fifo.consume_pos _ hk,
      Fifo.emit, Spec.lineBits_length, List.length_take_of_le (hmin ▸ min_le_left ..)]
  · obtain ⟨_, hrest, hall⟩ := runOne_of_done (bmcEncStep_of_cons hq hroom) (runOne_bmcEnc_isSome (8 * ni) ⟨p⟩ q)
      (runOne_bmcEnc_isSome ..)
    have hafter : (q.emit [!p, xor (!p) b]).consume 1 = ⟨t ++ [!p, xor (!p) b], []⟩ := by
      simp [Fifo.consume_pos _ Nat.one_pos, hq]
    rw [hafter] at hrest
    refine ⟨_, exec_bmcEncProcess_one (getElem?_set_of_some hbe _) (getElem?_set_of_some hi _)
      (congrArg (Option.map _) hrest), ?_⟩
    rw [exec_bmcEncProcess_one hbe hi (congrArg (Option.map _) hall)]
    simp only [List.set_set]

/-- Settles O26: the closed form of the decoder on two buffers, and on one its loop from the first step on. -/
theorem bmcDecodesLineBits : Obligations.BmcDecodesLineBits := by
  intro s inp out ni no k oi oo q r hi
  refine ⟨fun hne ho hmin hk => ?_, fun h0 h1 t hq hroom => ?_⟩
  · have htake : 2 * k ≤ q.content.length := by simp only [Fifo.filled] at hmin; omega
    rw [exec_bmcDecProcess_of_ne hi ho hne (bmcDecProcess_bits ..), ← hmin, loopCode_of_pos hk,
      Fifo.consume_pos _ (by omega), Fifo.emit, Spec.dataBits_length, List.length_take_of_le htake,
      Nat.mul_div_cancel_left k Nat.two_pos]
  · obtain ⟨_, hrest, hall⟩ := runOne_of_done (bmcDecStep_of_cons_cons hq hroom) (runOne_bmcDec_isSome (8 * ni) q)
      (runOne_bmcDec_isSome ..)
    have hafter : (q.emit [xor h0 h1]).consume 2 = ⟨t ++ [xor h0 h1], []⟩ := by
      simp [Fifo.consume_pos _ Nat.two_pos, hq]
    rw [hafter] at hrest
    refine ⟨_, exec_bmcDecProcess_one (getElem?_set_of_some hi _) (congrArg (Option.map _) hrest), ?_⟩
    rw [exec_bmcDecProcess_one hi (congrArg (Option.map _) hall)]
    simp only [List.set_set]

/-- Settles O27: on two buffers the phase is that of the line put out, and on one the loop keeps it at the last bit. -/
theorem phaseIsLastLineBit : Obligations.PhaseIsLastLineBit := by
  intro s t be inp out h hok
  obtain ⟨u, hbe, h⟩ := withUnit_next h
  obtain ⟨i, o, hi, ho, ⟨hne, rfl⟩ | ⟨rfl, r, hr, rfl⟩⟩ := State.process_next h
  · have hout := getElem?_set_set_of_some ho hne (bmcEncProcess u i o).inp (bmcEncProcess u i o).out
    refine ⟨_, getElem?_set_of_some hbe _, ?_⟩
    simp only [State.respond_bufs, State.putBuf_bufs, State.putBe_bufs, hout]
    exact bmcEncProcess_phase u i o (by simpa using hok)
  · refine ⟨_, getElem?_set_of_some hbe _, ?_⟩
    simp only [State.respond_bufs, State.putBuf_bufs, State.putBe_bufs, getElem?_set_of_some hi r.buf]
    exact bmcEncOne_phase hr (by simpa using hok)

/-- BMC_DEC.PROCESS of a whole line into an empty buffer with room gives the data bits of the line. -/
theorem exec_bmcDecProcess_line {s : State} {inp out ni no : Nat} {oi oo : BitOrder} {q : Fifo Bit}
    {g : List (Option Bit)} {n : Nat} (hne : inp ≠ out) (hi : s.bufs[inp]? = some ⟨ni, .bits oi q⟩)
    (ho : s.bufs[out]? = some ⟨no, .bits oo ⟨[], g⟩⟩) (hq : q.filled = 2 * n) (hn : 0 < n) (hroom : n ≤ 8 * no) :
    ∃ t, exec (.bmcDecProcess inp out) s = .next t ∧
      t.bufs[out]?.bind BitBuffer.bits? = some (Spec.dataBits q.content) := by
  refine ⟨_, (bmcDecodesLineBits s inp out ni no n oi oo q ⟨[], g⟩ hi).1 hne ho ?_ hn, ?_⟩
  · rw [hq, Fifo.filled, List.length_nil]
    omega
  · rw [getElem?_set_set_of_some ho hne, List.take_of_length_le hq.le]
    rfl

/-- Settles O28: the line of the bits, and its inverse, decode to the bits. -/
theorem biphaseRoundTrip : Obligations.BiphaseRoundTrip := by
  rintro s be a b c na nb nc ⟨p⟩ oa ob oc bs sa sb sc hbe hab hbc hac hbs hnb hnc ha hb hc
  have hpos : 0 < bs.length := List.length_pos_of_ne_nil hbs
  have henc := (bmcEncodesDataBits s be a b na nb bs.length p oa ob ⟨bs, sa⟩ ⟨[], sb⟩ hbe ha).1 hab hb
    (by simp only [Fifo.filled, List.length_nil]; omega) hpos
  rw [List.take_length, List.nil_append] at henc
  generalize ht1 : ({ s with bes := _, bufs := _, response := _ } : State) = t1 at henc
  have hline : t1.bufs[b]? = some ⟨nb, .bits ob ⟨Spec.lineBits p bs, sb.drop (2 * bs.length)⟩⟩ := by
    subst ht1
    exact getElem?_set_set_of_some hb hab _ _
  have hout : t1.bufs[c]? = some ⟨nc, .bits oc ⟨[], sc⟩⟩ := by
    subst ht1
    exact (List.getElem?_set_ne hbc).trans ((List.getElem?_set_ne hac).trans hc)
  obtain ⟨t2, hdec, hbits⟩ := exec_bmcDecProcess_line hbc hline hout (Spec.lineBits_length p bs) hpos hnc
  obtain ⟨t3, hdec', hbits'⟩ := exec_bmcDecProcess_line
    (s := t1.putBuf b ⟨nb, .bits ob ⟨(Spec.lineBits p bs).map not, []⟩⟩) hbc (getElem?_set_of_some hline _)
    ((List.getElem?_set_ne hbc).trans hout) (by rw [Fifo.filled, List.length_map, Spec.lineBits_length]) hpos hnc
  rw [Spec.dataBits_lineBits] at hbits
  rw [Spec.dataBits_map_not, Spec.dataBits_lineBits] at hbits'
  exact ⟨t1, t2, _, henc, by subst ht1; rfl, hline, Spec.lineBits_length p bs, hdec, hbits, t3, hdec', hbits'⟩

/-- Settles O29: each pair after the first spans two cells. -/
theorem misalignedLineDecodesToOnes : Obligations.MisalignedLineDecodesToOnes := by
  intro s inp out ni no oi oo p stray bs g r hne hbs hi ho hroom
  obtain ⟨b, t, rfl⟩ := List.exists_cons_of_ne_nil hbs
  have hdec := (bmcDecodesLineBits s inp out ni no (b :: t).length oi oo _ r hi).1 hne ho
    (by simp only [Fifo.filled, List.length_cons, Spec.lineBits_length] at hroom ⊢; omega) (Nat.succ_pos _)
  have hleft : (stray :: Spec.lineBits p (b :: t)).drop (2 * (b :: t).length) = [Spec.linePhase p (b :: t)] :=
    Spec.drop_phase_cons_lineBits (xor (!p) b) t
  have hones : Spec.dataBits ((stray :: Spec.lineBits p (b :: t)).take (2 * (b :: t).length)) =
      xor stray (!p) :: List.replicate t.length true :=
    congrArg (xor stray (!p) :: ·) (Spec.dataBits_take_phase_cons_lineBits (xor (!p) b) t)
  rw [hleft, hones] at hdec
  exact ⟨_, hdec⟩

end Sys2Proof.Machine
end

section
/-!
The bit stuffer (43_frame_encoder.md R173, R174): its equations, its lengths and its runs of ones. Between two bits its
count is below 5, so a 1 is either the fifth in a row, at count 4, or one before it.
-/
namespace Sys2Proof.Machine

/-! ### Equations -/

@[simp] theorem stuffFrom_nil (c : Nat) : stuffFrom c [] = [] := rfl

@[simp] theorem stuffFrom_false (c : Nat) (bs : List Bit) : stuffFrom c (false :: bs) = false :: stuffFrom 0 bs := rfl

@[simp] theorem stuffFrom_fifth_true (bs : List Bit) : stuffFrom 4 (true :: bs) = true :: false :: stuffFrom 0 bs := rfl

theorem stuffFrom_true_of_lt {c : Nat} (hc : c + 1 < 5) (bs : List Bit) :
    stuffFrom c (true :: bs) = true :: stuffFrom (c + 1) bs :=
  if_neg (show ¬ c + 1 = Config.stuffThreshold from hc.ne)

/-- Ones that do not make up five are copied and counted. -/
theorem stuffFrom_replicate_true_append {c r : Nat} (h : c + r < 5) (bs : List Bit) :
    stuffFrom c (List.replicate r true ++ bs) = List.replicate r true ++ stuffFrom (c + r) bs := by
  induction r generalizing c with
  | zero => rfl
  | succ r ih =>
    rw [List.replicate_succ, List.cons_append, stuffFrom_true_of_lt (by omega), ih (by omega), List.cons_append,
      Nat.add_right_comm, Nat.add_assoc]

theorem stuff_replicate_true_append {r : Nat} (h : r < 5) (bs : List Bit) :
    stuff (List.replicate r true ++ bs) = List.replicate r true ++ stuffFrom r bs := by
  simpa [stuff] using stuffFrom_replicate_true_append (c := 0) (by omega) bs

/-! ### Lengths -/

/-- Bits are only added, and at most one for each five ones, those counted before included. -/
theorem stuffFrom_length_bounds {c : Nat} (hc : c < 5) (bs : List Bit) :
    bs.length ≤ (stuffFrom c bs).length ∧ (stuffFrom c bs).length ≤ bs.length + (bs.length + c) / 5 := by
  induction bs generalizing c with
  | nil => simp
  | cons b bs ih =>
    have hzero := ih (c := 0) (by omega)
    cases b with
    | false =>
      simp only [stuffFrom_false, List.length_cons]
      omega
    | true =>
      obtain rfl | hlt : c = 4 ∨ c + 1 < 5 := by omega
      · simp only [stuffFrom_fifth_true, List.length_cons]
        omega
      · have hnext := ih hlt
        simp only [stuffFrom_true_of_lt hlt, List.length_cons]
        omega

theorem stuffFrom_replicate_true_length {c : Nat} (hc : c < 5) (n : Nat) :
    (stuffFrom c (List.replicate n true)).length = n + (n + c) / 5 := by
  induction n generalizing c with
  | zero => simp [Nat.div_eq_of_lt hc]
  | succ n ih =>
    rw [List.replicate_succ]
    obtain rfl | hlt : c = 4 ∨ c + 1 < 5 := by omega
    · simp only [stuffFrom_fifth_true, List.length_cons, ih (Nat.succ_pos 4)]
      omega
    · simp only [stuffFrom_true_of_lt hlt, List.length_cons, ih hlt]
      omega

/-- Settles O33: the equations of the stuffer, and its lengths with the count at 0. -/
theorem stuffedLengthBounds : Obligations.StuffedLengthBounds :=
  ⟨fun _ => rfl,
    fun _ t hr => stuff_replicate_true_append hr (false :: t),
    fun _ hr => by simpa using stuff_replicate_true_append hr [],
    fun xs => stuffFrom_length_bounds (Nat.succ_pos 4) xs,
    fun n => stuffFrom_replicate_true_length (Nat.succ_pos 4) n⟩

/-! ### Runs of ones -/

/-- The rest of a stuffing is what the stuffer puts out from some count on, or starts with a stuffed 0. -/
theorem suffix_stuffFrom {c : Nat} (hc : c < 5) {bs ys : List Bit} (h : ys <:+ stuffFrom c bs) :
    (∃ c' < 5, ∃ bs', ys = stuffFrom c' bs') ∨ ∃ bs', ys = false :: stuffFrom 0 bs' := by
  induction bs generalizing c with
  | nil => exact .inl ⟨c, hc, [], List.suffix_nil.mp h⟩
  | cons b bs ih =>
    by_cases hall : ys = stuffFrom c (b :: bs)
    · exact .inl ⟨c, hc, _, hall⟩
    cases b with
    | false => exact ih (Nat.succ_pos 4) ((List.suffix_cons_iff.mp h).resolve_left hall)
    | true =>
      obtain rfl | hlt : c = 4 ∨ c + 1 < 5 := by omega
      · obtain h | h := List.suffix_cons_iff.mp ((List.suffix_cons_iff.mp h).resolve_left hall)
        · exact .inr ⟨bs, h⟩
        · exact ih (Nat.succ_pos 4) h
      · rw [stuffFrom_true_of_lt hlt] at h hall
        exact ih hlt ((List.suffix_cons_iff.mp h).resolve_left hall)

/-- Ones that make up five with those counted before are followed by a 0. -/
theorem stuffFrom_eq_replicate_true_append {c r : Nat} (hc : c < 5) (hr : 5 ≤ c + r) {bs post : List Bit}
    (h : stuffFrom c bs = List.replicate r true ++ post) : ∃ post', post = false :: post' := by
  induction r generalizing c bs with
  | zero => omega
  | succ r ih =>
    rw [List.replicate_succ, List.cons_append] at h
    match bs with
    | [] => cases h
    | false :: bs => cases h
    | true :: bs =>
      obtain rfl | hlt : c = 4 ∨ c + 1 < 5 := by omega
      · have htail : false :: stuffFrom 0 bs = List.replicate r true ++ post := List.tail_eq_of_cons_eq h
        cases r with
        | zero => exact ⟨_, htail.symm⟩
        | succ r => cases htail
      · rw [stuffFrom_true_of_lt hlt] at h
        exact ih hlt (by omega) (List.tail_eq_of_cons_eq h)

/-- Five ones in a row anywhere in a stuffing are followed by a 0. -/
theorem stuff_five_ones_then_zero {bs pre post : List Bit} (h : stuff bs = pre ++ List.replicate 5 true ++ post) :
    ∃ post', post = false :: post' := by
  have hrest : List.replicate 5 true ++ post <:+ stuffFrom 0 bs := ⟨pre, by rw [← List.append_assoc, ← h, stuff]⟩
  obtain ⟨c, hc, bs', hrun⟩ | ⟨bs', hrun⟩ := suffix_stuffFrom (Nat.succ_pos 4) hrest
  · exact stuffFrom_eq_replicate_true_append hc (Nat.le_add_left 5 c) hrun.symm
  · cases hrun

/-- Settles O32: a sixth one in a row would be the 0 behind the first five. -/
theorem stuffedBodyHasNoSixOnes : Obligations.StuffedBodyHasNoSixOnes := by
  refine fun xs => ⟨?_, fun pre post h => stuff_five_ones_then_zero h⟩
  rintro ⟨pre, post, h⟩
  obtain ⟨_, hzero⟩ := stuff_five_ones_then_zero (bs := xs) (pre := pre) (post := true :: post) (by simp [← h])
  cases hzero

end Sys2Proof.Machine
end

section
/-!
The frame encoder's transactions as next states (43_frame_encoder.md R172, R176).
-/
namespace Sys2Proof.Machine

theorem FrameEnc.frame_length (x : FrameEnc) (bs : List Bit) :
    (x.frame bs).length = (if x.preambleEmitted then 0 else x.z.toNat + x.o.toNat + 1) + (stuff bs).length + 16 := by
  have hpre : (if x.preambleEmitted then [] else x.preamble).length =
      if x.preambleEmitted then 0 else x.z.toNat + x.o.toNat + 1 := by
    split <;> simp [FrameEnc.preamble, Nat.add_assoc]
  simp only [FrameEnc.frame, List.length_append, hpre]
  rfl

/-! ### Taking all the units present -/

theorem Fifo.consume_filled_of_ne_nil {α : Type} {q : Fifo α} (h : q.content ≠ []) : q.consume q.filled = ⟨[], []⟩ := by
  rw [Fifo.consume_pos _ (n := q.filled) (List.length_pos_of_ne_nil h), Fifo.filled, List.drop_length]

/-- All the units consumed behind units put out leave just these. -/
theorem Fifo.emit_consume_filled {α : Type} {q : Fifo α} (h : q.content ≠ []) (us : List α) :
    (q.emit us).consume q.filled = ⟨us, []⟩ := by
  rw [Fifo.consume_pos _ (n := q.filled) (List.length_pos_of_ne_nil h), Fifo.emit_content, Fifo.filled, List.drop_left]

/-! ### Transactions -/

section Transactions

variable {s : State} {fe inp out : Nat} {x : FrameEnc} {i o : BitBuffer}

theorem exec_frameEncProcess_of_ne {r : StageResult FrameEnc} (hx : s.fes[fe]? = some x) (hi : s.bufs[inp]? = some i)
    (ho : s.bufs[out]? = some o) (hne : inp ≠ out) (hr : frameEncProcess x i o = r) :
    exec (.frameEncProcess fe inp out) s =
      .next { s with fes := s.fes.set fe r.st, bufs := (s.bufs.set inp r.inp).set out r.out,
                     response := some (.code r.code) } := by
  subst hr
  exact (withUnit_of_get hx).trans (State.process_of_ne hi ho hne)

theorem exec_frameEncProcess_one {r : OneResult FrameEnc} (hx : s.fes[fe]? = some x) (hi : s.bufs[inp]? = some i)
    (hr : frameEncOne x i = some r) :
    exec (.frameEncProcess fe inp inp) s =
      .next { s with fes := s.fes.set fe r.st, bufs := s.bufs.set inp r.buf, response := some (.code r.code) } :=
  (withUnit_of_get hx).trans (State.process_of_eq hi hr)

/-- A stage that gives everything back as it was changes nothing but the response, on two buffers or on one. -/
theorem exec_frameEncProcess_unchanged {rc : ResultCode} (hx : s.fes[fe]? = some x) (hi : s.bufs[inp]? = some i)
    (ho : s.bufs[out]? = some o) (htwo : frameEncProcess x i o = { code := rc, st := x, inp := i, out := o })
    (hone : i = o → frameEncOne x i = some { code := rc, st := x, buf := i }) :
    exec (.frameEncProcess fe inp out) s = .next { s with response := some (.code rc) } := by
  by_cases hne : inp = out
  · subst hne
    have hio : i = o := Option.some.inj (hi.symm.trans ho)
    rw [exec_frameEncProcess_one hx hi (hone hio)]
    simp only [set_of_get hx, set_of_get hi]
  · rw [exec_frameEncProcess_of_ne hx hi ho hne htwo]
    simp only [set_of_get hx, set_of_get hi, set_of_get ho]

end Transactions

/-- Settles O30: with bits and room the stage takes all the bits and puts out the frame of them. -/
theorem frameEncoderEmitsOneFrame : Obligations.FrameEncoderEmitsOneFrame := by
  intro s fe inp out ni no pre z o oi oo q p f hx hi hq hf
  have hbits : q.filled ≠ 0 := mt List.length_eq_zero_iff.mp hq
  obtain rfl : f = FrameEnc.frame ⟨pre, z, o⟩ q.content := hf
  refine ⟨fun hne ho hroom => ?_, fun hroom => ?_⟩
  · rw [exec_frameEncProcess_of_ne hx hi ho hne ((frameEncProcess_bits ..).trans ((if_neg hbits).trans (if_pos hroom))),
      Fifo.consume_filled_of_ne_nil hq]
    rfl
  · rw [exec_frameEncProcess_one hx hi ((frameEncOne_bits ..).trans ((if_neg hbits).trans (if_pos hroom))),
      Fifo.emit_consume_filled hq]
    rfl

/-- Settles O31: without bits, or without room for the frame's length, the stage gives everything back as it was. -/
theorem frameEncoderIsAllOrNothing : Obligations.FrameEncoderIsAllOrNothing := by
  intro s fe inp out ni no x oi oo q p hx hi ho
  refine ⟨fun hq => ?_, fun hq hroom => ?_⟩
  · have hbits : q.filled = 0 := List.length_eq_zero_iff.mpr hq
    exact exec_frameEncProcess_unchanged hx hi ho ((frameEncProcess_bits ..).trans (if_pos hbits))
      fun _ => (frameEncOne_bits ..).trans (if_pos hbits)
  · have hbits : q.filled ≠ 0 := mt List.length_eq_zero_iff.mp hq
    have hfull : ¬ p.filled + (x.frame q.content).length ≤ 8 * no := by
      rw [x.frame_length]
      omega
    refine exec_frameEncProcess_unchanged hx hi ho
      ((frameEncProcess_bits ..).trans ((if_neg hbits).trans (if_neg hfull))) ?_
    rintro ⟨⟩
    exact (frameEncOne_bits ..).trans ((if_neg hbits).trans (if_neg hfull))

end Sys2Proof.Machine
end

section
/-!
The bit destuffer (44_frame_decoder.md R196): its equations, and that it takes back out what the stuffer puts in.
-/
namespace Sys2Proof.Machine

@[simp] theorem destuffFrom_nil (c : Nat) : destuffFrom c [] = [] := rfl

@[simp] theorem destuffFrom_true (c : Nat) (bs : List Bit) : destuffFrom c (true :: bs) = true :: destuffFrom (c + 1) bs :=
  rfl

/-- A 0 behind five or more ones is dropped. -/
theorem destuffFrom_false_of_le {c : Nat} (hc : 5 ≤ c) (bs : List Bit) :
    destuffFrom c (false :: bs) = destuffFrom 0 bs :=
  if_pos (show Config.stuffThreshold ≤ c from hc)

/-- A 0 behind fewer ones is copied. -/
theorem destuffFrom_false_of_lt {c : Nat} (hc : c < 5) (bs : List Bit) :
    destuffFrom c (false :: bs) = false :: destuffFrom 0 bs :=
  if_neg (show ¬ Config.stuffThreshold ≤ c from hc.not_ge)

/-- Ones are copied and counted. -/
theorem destuffFrom_replicate_true_append (c r : Nat) (bs : List Bit) :
    destuffFrom c (List.replicate r true ++ bs) = List.replicate r true ++ destuffFrom (c + r) bs := by
  induction r generalizing c with
  | zero => rfl
  | succ r ih =>
    rw [List.replicate_succ, List.cons_append, destuffFrom_true, ih, List.cons_append, Nat.add_right_comm, Nat.add_assoc]

theorem destuff_replicate_true_append (r : Nat) (bs : List Bit) :
    destuff (List.replicate r true ++ bs) = List.replicate r true ++ destuffFrom r bs := by
  simpa [destuff] using destuffFrom_replicate_true_append 0 r bs

/-- The destuffer follows the stuffer's count, up to the fifth one, where the stuffed 0 sets both to 0. -/
theorem destuffFrom_stuffFrom {c : Nat} (hc : c < 5) (bs : List Bit) : destuffFrom c (stuffFrom c bs) = bs := by
  induction bs generalizing c with
  | nil => rfl
  | cons b bs ih =>
    have hzero := ih (c := 0) (by omega)
    cases b with
    | false => rw [stuffFrom_false, destuffFrom_false_of_lt hc, hzero]
    | true =>
      obtain rfl | hlt : c = 4 ∨ c + 1 < 5 := by omega
      · rw [stuffFrom_fifth_true, destuffFrom_true, destuffFrom_false_of_le (le_refl 5), hzero]
      · rw [stuffFrom_true_of_lt hlt, destuffFrom_true, ih hlt]

/-- Settles O34: the count at 0 for the inverse, and the run of ones copied before what becomes of the 0. -/
theorem destuffInvertsStuff : Obligations.DestuffInvertsStuff := by
  refine ⟨fun xs => destuffFrom_stuffFrom (Nat.succ_pos 4) xs, fun r t hr => ?_, fun r t hr => ?_, fun r => ?_⟩
  · rw [destuff_replicate_true_append, destuffFrom_false_of_le hr, destuff]
  · rw [destuff_replicate_true_append, destuffFrom_false_of_lt hr, destuff]
  · simpa using destuff_replicate_true_append r []

end Sys2Proof.Machine
end

section
/-!
The search for END-OF-FRAME (44_frame_decoder.md R195): the least index at which the marker stands, and where that is
behind a stuffed body.
-/
namespace Sys2Proof.Machine

theorem findMarker_of_prefix {bs : List Bit} (h : Config.eofMarker <+: bs) : findMarker bs = some 0 := by
  cases bs with
  | nil => exact absurd (List.prefix_nil.mp h) (List.cons_ne_nil _ _)
  | cons b bs => exact if_pos (List.isPrefixOf_iff_prefix.mpr h)

theorem findMarker_cons_of_not_prefix {b : Bit} {bs : List Bit} (h : ¬ Config.eofMarker <+: b :: bs) :
    findMarker (b :: bs) = (findMarker bs).map (· + 1) :=
  if_neg (mt List.isPrefixOf_iff_prefix.mp h)

/-- The search finds the index of a marker with none before it. -/
theorem findMarker_of_first {bs : List Bit} {p : Nat} (hat : Config.eofMarker <+: bs.drop p)
    (hfirst : ∀ j < p, ¬ Config.eofMarker <+: bs.drop j) : findMarker bs = some p := by
  induction p generalizing bs with
  | zero => exact findMarker_of_prefix hat
  | succ p ih =>
    cases bs with
    | nil => exact absurd (List.prefix_nil.mp hat) (List.cons_ne_nil _ _)
    | cons b bs =>
      have hrest : findMarker bs = some p := ih hat fun j hj => hfirst (j + 1) (Nat.succ_lt_succ hj)
      rw [findMarker_cons_of_not_prefix (hfirst 0 p.succ_pos), hrest, Option.map_some]

/-- The marker behind a body is found there if none begins in the body. -/
theorem findMarker_append {body rest : List Bit}
    (hfirst : ∀ j < body.length, ¬ Config.eofMarker <+: (body ++ Config.eofMarker ++ rest).drop j) :
    findMarker (body ++ Config.eofMarker ++ rest) = some body.length := by
  refine findMarker_of_first ?_ hfirst
  rw [List.append_assoc, List.drop_left]
  exact List.prefix_append ..

theorem findMarker_of_not_infix {bs : List Bit} (h : ¬ Config.eofMarker <:+: bs) : findMarker bs = none := by
  induction bs with
  | nil => rfl
  | cons b bs ih =>
    rw [findMarker_cons_of_not_prefix fun hp => h hp.isInfix, ih fun hi => h (hi.trans (List.suffix_cons b bs).isInfix),
      Option.map_none]

/-- No marker begins in a part of a stuffed body before the marker: six bits of it would be ones, and of fewer the ones
of the marker behind stand where its own last bit, a 0, should. -/
theorem not_eofMarker_prefix_of_no_six_ones {ys rest : List Bit} (hne : ys ≠ [])
    (hsix : ¬ [true, true, true, true, true, true] <:+: ys) :
    ¬ Config.eofMarker <+: ys ++ Config.eofMarker ++ rest := by
  intro hpre
  obtain hlong | hshort : 6 ≤ ys.length ∨ ys.length < 6 := by omega
  · have hones : [true, true, true, true, true, true] <+: Config.eofMarker := ⟨[true, true, false], rfl⟩
    rw [List.append_assoc] at hpre
    exact hsix (List.prefix_of_prefix_length_le (hones.trans hpre) (List.prefix_append ..) hlong).isInfix
  · obtain ⟨t, ht⟩ := hpre
    have hpos : 0 < ys.length := List.length_pos_of_ne_nil hne
    have hlast : (ys ++ (Config.eofMarker ++ rest))[8]? = some false := by rw [← List.append_assoc, ← ht]; rfl
    have hone : Config.eofMarker[8 - ys.length]? = some true := by
      generalize ys.length = n at hpos hshort
      interval_cases n <;> rfl
    rw [List.getElem?_append_right (by omega), List.getElem?_append_left (List.getElem?_eq_some_iff.mp hone).1,
      hone] at hlast
    cases hlast

/-- Settles O35: a stuffed body holds no six ones, so no marker begins in it. -/
theorem firstMarkerEndsTheBody : Obligations.FirstMarkerEndsTheBody := by
  intro xs rest
  refine findMarker_append fun j hj => ?_
  have hsix : ¬ [true, true, true, true, true, true] <:+: (stuff xs).drop j := fun h =>
    (stuffedBodyHasNoSixOnes xs).1 (h.trans (List.drop_suffix j _).isInfix)
  rw [List.append_assoc, List.drop_append_of_le_length hj.le, ← List.append_assoc]
  exact not_eofMarker_prefix_of_no_six_ones (List.drop_eq_nil_iff.not.mpr hj.not_ge) hsix

end Sys2Proof.Machine
end

section
/-!
FRAME_DEC.PROCESS as next states (44_frame_decoder.md R191 to R197): one lemma for a step that goes on, one for a return,
whether input and output are two buffers or one, and what the step of each state gives.
-/
namespace Sys2Proof.Machine

/-! ### The first step of a transaction -/

theorem fdRun_of_goOn {cap n : Nat} {st st' : FdState} {i o : Fifo Bit} (h : fdStep cap st i o = .goOn st' n) :
    fdRun cap st i o = fdRun cap st' (i.consume n) o := by
  rw [fdRun_eq, h]

theorem fdRunOne_of_goOn {cap n : Nat} {st st' : FdState} {q : Fifo Bit} (h : fdStep cap st q q = .goOn st' n) :
    fdRunOne cap st q = fdRunOne cap st' (q.consume n) := by
  rw [fdRunOne_eq, h]

theorem fdRun_of_ret {cap : Nat} {st : FdState} {i o : Fifo Bit} {a : Act FdState Bit} (h : fdStep cap st i o = .ret a) :
    fdRun cap st i o = a.two i o := by
  rw [fdRun_eq, h]

theorem fdRunOne_of_ret {cap : Nat} {st : FdState} {q : Fifo Bit} {a : Act FdState Bit} (h : fdStep cap st q q = .ret a) :
    fdRunOne cap st q = a.one q := by
  rw [fdRunOne_eq, h]

/-! ### Transactions -/

section Transactions

variable {s : State} {fd inp out ni no : Nat} {oi oo : BitOrder} {st : FdState} {q p : Fifo Bit}

theorem exec_frameDecProcess_of_ne {r : FifoResult FdState Bit Bit} (hx : s.fds[fd]? = some ⟨st⟩)
    (hi : s.bufs[inp]? = some ⟨ni, .bits oi q⟩) (ho : s.bufs[out]? = some ⟨no, .bits oo p⟩) (hne : inp ≠ out)
    (hr : fdRun (8 * no) st q p = r) :
    exec (.frameDecProcess fd inp out) s =
      .next { s with fds := s.fds.set fd ⟨r.st⟩,
                     bufs := (s.bufs.set inp ⟨ni, .bits oi r.inp⟩).set out ⟨no, .bits oo r.out⟩,
                     response := some (.code r.code) } := by
  subst hr
  exact (withUnit_of_get hx).trans (State.process_of_ne hi ho hne)

theorem exec_frameDecProcess_one {r : OneFifoResult FdState Bit} (hx : s.fds[fd]? = some ⟨st⟩)
    (hi : s.bufs[inp]? = some ⟨ni, .bits oi q⟩) (hr : fdRunOne (8 * ni) st q = r) :
    exec (.frameDecProcess fd inp inp) s =
      .next { s with fds := s.fds.set fd ⟨r.st⟩, bufs := s.bufs.set inp ⟨ni, .bits oi r.buf⟩,
                     response := some (.code r.code) } := by
  subst hr
  exact (withUnit_of_get hx).trans (State.process_of_eq hi (frameDecOne_bits ..))

/-- A first step that goes on leaves the transaction that starts behind it. -/
theorem exec_frameDecProcess_goOn {st' : FdState} {n : Nat} (hx : s.fds[fd]? = some ⟨st⟩)
    (hi : s.bufs[inp]? = some ⟨ni, .bits oi q⟩) (ho : s.bufs[out]? = some ⟨no, .bits oo p⟩)
    (hstep : fdStep (8 * no) st q p = .goOn st' n) :
    exec (.frameDecProcess fd inp out) s =
      exec (.frameDecProcess fd inp out)
        { s with fds := s.fds.set fd ⟨st'⟩, bufs := s.bufs.set inp ⟨ni, .bits oi (q.consume n)⟩ } := by
  by_cases hne : inp = out
  · subst hne
    cases hi.symm.trans ho
    rw [exec_frameDecProcess_one hx hi (fdRunOne_of_goOn hstep),
      exec_frameDecProcess_one (getElem?_set_of_some hx _) (getElem?_set_of_some hi _) rfl]
    simp only [List.set_set]
  · rw [exec_frameDecProcess_of_ne hx hi ho hne (fdRun_of_goOn hstep),
      exec_frameDecProcess_of_ne (getElem?_set_of_some hx _) (getElem?_set_of_some hi _)
        ((List.getElem?_set_ne hne).trans ho) hne rfl]
    simp only [List.set_set]

/-- The same where the step takes the bits at the head of the input, at least one. -/
theorem exec_frameDecProcess_takes {st' : FdState} {taken rest : List Bit} {g : List (Option Bit)}
    (hx : s.fds[fd]? = some ⟨st⟩) (hi : s.bufs[inp]? = some ⟨ni, .bits oi ⟨taken ++ rest, g⟩⟩)
    (ho : s.bufs[out]? = some ⟨no, .bits oo p⟩) (hpos : 0 < taken.length)
    (hstep : fdStep (8 * no) st ⟨taken ++ rest, g⟩ p = .goOn st' taken.length) :
    exec (.frameDecProcess fd inp out) s =
      exec (.frameDecProcess fd inp out)
        { s with fds := s.fds.set fd ⟨st'⟩, bufs := s.bufs.set inp ⟨ni, .bits oi ⟨rest, []⟩⟩ } := by
  rw [exec_frameDecProcess_goOn hx hi ho hstep, Fifo.consume_pos _ hpos, List.drop_left]

/-- A first step that returns and puts nothing out changes at most the input and the state. -/
theorem exec_frameDecProcess_ret_silent {rc : ResultCode} {st' : FdState} {n : Nat} (hx : s.fds[fd]? = some ⟨st⟩)
    (hi : s.bufs[inp]? = some ⟨ni, .bits oi q⟩) (ho : s.bufs[out]? = some ⟨no, .bits oo p⟩)
    (hstep : fdStep (8 * no) st q p = .ret { code := rc, st := st', n := n, us := [] }) :
    exec (.frameDecProcess fd inp out) s =
      .next { s with fds := s.fds.set fd ⟨st'⟩, bufs := s.bufs.set inp ⟨ni, .bits oi (q.consume n)⟩,
                     response := some (.code rc) } := by
  by_cases hne : inp = out
  · subst hne
    cases hi.symm.trans ho
    rw [exec_frameDecProcess_one hx hi (fdRunOne_of_ret hstep), Act.one, Fifo.emit_nil]
  · rw [exec_frameDecProcess_of_ne hx hi ho hne (fdRun_of_ret hstep), Act.two, Fifo.emit_nil,
      set_of_get ((List.getElem?_set_ne hne).trans ho)]

/-- A first step that returns and does nothing changes only the response. -/
theorem exec_frameDecProcess_waits {rc : ResultCode} (hx : s.fds[fd]? = some ⟨st⟩)
    (hi : s.bufs[inp]? = some ⟨ni, .bits oi q⟩) (ho : s.bufs[out]? = some ⟨no, .bits oo p⟩)
    (hstep : fdStep (8 * no) st q p = .ret (.none rc st)) :
    exec (.frameDecProcess fd inp out) s = .next { s with response := some (.code rc) } := by
  rw [exec_frameDecProcess_ret_silent hx hi ho hstep, Fifo.consume_zero, set_of_get hx, set_of_get hi]

end Transactions

/-! ### INIT and LEAD_ONES -/

theorem confirmedRun_replicate (n : Nat) (v : Bit) : confirmedRun (List.replicate n v) = none := by
  cases n with
  | zero => rfl
  | succ n => simp [List.replicate_succ, confirmedRun, Nat.add_comm]

theorem confirmedRun_replicate_append {n : Nat} (hn : 0 < n) (v : Bit) (t : List Bit) :
    confirmedRun (List.replicate n v ++ (!v) :: t) = some (v, n) := by
  cases n with
  | zero => cases hn
  | succ n =>
    have hrun : (List.replicate n v ++ (!v) :: t).takeWhile (· == v) = List.replicate n v := by
      simp [List.takeWhile_append_of_pos]
    simp [List.replicate_succ, confirmedRun, hrun]
    omega

theorem fdStep_init_of_run {cap n : Nat} {i : Fifo Bit} {v : Bit} (h : confirmedRun i.content = some (v, n)) (o : Fifo Bit) :
    fdStep cap .init i o = .goOn (if v = false ∧ 7 ≤ n then .leadOnes else .init) n := by
  simp only [fdStep, stepInit, h]
  rfl

theorem fdStep_leadOnes_of_run {cap n : Nat} {i : Fifo Bit} {v : Bit} (h : confirmedRun i.content = some (v, n))
    (o : Fifo Bit) :
    fdStep cap .leadOnes i o = .goOn (if v = true ∧ 6 ≤ n then .extraZero else .init) n := by
  simp only [fdStep, stepLeadOnes, h]
  rfl

theorem fdStep_of_no_run {cap : Nat} {st : FdState} {i : Fifo Bit} (hst : st = .init ∨ st = .leadOnes)
    (h : confirmedRun i.content = none) (o : Fifo Bit) : fdStep cap st i o = .ret (.none .needInputData st) := by
  obtain rfl | rfl := hst
  · simp only [fdStep, stepInit, h]
  · simp only [fdStep, stepLeadOnes, h]

/-! ### EXTRA_ZERO and TRAILING -/

theorem fdStep_extraZero (cap : Nat) (i o : Fifo Bit) :
    fdStep cap .extraZero i o = if 1 ≤ i.filled then .goOn .data 1 else .ret (.none .needInputData .extraZero) := by
  simp [fdStep, stepExtraZero, Fifo.hasAvailable]

theorem fdStep_trailing (cap : Nat) (i o : Fifo Bit) :
    fdStep cap .trailing i o = if 7 ≤ i.filled then .goOn .data 7 else .ret (.none .needInputData .trailing) := by
  simp [fdStep, stepTrailing, Fifo.hasAvailable, Config.sepLen]

/-! ### DATA -/

theorem fdStep_data_of_marker {cap m : Nat} {i o : Fifo Bit} (hm : findMarker i.content = some m)
    (hroom : o.filled + (destuff (i.content.take m)).length ≤ cap) :
    fdStep cap .data i o =
      .ret { code := .ok, st := .trailing, n := m + 9, us := destuff (i.content.take m) } := by
  simp only [fdStep, stepData, hm]
  rw [if_pos ((o.hasSpace_iff cap 0 _).mpr hroom)]
  rfl

theorem fdStep_data_of_marker_full {cap m : Nat} {i o : Fifo Bit} (hm : findMarker i.content = some m)
    (hfull : cap < o.filled + (destuff (i.content.take m)).length) :
    fdStep cap .data i o = .ret (.none .needOutputSpace .data) := by
  simp only [fdStep, stepData, hm]
  rw [if_neg (mt (o.hasSpace_iff cap 0 _).mp hfull.not_ge)]

theorem fdStep_data_of_no_marker {cap : Nat} {i : Fifo Bit} (hm : findMarker i.content = none) (o : Fifo Bit) :
    fdStep cap .data i o =
      .ret (if 128 ≤ i.filled then { code := .needInputData, st := .init, n := i.filled, us := [] }
        else .none .needInputData .data) := by
  simp only [fdStep, stepData, hm]
  rfl

/-- Consuming the body and the marker leaves what follows. -/
theorem Fifo.consume_body_eofMarker (body rest : List Bit) (g : List (Option Bit)) :
    Fifo.consume ⟨body ++ Config.eofMarker ++ rest, g⟩ (body.length + 9) = ⟨rest, []⟩ := by
  rw [Fifo.consume_pos _ (Nat.succ_pos _), List.drop_left' (by simp [Config.eofMarker])]

section Delivery

variable {cap : Nat} {body rest : List Bit} {o : Fifo Bit}
  (hfirst : ∀ j < body.length, ¬ Config.eofMarker <+: (body ++ Config.eofMarker ++ rest).drop j)
  (g : List (Option Bit))

include hfirst

/-- With the first marker behind the body and room for the body destuffed, the step delivers it. -/
theorem fdStep_data_of_body (hroom : o.filled + (destuff body).length ≤ cap) :
    fdStep cap .data ⟨body ++ Config.eofMarker ++ rest, g⟩ o =
      .ret { code := .ok, st := .trailing, n := body.length + 9, us := destuff body } := by
  have htake : (body ++ Config.eofMarker ++ rest).take body.length = body := by rw [List.append_assoc, List.take_left]
  have hstep := fdStep_data_of_marker (i := ⟨_, g⟩) (o := o) (cap := cap) (findMarker_append hfirst) (by rwa [htake])
  rwa [htake] at hstep

theorem fdRun_data_of_body (hroom : o.filled + (destuff body).length ≤ cap) :
    fdRun cap .data ⟨body ++ Config.eofMarker ++ rest, g⟩ o =
      { code := .ok, st := .trailing, inp := ⟨rest, []⟩, out := o.emit (destuff body) } := by
  rw [fdRun_of_ret (fdStep_data_of_body hfirst g hroom), Act.two, Fifo.consume_body_eofMarker]

theorem fdRunOne_data_of_body (hroom : body.length + 9 + rest.length + (destuff body).length ≤ cap) :
    fdRunOne cap .data ⟨body ++ Config.eofMarker ++ rest, g⟩ =
      { code := .ok, st := .trailing, buf := ⟨rest ++ destuff body, []⟩ } := by
  have hfilled : Fifo.filled ⟨body ++ Config.eofMarker ++ rest, g⟩ = body.length + 9 + rest.length := by
    rw [Fifo.filled, List.length_append, List.length_append]
    rfl
  rw [fdRunOne_of_ret (fdStep_data_of_body hfirst g (by rwa [hfilled])), Act.one, Fifo.emit, List.append_assoc _ rest,
    Fifo.consume_body_eofMarker]

end Delivery

/-! ### The statements -/

/-- Settles O36: the marker is found at the end of the body, and there is room. -/
theorem dataDeliversTheFrame : Obligations.DataDeliversTheFrame := fun _ _ _ _ _ _ _ _ _ _ g _ hx hi hfirst =>
  ⟨fun hne ho hroom => exec_frameDecProcess_of_ne hx hi ho hne (fdRun_data_of_body hfirst g hroom),
    fun hroom => exec_frameDecProcess_one hx hi (fdRunOne_data_of_body hfirst g hroom)⟩

/-- Settles O37: the marker is found, and the destuffed bits before it do not fit. -/
theorem dataWithholdsTheFrame : Obligations.DataWithholdsTheFrame := fun _ _ _ _ _ _ _ _ _ _ _ hx hi ho hat hfirst hfull =>
  exec_frameDecProcess_waits hx hi ho (fdStep_data_of_marker_full (findMarker_of_first hat hfirst) hfull)

/-- Settles O38: no marker is found, so the number of bits decides. -/
theorem dataWaitsUntilTheWatchdog : Obligations.DataWaitsUntilTheWatchdog := by
  intro s fd inp out ni no oi oo q r hx hi ho hno
  have hstep := fdStep_data_of_no_marker (cap := 8 * no) (findMarker_of_not_infix hno) r
  refine ⟨fun hfew => ?_, fun hmany => ?_⟩
  · rw [if_neg hfew.not_ge] at hstep
    exact exec_frameDecProcess_waits hx hi ho hstep
  · rw [if_pos hmany] at hstep
    have hbits : q.content ≠ [] := List.length_pos_iff.mp (Nat.lt_of_lt_of_le (by decide) hmany)
    rw [exec_frameDecProcess_ret_silent hx hi ho hstep, Fifo.consume_filled_of_ne_nil hbits]

/-- Settles O39: a run of equal bits is not confirmed. -/
theorem unconfirmedRunWaits : Obligations.UnconfirmedRunWaits := fun _ _ _ _ _ _ n v _ _ _ _ r hx hst hi ho =>
  exec_frameDecProcess_waits hx hi ho (fdStep_of_no_run hst (confirmedRun_replicate n v) r)

/-- Settles O40: each is the step of its state, which takes the bits at the head of the input. -/
theorem synchroniserSteps : Obligations.SynchroniserSteps := by
  intro s fd inp out ni no n v st oi oo bs sep t g r hx hi ho goesOn
  refine ⟨?_, ?_, ?_, ?_⟩
  · rintro rfl hn rfl
    exact exec_frameDecProcess_takes hx hi ho (by simpa)
      (by simpa using fdStep_init_of_run (confirmedRun_replicate_append hn v t) r)
  · rintro rfl hn rfl
    exact exec_frameDecProcess_takes hx hi ho (by simpa)
      (by simpa using fdStep_leadOnes_of_run (confirmedRun_replicate_append hn v t) r)
  · rintro rfl rfl
    have hbit : 1 ≤ Fifo.filled ⟨v :: t, g⟩ := Nat.le_add_left 1 t.length
    exact exec_frameDecProcess_takes (taken := [v]) hx hi ho Nat.one_pos ((fdStep_extraZero ..).trans (if_pos hbit))
  · rintro rfl hsep rfl
    have hbits : 7 ≤ Fifo.filled ⟨sep ++ t, g⟩ := by simp [Fifo.filled, hsep]
    exact exec_frameDecProcess_takes hx hi ho (by omega) (hsep ▸ (fdStep_trailing ..).trans (if_pos hbits))

/-- Settles O41: too few bits for the step of either state. -/
theorem spacerAndSeparatorWait : Obligations.SpacerAndSeparatorWait := by
  intro s fd inp out ni no oi oo q r hi ho
  refine ⟨fun hx hq => ?_, fun hx hq => ?_⟩
  · exact exec_frameDecProcess_waits hx hi ho ((fdStep_extraZero ..).trans (if_neg (by omega)))
  · exact exec_frameDecProcess_waits hx hi ho ((fdStep_trailing ..).trans (if_neg (by omega)))

/-! ### Codes and states -/

/-- The state that goes with the code of a FRAME_DEC.PROCESS, where the code says which (R191). -/
def FdState.GoesWith (st : FdState) (rc : ResultCode) : Prop :=
  (rc = .ok → st = .trailing) ∧ (rc = .needOutputSpace → st = .data)

/-- A return from a state other than DATA is a wait in that state. -/
theorem fdStep_ret_of_ne_data {cap : Nat} {st : FdState} {i o : Fifo Bit} {a : Act FdState Bit} (hst : st ≠ .data)
    (h : fdStep cap st i o = .ret a) : a = .none .needInputData st := by
  cases st with
  | data => exact absurd rfl hst
  | init =>
    cases hrun : confirmedRun i.content with
    | none => exact (FdStep.ret.inj ((fdStep_of_no_run (.inl rfl) hrun o).symm.trans h)).symm
    | some r => cases (fdStep_init_of_run hrun o).symm.trans h
  | leadOnes =>
    cases hrun : confirmedRun i.content with
    | none => exact (FdStep.ret.inj ((fdStep_of_no_run (.inr rfl) hrun o).symm.trans h)).symm
    | some r => cases (fdStep_leadOnes_of_run hrun o).symm.trans h
  | extraZero =>
    rw [fdStep_extraZero] at h
    split at h <;> cases h
    rfl
  | trailing =>
    rw [fdStep_trailing] at h
    split at h <;> cases h
    rfl

theorem fdStep_ret_goesWith {cap : Nat} {st : FdState} {i o : Fifo Bit} {a : Act FdState Bit}
    (h : fdStep cap st i o = .ret a) : a.st.GoesWith a.code := by
  by_cases hst : st = .data
  · subst hst
    cases hm : findMarker i.content with
    | none =>
      cases (fdStep_data_of_no_marker hm o).symm.trans h
      split <;> exact ⟨nofun, nofun⟩
    | some m =>
      obtain hfull | hroom := Nat.lt_or_ge cap (o.filled + (destuff (i.content.take m)).length)
      · cases (fdStep_data_of_marker_full hm hfull).symm.trans h
        exact ⟨nofun, fun _ => rfl⟩
      · cases (fdStep_data_of_marker hm hroom).symm.trans h
        exact ⟨fun _ => rfl, nofun⟩
  · cases fdStep_ret_of_ne_data hst h
    exact ⟨nofun, nofun⟩

theorem fdRun_goesWith (cap : Nat) (st : FdState) (i o : Fifo Bit) :
    (fdRun cap st i o).st.GoesWith (fdRun cap st i o).code :=
  fdRun_induct (P := fun _ _ r => r.st.GoesWith r.code) (fun _ _ _ hs => fdStep_ret_goesWith hs)
    (fun _ _ _ _ _ _ hr => hr) st i

theorem fdRunOne_goesWith (cap : Nat) (st : FdState) (q : Fifo Bit) :
    (fdRunOne cap st q).st.GoesWith (fdRunOne cap st q).code :=
  fdRunOne_induct (P := fun _ _ r => r.st.GoesWith r.code) (fun _ _ _ hs => fdStep_ret_goesWith hs)
    (fun _ _ _ _ _ _ hr => hr) st q

theorem frameDecProcess_goesWith (fd : FrameDec) (i o : BitBuffer) :
    (frameDecProcess fd i o).st.st.GoesWith (frameDecProcess fd i o).code := by
  obtain ⟨ni, _ | ⟨oi, iq⟩ | _⟩ := i
  case bits =>
    obtain ⟨no, _ | ⟨oo, oq⟩ | _⟩ := o
    case bits => exact fdRun_goesWith (8 * no) fd.st iq oq
    all_goals exact ⟨nofun, nofun⟩
  all_goals exact ⟨nofun, nofun⟩

theorem frameDecOne_goesWith {fd : FrameDec} {b : BitBuffer} {r : OneResult FrameDec} (h : frameDecOne fd b = some r) :
    r.st.st.GoesWith r.code := by
  obtain ⟨nb, _ | ⟨order, q⟩ | _⟩ := b <;> cases h
  case bits => exact fdRunOne_goesWith (8 * nb) fd.st q
  all_goals exact ⟨nofun, nofun⟩

/-- What a FRAME_DEC.PROCESS hands back and leaves its unit in, in one piece. -/
theorem exec_frameDecProcess_next {s t : State} {fd inp out : Nat} (h : exec (.frameDecProcess fd inp out) s = .next t) :
    ∃ x x' rc, s.fds[fd]? = some x ∧ t.fds[fd]? = some x' ∧ t.response = some (.code rc) ∧ x'.st.GoesWith rc ∧
      (x.st ≠ .extraZero → x'.st ≠ .extraZero) := by
  obtain ⟨x, hx, h⟩ := withUnit_next h
  obtain ⟨i, o, -, -, ⟨-, rfl⟩ | ⟨-, r, hr, rfl⟩⟩ := State.process_next h
  · exact ⟨x, _, _, hx, getElem?_set_of_some hx _, rfl, frameDecProcess_goesWith x i o,
      frameDecProcess_ne_extraZero i o⟩
  · exact ⟨x, _, _, hx, getElem?_set_of_some hx _, rfl, frameDecOne_goesWith hr, frameDecOne_ne_extraZero hr⟩

/-- Settles O42: the code says the state, and no step goes on into EXTRA_ZERO without a bit left for it to take. -/
theorem frameDecoderCodesAndStates : Obligations.FrameDecoderCodesAndStates := by
  intro s t fd inp out h
  obtain ⟨⟨st⟩, ⟨st'⟩, rc, hx, hx', hrc, ⟨hok, hspace⟩, hextra⟩ := exec_frameDecProcess_next h
  rw [hx, hx', hrc]
  simp only [Option.some.injEq, Response.code.injEq, FrameDec.mk.injEq]
  exact ⟨hok, hspace, not_imp_not.mp hextra⟩

end Sys2Proof.Machine
end

section
/-!
The pipelines (45_pipeline.md) as rows of stages: a RESET and a PROCESS of a session as next states, the first three
stages by where they stop, and the stand-alone operations that a call amounts to.
-/
namespace Sys2Proof.Machine

/-! ### RESETs -/

theorem BitBuffer.cleared_filled (B : BitBuffer) : B.cleared.filled = 0 := by
  obtain ⟨n, _ | _ | _⟩ := B <;> rfl

theorem exec_x2dEncReset {s : State} {k : Nat} {e : EncSession} (he : s.encs[k]? = some e) :
    exec (.x2dEncReset k) s = .next { s with encs := s.encs.set k e.reset, response := some (.code .reset) } :=
  withUnit_of_get he

theorem exec_x2dDecReset {s : State} {k : Nat} {d : DecSession} (hd : s.decs[k]? = some d) :
    exec (.x2dDecReset k) s = .next { s with decs := s.decs.set k d.reset, response := some (.code .reset) } :=
  withUnit_of_get hd

/-- Settles O17: the reset session is put back, its buffers cleared, which keeps their form. -/
theorem pipelineResets : Obligations.PipelineResets := fun _ _ =>
  ⟨fun e he =>
    have ⟨ha, hb, hc⟩ := e.reset_keepsForm
    ⟨e.reset, exec_x2dEncReset he, rfl, rfl, rfl, rfl, e.a.cleared_filled, e.b.cleared_filled, e.c.cleared_filled,
      ha.1, hb.1, hc.1⟩,
  fun d hd =>
    have ⟨ha, hb, hc⟩ := d.reset_keepsForm
    ⟨d.reset, exec_x2dDecReset hd, rfl, rfl, rfl, d.a.cleared_filled, d.b.cleared_filled, d.c.cleared_filled,
      ha.1, hb.1, hc.1⟩⟩

/-! ### Three stages and a fourth -/

section Pipe

variable {σ : Type} {s : State} {inp out : Nat} {bi bo : BitBuffer} {front : BitBuffer → OneResult σ}
  {back : σ → BitBuffer → OneResult σ} {save : State → σ → State} {f b : OneResult σ}

/-- A pipeline that stops before stage 4 puts back the session and the input, whether the output is another buffer or not. -/
theorem State.process_pipe_stop (hsave : ∀ u, (save s u).bufs = s.bufs) (hi : s.bufs[inp]? = some bi)
    (ho : s.bufs[out]? = some bo) (hf : front bi = f) (hstop : f.code ≠ .ok) :
    s.process inp out (pipeTwo front back) (fun b => some (pipeOne front back b)) save =
      .next (((save s f.st).putBuf inp f.buf).respond (.code f.code)) := by
  subst hf
  by_cases hne : inp = out
  · subst hne
    exact State.process_of_eq hi (congrArg some (if_pos hstop))
  · have hout : ((save s (front bi).st).putBuf inp (front bi).buf).bufs[out]? = some bo := by
      rw [State.putBuf_bufs, hsave, List.getElem?_set_ne hne, ho]
    rw [State.process_of_ne hi ho hne, pipeTwo_stop _ _ _ _ hstop, State.putBuf_of_get hout]

theorem State.process_pipe_of_ne (hi : s.bufs[inp]? = some bi) (ho : s.bufs[out]? = some bo) (hne : inp ≠ out)
    (hf : front bi = f) (hok : f.code = .ok) (hb : back f.st bo = b) :
    s.process inp out (pipeTwo front back) (fun b => some (pipeOne front back b)) save =
      .next ((((save s b.st).putBuf inp f.buf).putBuf out b.buf).respond (.code b.code)) := by
  subst hf hb
  rw [State.process_of_ne hi ho hne, pipeTwo_ok _ _ _ _ hok]

theorem State.process_pipe_one (hi : s.bufs[inp]? = some bi) (hf : front bi = f) (hok : f.code = .ok)
    (hb : back f.st f.buf = b) :
    s.process inp inp (pipeTwo front back) (fun b => some (pipeOne front back b)) save =
      .next (((save s b.st).putBuf inp b.buf).respond (.code b.code)) := by
  subst hf hb
  exact State.process_of_eq hi (congrArg some (if_neg (not_not.mpr hok)))

end Pipe

/-! ### Calls on sessions -/

theorem x2dEncBack_of_stage {e : EncSession} {o : BitBuffer} {r : StageResult Xc} (h : xcProcess e.xc2 e.c o = r) :
    x2dEncBack e o = { code := r.code, st := { e with c := r.inp }, buf := r.out } := by
  subst h
  simp only [x2dEncBack, xcProcess_st]

theorem x2dDecBack_of_stage {d : DecSession} {o : BitBuffer} {r : StageResult Xc} (h : xcProcess d.xc2 d.c o = r) :
    x2dDecBack d o = { code := r.code, st := { d with c := r.inp }, buf := r.out } := by
  subst h
  simp only [x2dDecBack, xcProcess_st]

section Encode

variable {s : State} {k inp out : Nat} {flush : Bool} {bi bo : BitBuffer} {e : EncSession} {f : OneResult EncSession}
  {r : StageResult Xc}

theorem exec_x2dEncProcess_stop (he : s.encs[k]? = some e) (hi : s.bufs[inp]? = some bi) (ho : s.bufs[out]? = some bo)
    (hf : x2dEncFront e flush bi = f) (hstop : f.code ≠ .ok) :
    exec (.x2dEncProcess k inp out flush) s =
      .next { s with encs := s.encs.set k f.st, bufs := s.bufs.set inp f.buf, response := some (.code f.code) } :=
  (withUnit_of_get he).trans (State.process_pipe_stop (fun _ => rfl) hi ho hf hstop)

theorem exec_x2dEncProcess_of_ne (he : s.encs[k]? = some e) (hi : s.bufs[inp]? = some bi) (ho : s.bufs[out]? = some bo)
    (hne : inp ≠ out) (hf : x2dEncFront e flush bi = f) (hok : f.code = .ok) (hr : xcProcess f.st.xc2 f.st.c bo = r) :
    exec (.x2dEncProcess k inp out flush) s =
      .next { s with encs := s.encs.set k { f.st with c := r.inp }, bufs := (s.bufs.set inp f.buf).set out r.out,
                     response := some (.code r.code) } :=
  (withUnit_of_get he).trans (State.process_pipe_of_ne hi ho hne hf hok (x2dEncBack_of_stage hr))

theorem exec_x2dEncProcess_one (he : s.encs[k]? = some e) (hi : s.bufs[inp]? = some bi)
    (hf : x2dEncFront e flush bi = f) (hok : f.code = .ok) (hr : xcProcess f.st.xc2 f.st.c f.buf = r) :
    exec (.x2dEncProcess k inp inp flush) s =
      .next { s with encs := s.encs.set k { f.st with c := r.inp }, bufs := s.bufs.set inp r.out,
                     response := some (.code r.code) } :=
  (withUnit_of_get he).trans (State.process_pipe_one hi hf hok (x2dEncBack_of_stage hr))

end Encode

section Decode

variable {s : State} {k inp out : Nat} {flush : Bool} {bi bo : BitBuffer} {d : DecSession} {f : OneResult DecSession}
  {r : StageResult Xc}

theorem exec_x2dDecProcess_stop (hd : s.decs[k]? = some d) (hi : s.bufs[inp]? = some bi) (ho : s.bufs[out]? = some bo)
    (hf : x2dDecFront d flush bi = f) (hstop : f.code ≠ .ok) :
    exec (.x2dDecProcess k inp out flush) s =
      .next { s with decs := s.decs.set k f.st, bufs := s.bufs.set inp f.buf, response := some (.code f.code) } :=
  (withUnit_of_get hd).trans (State.process_pipe_stop (fun _ => rfl) hi ho hf hstop)

theorem exec_x2dDecProcess_of_ne (hd : s.decs[k]? = some d) (hi : s.bufs[inp]? = some bi) (ho : s.bufs[out]? = some bo)
    (hne : inp ≠ out) (hf : x2dDecFront d flush bi = f) (hok : f.code = .ok) (hr : xcProcess f.st.xc2 f.st.c bo = r) :
    exec (.x2dDecProcess k inp out flush) s =
      .next { s with decs := s.decs.set k { f.st with c := r.inp }, bufs := (s.bufs.set inp f.buf).set out r.out,
                     response := some (.code r.code) } :=
  (withUnit_of_get hd).trans (State.process_pipe_of_ne hi ho hne hf hok (x2dDecBack_of_stage hr))

theorem exec_x2dDecProcess_one (hd : s.decs[k]? = some d) (hi : s.bufs[inp]? = some bi)
    (hf : x2dDecFront d flush bi = f) (hok : f.code = .ok) (hr : xcProcess f.st.xc2 f.st.c f.buf = r) :
    exec (.x2dDecProcess k inp inp flush) s =
      .next { s with decs := s.decs.set k { f.st with c := r.inp }, bufs := s.bufs.set inp r.out,
                     response := some (.code r.code) } :=
  (withUnit_of_get hd).trans (State.process_pipe_one hi hf hok (x2dDecBack_of_stage hr))

end Decode

/-! ### Where the first three stages stop -/

section EncFront

variable {e : EncSession} {flush : Bool} {i : BitBuffer} {r1 : StageResult Xc} {r2 : StageResult FrameEnc}
  {r3 : StageResult BiphaseEnc}

theorem x2dEncFront_stop_one (h1 : xcProcess ⟨flush⟩ i e.a = r1) (hstop : r1.code ≠ .ok) :
    x2dEncFront e flush i =
      { code := r1.code, st := { e with xc1 := ⟨flush⟩, xc2 := ⟨flush⟩, a := r1.out }, buf := r1.inp } := by
  subst h1
  refine (if_pos hstop).trans ?_
  simp only [xcProcess_st]
  rfl

theorem x2dEncFront_stop_two (h1 : xcProcess ⟨flush⟩ i e.a = r1) (hok : r1.code = .ok)
    (h2 : frameEncProcess e.fe r1.out e.b = r2) (hstop : r2.code ≠ .ok) :
    x2dEncFront e flush i =
      { code := r2.code, st := { e with xc1 := ⟨flush⟩, fe := r2.st, xc2 := ⟨flush⟩, a := r2.inp, b := r2.out },
        buf := r1.inp } := by
  subst h1 h2
  refine (if_neg (not_not.mpr hok)).trans ((if_pos hstop).trans ?_)
  simp only [xcProcess_st]
  rfl

theorem x2dEncFront_three (h1 : xcProcess ⟨flush⟩ i e.a = r1) (hok : r1.code = .ok)
    (h2 : frameEncProcess e.fe r1.out e.b = r2) (hok2 : r2.code = .ok) (h3 : bmcEncProcess e.be r2.out e.c = r3) :
    x2dEncFront e flush i =
      { code := r3.code,
        st := { xc1 := ⟨flush⟩, fe := r2.st, be := r3.st, xc2 := ⟨flush⟩, a := r2.inp, b := r3.inp, c := r3.out },
        buf := r1.inp } := by
  subst h1 h2 h3
  refine (if_neg (not_not.mpr hok)).trans ((if_neg (not_not.mpr hok2)).trans ?_)
  simp only [xcProcess_st]
  rfl

end EncFront

section DecFront

variable {d : DecSession} {flush : Bool} {i : BitBuffer} {r1 : StageResult Xc} {r2 : StageResult Unit}
  {r3 : StageResult FrameDec}

theorem x2dDecFront_stop_one (h1 : xcProcess ⟨flush⟩ i d.a = r1) (hstop : r1.code ≠ .ok) :
    x2dDecFront d flush i =
      { code := r1.code, st := { d with xc1 := ⟨flush⟩, xc2 := ⟨flush⟩, a := r1.out }, buf := r1.inp } := by
  subst h1
  refine (if_pos hstop).trans ?_
  simp only [xcProcess_st]
  rfl

theorem x2dDecFront_stop_two (h1 : xcProcess ⟨flush⟩ i d.a = r1) (hok : r1.code = .ok)
    (h2 : bmcDecProcess r1.out d.b = r2) (hstop : r2.code ≠ .ok) :
    x2dDecFront d flush i =
      { code := r2.code, st := { d with xc1 := ⟨flush⟩, xc2 := ⟨flush⟩, a := r2.inp, b := r2.out }, buf := r1.inp } := by
  subst h1 h2
  refine (if_neg (not_not.mpr hok)).trans ((if_pos hstop).trans ?_)
  simp only [xcProcess_st]
  rfl

theorem x2dDecFront_three (h1 : xcProcess ⟨flush⟩ i d.a = r1) (hok : r1.code = .ok)
    (h2 : bmcDecProcess r1.out d.b = r2) (hok2 : r2.code = .ok) (h3 : frameDecProcess d.fd r2.out d.c = r3) :
    x2dDecFront d flush i =
      { code := r3.code,
        st := { xc1 := ⟨flush⟩, fd := r3.st, xc2 := ⟨flush⟩, a := r2.inp, b := r3.inp, c := r3.out }, buf := r1.inp } := by
  subst h1 h2 h3
  refine (if_neg (not_not.mpr hok)).trans ((if_neg (not_not.mpr hok2)).trans ?_)
  simp only [xcProcess_st]
  rfl

end DecFront

/-! ### A call as a row of stand-alone operations -/

/-- An operation is followed by the rest of the row just where it answers OK. -/
theorem runWhileOk_cons_code {i : Instr} {rest : List Instr} {s t : State} {rc : ResultCode} (h : exec i s = .next t)
    (hc : t.response = some (.code rc)) :
    runWhileOk (i :: rest) s = (if rc = .ok then runWhileOk rest else .next) t := by
  by_cases hok : rc = .ok
  · rw [runWhileOk_cons_ok h (by rw [hc, hok]), if_pos hok]
  · rw [runWhileOk_cons_stop h (by simpa [hc] using hok), if_neg hok]

theorem runWhileOk_singleton {i : Instr} {s t : State} {rc : ResultCode} (h : exec i s = .next t)
    (hc : t.response = some (.code rc)) : runWhileOk [i] s = .next t := by
  rw [runWhileOk_cons_code h hc]
  split <;> rfl

section Row

variable {σ : Type} {s start : State} {inp out : Nat} {bi bo : BitBuffer} {front : BitBuffer → OneResult σ}
  {back : σ → BitBuffer → OneResult σ} {save : State → σ → State} {stages : List Instr}
  {bench : σ → BitBuffer → BitBuffer → Option Response → State}

/-- A pipeline gives the session and the end buffers what a row of operations gives units and buffers on a bench: some
first ones as its front does, and one more, as its back does, from the bench to the output or back to the input. -/
theorem State.process_pipe_eq_row (hsave : ∀ u, (save s u).bufs = s.bufs) (hi : s.bufs[inp]? = some bi)
    (ho : s.bufs[out]? = some bo)
    (hbench : ∀ u i o r, (bench u i o r).response = r)
    (hfront : ∀ last, runWhileOk (stages ++ [last]) start =
      (if (front bi).code = .ok then runWhileOk [last] else .next)
        (bench (front bi).st (front bi).buf bo (some (.code (front bi).code))))
    (hback : ∀ u i o r, exec (.xcProcess 1 3 4) (bench u i o r) =
      .next (bench (back u o).st i (back u o).buf (some (.code (back u o).code))))
    (hbackOne : ∀ u i o r, exec (.xcProcess 1 3 0) (bench u i o r) =
      .next (bench (back u i).st (back u i).buf o (some (.code (back u i).code)))) :
    ∃ u' bi' bo' rc,
      runWhileOk (stages ++ [.xcProcess 1 3 (if inp = out then 0 else 4)]) start =
        .next (bench u' bi' bo' (some (.code rc))) ∧
      s.process inp out (pipeTwo front back) (fun b => some (pipeOne front back b)) save =
        .next { save s u' with bufs := if inp = out then s.bufs.set inp bi' else (s.bufs.set inp bi').set out bo',
                               response := some (.code rc) } := by
  rw [hfront]
  by_cases hok : (front bi).code = .ok
  · rw [if_pos hok]
    by_cases hne : inp = out
    · subst hne
      rw [if_pos rfl, State.process_pipe_one hi rfl hok rfl, State.putBuf, hsave]
      exact ⟨_, _, bo, _, runWhileOk_singleton (hbackOne ..) (hbench ..), by rw [if_pos rfl]; rfl⟩
    · rw [if_neg hne, State.process_pipe_of_ne hi ho hne rfl hok rfl, State.putBuf, State.putBuf, hsave]
      exact ⟨_, _, _, _, runWhileOk_singleton (hback ..) (hbench ..), by rw [if_neg hne]; rfl⟩
  · rw [if_neg hok, State.process_pipe_stop hsave hi ho rfl hok, State.putBuf, hsave]
    refine ⟨_, _, bo, _, rfl, ?_⟩
    by_cases hne : inp = out
    · rw [if_pos hne]
      rfl
    · rw [if_neg hne, set_of_get ((List.getElem?_set_ne hne).trans ho)]
      rfl

end Row

/-- The units and buffers of an encode session on a bench, between the two end buffers. -/
def encBench (e : EncSession) (bi bo : BitBuffer) (r : Option Response) : State :=
  { State.reset with xcs := [e.xc1, e.xc2], fes := [e.fe], bes := [e.be], bufs := [bi, e.a, e.b, e.c, bo], response := r }

/-- The units and buffers of a decode session on a bench, between the two end buffers. -/
def decBench (d : DecSession) (bi bo : BitBuffer) (r : Option Response) : State :=
  { State.reset with xcs := [d.xc1, d.xc2], fds := [d.fd], bufs := [bi, d.a, d.b, d.c, bo], response := r }

/-- FRAME_DEC.PROCESS on two buffers of whatever modes. -/
theorem exec_frameDecProcess_stage {s : State} {fd inp out : Nat} {x : FrameDec} {i o : BitBuffer} {r : StageResult FrameDec}
    (hx : s.fds[fd]? = some x) (hi : s.bufs[inp]? = some i) (ho : s.bufs[out]? = some o) (hne : inp ≠ out)
    (hr : frameDecProcess x i o = r) :
    exec (.frameDecProcess fd inp out) s =
      .next { s with fds := s.fds.set fd r.st, bufs := (s.bufs.set inp r.inp).set out r.out,
                     response := some (.code r.code) } := by
  subst hr
  exact (withUnit_of_get hx).trans (State.process_of_ne hi ho hne)

/-- The first three stages of X2D_ENC.PROCESS on the bench, and what follows them. -/
theorem runWhileOk_encBench (e : EncSession) (flush : Bool) (bi bo : BitBuffer) (last : Instr) :
    runWhileOk [.xcProcess 0 0 1, .frameEncProcess 0 1 2, .bmcEncProcess 0 2 3, last]
        (encBench (e.setFlush flush) bi bo none) =
      (if (x2dEncFront e flush bi).code = .ok then runWhileOk [last] else .next)
        (encBench (x2dEncFront e flush bi).st (x2dEncFront e flush bi).buf bo
          (some (.code (x2dEncFront e flush bi).code))) := by
  obtain ⟨r1, h1⟩ : ∃ r, xcProcess ⟨flush⟩ bi e.a = r := ⟨_, rfl⟩
  refine (runWhileOk_cons_code (exec_xcProcess_of_ne rfl rfl rfl (by decide) h1) rfl).trans ?_
  by_cases hok1 : r1.code = .ok
  swap
  · rw [x2dEncFront_stop_one h1 hok1, if_neg hok1, if_neg hok1]
    rfl
  rw [if_pos hok1]
  obtain ⟨r2, h2⟩ : ∃ r, frameEncProcess e.fe r1.out e.b = r := ⟨_, rfl⟩
  refine (runWhileOk_cons_code (exec_frameEncProcess_of_ne rfl rfl rfl (by decide) h2) rfl).trans ?_
  by_cases hok2 : r2.code = .ok
  swap
  · rw [x2dEncFront_stop_two h1 hok1 h2 hok2, if_neg hok2, if_neg hok2]
    rfl
  rw [if_pos hok2, x2dEncFront_three h1 hok1 h2 hok2 rfl]
  exact runWhileOk_cons_code (exec_bmcEncProcess_of_ne rfl rfl rfl (by decide) rfl) rfl

/-- The first three stages of X2D_DEC.PROCESS on the bench, and what follows them. -/
theorem runWhileOk_decBench (d : DecSession) (flush : Bool) (bi bo : BitBuffer) (last : Instr) :
    runWhileOk [.xcProcess 0 0 1, .bmcDecProcess 1 2, .frameDecProcess 0 2 3, last]
        (decBench (d.setFlush flush) bi bo none) =
      (if (x2dDecFront d flush bi).code = .ok then runWhileOk [last] else .next)
        (decBench (x2dDecFront d flush bi).st (x2dDecFront d flush bi).buf bo
          (some (.code (x2dDecFront d flush bi).code))) := by
  obtain ⟨r1, h1⟩ : ∃ r, xcProcess ⟨flush⟩ bi d.a = r := ⟨_, rfl⟩
  refine (runWhileOk_cons_code (exec_xcProcess_of_ne rfl rfl rfl (by decide) h1) rfl).trans ?_
  by_cases hok1 : r1.code = .ok
  swap
  · rw [x2dDecFront_stop_one h1 hok1, if_neg hok1, if_neg hok1]
    rfl
  rw [if_pos hok1]
  obtain ⟨r2, h2⟩ : ∃ r, bmcDecProcess r1.out d.b = r := ⟨_, rfl⟩
  refine (runWhileOk_cons_code (exec_bmcDecProcess_of_ne rfl rfl (by decide) h2) rfl).trans ?_
  by_cases hok2 : r2.code = .ok
  swap
  · rw [x2dDecFront_stop_two h1 hok1 h2 hok2, if_neg hok2, if_neg hok2]
    rfl
  rw [if_pos hok2, x2dDecFront_three h1 hok1 h2 hok2 rfl]
  exact runWhileOk_cons_code (exec_frameDecProcess_stage rfl rfl rfl (by decide) rfl) rfl

theorem exec_encBench_back (e : EncSession) (i o : BitBuffer) (r : Option Response) :
    exec (.xcProcess 1 3 4) (encBench e i o r) =
      .next (encBench (x2dEncBack e o).st i (x2dEncBack e o).buf (some (.code (x2dEncBack e o).code))) := by
  rw [x2dEncBack_of_stage rfl]
  exact exec_xcProcess_of_ne (s := encBench e i o r) rfl rfl rfl (by decide) rfl

theorem exec_encBench_backOne (e : EncSession) (i o : BitBuffer) (r : Option Response) :
    exec (.xcProcess 1 3 0) (encBench e i o r) =
      .next (encBench (x2dEncBack e i).st (x2dEncBack e i).buf o (some (.code (x2dEncBack e i).code))) := by
  rw [x2dEncBack_of_stage rfl]
  exact exec_xcProcess_of_ne (s := encBench e i o r) rfl rfl rfl (by decide) rfl

theorem exec_decBench_back (d : DecSession) (i o : BitBuffer) (r : Option Response) :
    exec (.xcProcess 1 3 4) (decBench d i o r) =
      .next (decBench (x2dDecBack d o).st i (x2dDecBack d o).buf (some (.code (x2dDecBack d o).code))) := by
  rw [x2dDecBack_of_stage rfl]
  exact exec_xcProcess_of_ne (s := decBench d i o r) rfl rfl rfl (by decide) rfl

theorem exec_decBench_backOne (d : DecSession) (i o : BitBuffer) (r : Option Response) :
    exec (.xcProcess 1 3 0) (decBench d i o r) =
      .next (decBench (x2dDecBack d i).st (x2dDecBack d i).buf o (some (.code (x2dDecBack d i).code))) := by
  rw [x2dDecBack_of_stage rfl]
  exact exec_xcProcess_of_ne (s := decBench d i o r) rfl rfl rfl (by decide) rfl

section Calls

variable {s : State} {k inp out : Nat} {bi bo : BitBuffer}

/-- X2D_ENC.PROCESS is its four stages in a row. -/
theorem exec_x2dEncProcess_eq_row (flush : Bool) {e : EncSession} (he : s.encs[k]? = some e) (hi : s.bufs[inp]? = some bi)
    (ho : s.bufs[out]? = some bo) :
    ∃ e' bi' bo' rc,
      runWhileOk [.xcProcess 0 0 1, .frameEncProcess 0 1 2, .bmcEncProcess 0 2 3,
          .xcProcess 1 3 (if inp = out then 0 else 4)] (encBench (e.setFlush flush) bi bo none) =
        .next (encBench e' bi' bo' (some (.code rc))) ∧
      exec (.x2dEncProcess k inp out flush) s =
        .next { s with encs := s.encs.set k e',
                       bufs := if inp = out then s.bufs.set inp bi' else (s.bufs.set inp bi').set out bo',
                       response := some (.code rc) } := by
  obtain ⟨e', bi', bo', rc, hrow, hcall⟩ := State.process_pipe_eq_row (save := fun s' e' => s'.putEnc k e')
    (stages := [.xcProcess 0 0 1, .frameEncProcess 0 1 2, .bmcEncProcess 0 2 3]) (back := x2dEncBack) (fun _ => rfl)
    hi ho (fun _ _ _ _ => rfl) (runWhileOk_encBench e flush bi bo) exec_encBench_back exec_encBench_backOne
  exact ⟨e', bi', bo', rc, hrow, (withUnit_of_get he).trans hcall⟩

/-- X2D_DEC.PROCESS is its four stages in a row. -/
theorem exec_x2dDecProcess_eq_row (flush : Bool) {d : DecSession} (hd : s.decs[k]? = some d) (hi : s.bufs[inp]? = some bi)
    (ho : s.bufs[out]? = some bo) :
    ∃ d' bi' bo' rc,
      runWhileOk [.xcProcess 0 0 1, .bmcDecProcess 1 2, .frameDecProcess 0 2 3,
          .xcProcess 1 3 (if inp = out then 0 else 4)] (decBench (d.setFlush flush) bi bo none) =
        .next (decBench d' bi' bo' (some (.code rc))) ∧
      exec (.x2dDecProcess k inp out flush) s =
        .next { s with decs := s.decs.set k d',
                       bufs := if inp = out then s.bufs.set inp bi' else (s.bufs.set inp bi').set out bo',
                       response := some (.code rc) } := by
  obtain ⟨d', bi', bo', rc, hrow, hcall⟩ := State.process_pipe_eq_row (save := fun s' d' => s'.putDec k d')
    (stages := [.xcProcess 0 0 1, .bmcDecProcess 1 2, .frameDecProcess 0 2 3]) (back := x2dDecBack) (fun _ => rfl)
    hi ho (fun _ _ _ _ => rfl) (runWhileOk_decBench d flush bi bo) exec_decBench_back exec_decBench_backOne
  exact ⟨d', bi', bo', rc, hrow, (withUnit_of_get hd).trans hcall⟩

end Calls

end Sys2Proof.Machine
end

section
/-!
The stages of the pipelines where they get on, and where they have nothing to do, in closed form; and the first three
stages of a call on them.
-/
namespace Sys2Proof.Machine

/-! ### Stages that get on -/

section Stages

variable {ni no : Nat} {oi oo : BitOrder}

theorem xcProcess_unpack_ok (x : Xc) {q : Fifo Byte} {p : Fifo Bit} {j : Nat}
    (hj : j = min q.filled ((8 * no - p.filled) / 8)) (hpos : 0 < j) :
    xcProcess x ⟨ni, .bytes q⟩ ⟨no, .bits oo p⟩ =
      { code := .ok, st := x, inp := ⟨ni, .bytes ⟨q.content.drop j, []⟩⟩,
        out := ⟨no, .bits oo ⟨p.content ++ Spec.bitsOfBytes oo (q.content.take j), p.staged.drop (8 * j)⟩⟩ } := by
  have hlen : (Spec.bitsOfBytes oo (q.content.take j)).length = 8 * j := by
    rw [bitsOfBytes_length, List.length_take_of_le (hj ▸ min_le_left ..)]
  rw [xcProcess_bytes_bits, ← hj, loopCode_of_pos hpos, Fifo.consume_pos _ hpos, Fifo.emit, hlen]

theorem xcProcess_unpack_full (x : Xc) {q : Fifo Byte} {p : Fifo Bit} (hj : 0 = min q.filled ((8 * no - p.filled) / 8))
    (hq : 0 < q.filled) :
    xcProcess x ⟨ni, .bytes q⟩ ⟨no, .bits oo p⟩ =
      { code := .needOutputSpace, st := x, inp := ⟨ni, .bytes q⟩, out := ⟨no, .bits oo p⟩ } := by
  rw [xcProcess_bytes_bits, ← hj, if_neg hq.ne', Fifo.consume_zero, List.take_zero, bitsOfBytes_nil, Fifo.emit_nil]
  rfl

theorem xcProcess_pack_ok (x : Xc) {q : Fifo Bit} {p : Fifo Byte} {m : Nat}
    (hm : m = min (Spec.packedBytes x.flush q.filled) (no - p.filled)) (hpos : 0 < m) :
    xcProcess x ⟨ni, .bits oi q⟩ ⟨no, .bytes p⟩ =
      { code := .ok, st := x, inp := ⟨ni, .bits oi ⟨q.content.drop (8 * m), []⟩⟩,
        out := ⟨no, .bytes ⟨p.content ++ Spec.bytesOfBits oi m q.content, p.staged.drop m⟩⟩ } := by
  have hcount : packCount x.flush q.filled (no - p.filled) = m := hm.symm
  have hq : 0 < q.filled := by simp only [Spec.packedBytes] at hm; split at hm <;> omega
  rw [xcProcess_bits_bytes, hcount, loopCode_of_pos hpos, Fifo.consume_min_filled q hq (by omega), Fifo.emit,
    Spec.bytesOfBits_length]

/-- Where no byte is packed the count of bits alone says why. -/
theorem xcProcess_pack_none (x : Xc) {q : Fifo Bit} {p : Fifo Byte}
    (h : 0 = min (Spec.packedBytes x.flush q.filled) (no - p.filled)) :
    xcProcess x ⟨ni, .bits oi q⟩ ⟨no, .bytes p⟩ =
      { code := if Spec.packedBytes x.flush q.filled = 0 then .needInputData else .needOutputSpace, st := x,
        inp := ⟨ni, .bits oi q⟩, out := ⟨no, .bytes p⟩ } := by
  have hcount : packCount x.flush q.filled (no - p.filled) = 0 := h.symm
  have hnone : Spec.bytesOfBits oi 0 q.content = [] := rfl
  have hfew : q.filled < (if x.flush then 1 else 8) ↔ Spec.packedBytes x.flush q.filled = 0 := by
    simp only [Spec.packedBytes]
    split <;> omega
  rw [xcProcess_bits_bytes, hcount, Nat.mul_zero, Nat.min_zero, Fifo.consume_zero, hnone, Fifo.emit_nil]
  simp only [hfew]
  rfl

theorem xcProcess_pack_few (x : Xc) {q : Fifo Bit} {p : Fifo Byte} (h : Spec.packedBytes x.flush q.filled = 0) :
    xcProcess x ⟨ni, .bits oi q⟩ ⟨no, .bytes p⟩ =
      { code := .needInputData, st := x, inp := ⟨ni, .bits oi q⟩, out := ⟨no, .bytes p⟩ } := by
  rw [xcProcess_pack_none x (by omega), if_pos h]

theorem xcProcess_pack_full (x : Xc) {q : Fifo Bit} {p : Fifo Byte} (h : 0 < Spec.packedBytes x.flush q.filled)
    (hfull : no ≤ p.filled) :
    xcProcess x ⟨ni, .bits oi q⟩ ⟨no, .bytes p⟩ =
      { code := .needOutputSpace, st := x, inp := ⟨ni, .bits oi q⟩, out := ⟨no, .bytes p⟩ } := by
  rw [xcProcess_pack_none x (by omega), if_neg h.ne']

/-- Packed into what stage 1 has left of a buffer, the bytes have nothing staged behind them. -/
theorem xcProcess_pack_back (x : Xc) {m n : Nat} {bs : List Bit} {q : Fifo Bit} {left : List Byte} (hbs : q.content = bs)
    (hleft : left.length = n) (hm : m = min (Spec.packedBytes x.flush bs.length) (no - n)) (hpos : 0 < m) :
    xcProcess x ⟨ni, .bits oi q⟩ ⟨no, .bytes ⟨left, []⟩⟩ =
      { code := .ok, st := x, inp := ⟨ni, .bits oi ⟨bs.drop (8 * m), []⟩⟩,
        out := ⟨no, .bytes ⟨left ++ Spec.bytesOfBits oi m bs, []⟩⟩ } := by
  subst hbs hleft
  rw [xcProcess_pack_ok x hm hpos, List.drop_nil]

/-- An empty byte buffer gives the transcoder nothing to do, whatever the mode of the other. -/
theorem xcProcess_empty (x : Xc) (g : List (Option Byte)) {o : BitBuffer} (ho : o.mode ≠ .reserved) :
    xcProcess x ⟨ni, .bytes ⟨[], g⟩⟩ o = { code := .needInputData, st := x, inp := ⟨ni, .bytes ⟨[], g⟩⟩, out := o } := by
  obtain ⟨no, p | ⟨oo, p⟩ | _⟩ := o
  case bytes => simp [xcProcess_bytes_bytes, loopCode, Fifo.filled]
  case bits => simp [xcProcess_bytes_bits, loopCode, Fifo.filled]
  case reserved => exact absurd rfl ho

theorem Fifo.filled_pos {α : Type} {q : Fifo α} (h : q.content ≠ []) : 0 < q.filled := List.length_pos_of_ne_nil h

theorem frameEncProcess_ok (fe : FrameEnc) {q p : Fifo Bit} (hq : q.content ≠ [])
    (hroom : p.filled + (fe.frame q.content).length ≤ 8 * no) :
    frameEncProcess fe ⟨ni, .bits oi q⟩ ⟨no, .bits oo p⟩ =
      { code := .ok, st := fe.emitted, inp := ⟨ni, .bits oi ⟨[], []⟩⟩,
        out := ⟨no, .bits oo (p.emit (fe.frame q.content))⟩ } := by
  rw [frameEncProcess_bits, if_neg (Fifo.filled_pos hq).ne', if_pos hroom, Fifo.consume_filled_of_ne_nil hq]

theorem frameEncProcess_full (fe : FrameEnc) {q p : Fifo Bit} (hq : q.content ≠ [])
    (hfull : 8 * no < p.filled + (fe.frame q.content).length) :
    frameEncProcess fe ⟨ni, .bits oi q⟩ ⟨no, .bits oo p⟩ =
      { code := .needOutputSpace, st := fe, inp := ⟨ni, .bits oi q⟩, out := ⟨no, .bits oo p⟩ } := by
  rw [frameEncProcess_bits, if_neg (Fifo.filled_pos hq).ne', if_neg hfull.not_ge]

theorem bmcEncProcess_ok (be : BiphaseEnc) {q p : Fifo Bit} {r : Nat} (hr : r = min q.filled ((8 * no - p.filled) / 2))
    (hpos : 0 < r) :
    bmcEncProcess be ⟨ni, .bits oi q⟩ ⟨no, .bits oo p⟩ =
      { code := .ok, st := ⟨Spec.linePhase be.phase (q.content.take r)⟩, inp := ⟨ni, .bits oi ⟨q.content.drop r, []⟩⟩,
        out := ⟨no, .bits oo ⟨p.content ++ Spec.lineBits be.phase (q.content.take r), p.staged.drop (2 * r)⟩⟩ } := by
  rw [bmcEncProcess_bits, ← hr, loopCode_of_pos hpos, Fifo.consume_pos _ hpos, Fifo.emit, Spec.lineBits_length,
    List.length_take_of_le (hr ▸ min_le_left ..)]

theorem bmcEncProcess_full (be : BiphaseEnc) {q p : Fifo Bit} (hr : 0 = min q.filled ((8 * no - p.filled) / 2))
    (hq : 0 < q.filled) :
    bmcEncProcess be ⟨ni, .bits oi q⟩ ⟨no, .bits oo p⟩ =
      { code := .needOutputSpace, st := be, inp := ⟨ni, .bits oi q⟩, out := ⟨no, .bits oo p⟩ } := by
  rw [bmcEncProcess_bits, ← hr, if_neg hq.ne', Fifo.consume_zero, List.take_zero, Spec.lineBits, Fifo.emit_nil]
  rfl

theorem bmcDecProcess_ok {q p : Fifo Bit} {r : Nat} (hr : r = min (q.filled / 2) (8 * no - p.filled)) (hpos : 0 < r) :
    bmcDecProcess ⟨ni, .bits oi q⟩ ⟨no, .bits oo p⟩ =
      { code := .ok, st := (), inp := ⟨ni, .bits oi ⟨q.content.drop (2 * r), []⟩⟩,
        out := ⟨no, .bits oo ⟨p.content ++ Spec.dataBits (q.content.take (2 * r)), p.staged.drop r⟩⟩ } := by
  have htake : 2 * r ≤ q.content.length := by simp only [Fifo.filled] at hr; omega
  rw [bmcDecProcess_bits, ← hr, loopCode_of_pos hpos, Fifo.consume_pos _ (by omega), Fifo.emit, Spec.dataBits_length,
    List.length_take_of_le htake, Nat.mul_div_cancel_left r Nat.two_pos]

theorem bmcDecProcess_full {q p : Fifo Bit} (hr : 0 = min (q.filled / 2) (8 * no - p.filled)) (hq : 2 ≤ q.filled) :
    bmcDecProcess ⟨ni, .bits oi q⟩ ⟨no, .bits oo p⟩ =
      { code := .needOutputSpace, st := (), inp := ⟨ni, .bits oi q⟩, out := ⟨no, .bits oo p⟩ } := by
  rw [bmcDecProcess_bits, ← hr, if_neg hq.not_gt, Nat.mul_zero, Fifo.consume_zero, List.take_zero, Spec.dataBits,
    Fifo.emit_nil]
  rfl

end Stages

/-! ### The first three stages of X2D_ENC.PROCESS -/

section EncFront

variable {e : EncSession} {ni na nb nc j r : Nat} {oa ob oc : BitOrder} {q : Fifo Byte} {pa pb pc : Fifo Bit}
  {x f cells : List Bit}

theorem x2dEncFront_full_a (flush : Bool) (ha : e.a = ⟨na, .bits oa pa⟩) (hj : 0 = min q.filled ((8 * na - pa.filled) / 8))
    (hq : 0 < q.filled) :
    x2dEncFront e flush ⟨ni, .bytes q⟩ =
      { code := .needOutputSpace, st := { e with xc1 := ⟨flush⟩, xc2 := ⟨flush⟩ }, buf := ⟨ni, .bytes q⟩ } := by
  rw [x2dEncFront_stop_one ((congrArg (xcProcess _ _) ha).trans (xcProcess_unpack_full _ hj hq)) (by simp), ← ha]

/-- The payload bits behind what waits in `ENC.A`, of at least one byte more. -/
theorem append_bitsOfBytes_ne_nil (hj : j = min q.filled ((8 * na - pa.filled) / 8)) (hpos : 0 < j)
    (hx : x = pa.content ++ Spec.bitsOfBytes oa (q.content.take j)) : x ≠ [] := by
  have hlen : (q.content.take j).length = j := List.length_take_of_le (hj ▸ min_le_left ..)
  rw [hx]
  refine List.ne_nil_of_length_pos ?_
  rw [List.length_append, bitsOfBytes_length]
  omega

variable (flush : Bool) (ha : e.a = ⟨na, .bits oa pa⟩) (hb : e.b = ⟨nb, .bits ob pb⟩) (hc : e.c = ⟨nc, .bits oc pc⟩)
  (hj : j = min q.filled ((8 * na - pa.filled) / 8)) (hpos : 0 < j)
  (hx : x = pa.content ++ Spec.bitsOfBytes oa (q.content.take j)) (hf : f = e.fe.frame x)

include ha hb hj hpos hx hf

theorem x2dEncFront_full_b (hfull : 8 * nb < pb.filled + f.length) :
    x2dEncFront e flush ⟨ni, .bytes q⟩ =
      { code := .needOutputSpace,
        st := { e with xc1 := ⟨flush⟩, xc2 := ⟨flush⟩, a := ⟨na, .bits oa ⟨x, pa.staged.drop (8 * j)⟩⟩ },
        buf := ⟨ni, .bytes ⟨q.content.drop j, []⟩⟩ } := by
  have hne := append_bitsOfBytes_ne_nil hj hpos hx
  subst hx hf
  rw [x2dEncFront_stop_two ((congrArg (xcProcess _ _) ha).trans (xcProcess_unpack_ok _ hj hpos)) rfl
    ((congrArg (frameEncProcess _ _) hb).trans (frameEncProcess_full _ hne hfull)) (by simp), ← hb]

include hc

theorem x2dEncFront_full_c (hroom : pb.filled + f.length ≤ 8 * nb)
    (hr : 0 = min (pb.filled + f.length) ((8 * nc - pc.filled) / 2)) :
    x2dEncFront e flush ⟨ni, .bytes q⟩ =
      { code := .needOutputSpace,
        st := { e with xc1 := ⟨flush⟩, fe := e.fe.emitted, xc2 := ⟨flush⟩, a := ⟨na, .bits oa ⟨[], []⟩⟩,
                       b := ⟨nb, .bits ob (pb.emit f)⟩ },
        buf := ⟨ni, .bytes ⟨q.content.drop j, []⟩⟩ } := by
  have hne := append_bitsOfBytes_ne_nil hj hpos hx
  have hbits : 0 < (pb.emit f).filled := by
    rw [Fifo.emit_filled, hf, FrameEnc.frame_length]
    omega
  subst hx hf
  rw [x2dEncFront_three ((congrArg (xcProcess _ _) ha).trans (xcProcess_unpack_ok _ hj hpos)) rfl
    ((congrArg (frameEncProcess _ _) hb).trans (frameEncProcess_ok _ hne hroom)) rfl
    ((congrArg (bmcEncProcess _ _) hc).trans (bmcEncProcess_full _ (by rwa [Fifo.emit_filled]) hbits)), ← hc]

theorem x2dEncFront_ok (hroom : pb.filled + f.length ≤ 8 * nb)
    (hr : r = min (pb.filled + f.length) ((8 * nc - pc.filled) / 2)) (hrpos : 0 < r)
    (hcells : cells = (pb.content ++ f).take r) :
    x2dEncFront e flush ⟨ni, .bytes q⟩ =
      { code := .ok,
        st := { xc1 := ⟨flush⟩, fe := e.fe.emitted, be := ⟨Spec.linePhase e.be.phase cells⟩, xc2 := ⟨flush⟩,
                a := ⟨na, .bits oa ⟨[], []⟩⟩, b := ⟨nb, .bits ob ⟨(pb.content ++ f).drop r, []⟩⟩,
                c := ⟨nc, .bits oc ⟨pc.content ++ Spec.lineBits e.be.phase cells, pc.staged.drop (2 * r)⟩⟩ },
        buf := ⟨ni, .bytes ⟨q.content.drop j, []⟩⟩ } := by
  have hne := append_bitsOfBytes_ne_nil hj hpos hx
  subst hx hf hcells
  exact x2dEncFront_three ((congrArg (xcProcess _ _) ha).trans (xcProcess_unpack_ok _ hj hpos)) rfl
    ((congrArg (frameEncProcess _ _) hb).trans (frameEncProcess_ok _ hne hroom)) rfl
    ((congrArg (bmcEncProcess _ _) hc).trans (bmcEncProcess_ok _ (by rwa [Fifo.emit_filled]) hrpos))

end EncFront

/-- Settles O43: the first three stages in closed form, and stage 4 into the output or behind what is left of the input. -/
theorem encodePipelineMakesTheLine : Obligations.EncodePipelineMakesTheLine := by
  intro s k inp out ni no na nb nc j r flush e oa ob oc q p pa pb pc f line he ha hb hc hi hj hpos hf hroom hr hrpos hline e'
  have front := x2dEncFront_ok (ni := ni) flush ha hb hc hj hpos rfl hf hroom hr hrpos rfl
  rw [← hline] at front
  refine ⟨fun m hne ho hm hmpos => ?_, fun m hm hmpos => ?_⟩
  · exact exec_x2dEncProcess_of_ne he hi ho hne front rfl (xcProcess_pack_ok _ hm hmpos)
  · exact exec_x2dEncProcess_one he hi front rfl (xcProcess_pack_back _ rfl List.length_drop hm hmpos)

end Sys2Proof.Machine
end

section
/-!
The frame decoder from what it takes before a body to the body's delivery (44_frame_decoder.md R191 to R197), and the
first three stages of X2D_DEC.PROCESS in closed form.
-/
namespace Sys2Proof.Machine

/-! ### The frame decoder's runs -/

section Runs

variable {cap : Nat} {st st' : FdState} {taken rest : List Bit} (g : List (Option Bit)) (o : Fifo Bit)

/-- A step that takes the bits at the head, at least one, leaves the run that starts behind them. -/
theorem fdRun_of_takes (hpos : 0 < taken.length)
    (hstep : fdStep cap st ⟨taken ++ rest, g⟩ o = .goOn st' taken.length) :
    fdRun cap st ⟨taken ++ rest, g⟩ o = fdRun cap st' ⟨rest, []⟩ o := by
  rw [fdRun_of_goOn hstep, Fifo.consume_pos _ hpos, List.drop_left]

theorem fdRun_extraZero (hlen : taken.length = 1) :
    fdRun cap .extraZero ⟨taken ++ rest, g⟩ o = fdRun cap .data ⟨rest, []⟩ o := by
  refine fdRun_of_takes g o (by omega) ?_
  rw [fdStep_extraZero, if_pos (by simp [Fifo.filled, hlen]), hlen]

theorem fdRun_trailing (hlen : taken.length = 7) :
    fdRun cap .trailing ⟨taken ++ rest, g⟩ o = fdRun cap .data ⟨rest, []⟩ o := by
  refine fdRun_of_takes g o (by omega) ?_
  rw [fdStep_trailing, if_pos (by simp [Fifo.filled, hlen]), hlen]

theorem fdRun_leadOnes {n : Nat} (hn : 6 ≤ n) :
    fdRun cap .leadOnes ⟨List.replicate n true ++ ([false] ++ rest), g⟩ o = fdRun cap .data ⟨rest, []⟩ o := by
  refine (fdRun_of_takes g o (st' := .extraZero) (by rw [List.length_replicate]; omega) ?_).trans (fdRun_extraZero [] o rfl)
  rw [fdStep_leadOnes_of_run (confirmedRun_replicate_append (by omega) true rest), if_pos ⟨rfl, hn⟩, List.length_replicate]

theorem fdRun_init {z n : Nat} (hz : 7 ≤ z) (hn : 6 ≤ n) :
    fdRun cap .init ⟨List.replicate z false ++ (List.replicate n true ++ ([false] ++ rest)), g⟩ o =
      fdRun cap .data ⟨rest, []⟩ o := by
  refine (fdRun_of_takes g o (st' := .leadOnes) (by rw [List.length_replicate]; omega) ?_).trans (fdRun_leadOnes [] o hn)
  obtain ⟨n, rfl⟩ : ∃ k, n = k + 1 := ⟨n - 1, by omega⟩
  rw [fdStep_init_of_run (confirmedRun_replicate_append (by omega) false _), if_pos ⟨rfl, hz⟩, List.length_replicate]

/-- From each state the run takes what that state takes before a body, and goes on in DATA. -/
theorem fdRun_of_lead {lead : List Bit} (hlead : Spec.Lead st lead) :
    ∃ g', fdRun cap st ⟨lead ++ rest, g⟩ o = fdRun cap .data ⟨rest, g'⟩ o := by
  cases st with
  | init =>
    obtain ⟨z, n, hz, hn, rfl⟩ := hlead
    rw [List.append_assoc, List.append_assoc]
    exact ⟨[], fdRun_init g o hz hn⟩
  | leadOnes =>
    obtain ⟨n, hn, rfl⟩ := hlead
    rw [List.append_assoc]
    exact ⟨[], fdRun_leadOnes g o hn⟩
  | extraZero => exact ⟨[], fdRun_extraZero g o hlead⟩
  | data =>
    obtain rfl : lead = [] := hlead
    exact ⟨g, rfl⟩
  | trailing => exact ⟨[], fdRun_trailing g o hlead⟩

/-- A return that does nothing leaves both buffers and the state. -/
theorem fdRun_of_waits {i : Fifo Bit} {rc : ResultCode} (h : fdStep cap st i o = .ret (.none rc st)) :
    fdRun cap st i o = { code := rc, st := st, inp := i, out := o } := by
  rw [fdRun_of_ret h, Act.two, Act.none, Fifo.consume_zero, Fifo.emit_nil]

theorem destuff_take_stuff (v rest : List Bit) :
    destuff ((stuff v ++ Config.eofMarker ++ rest).take (stuff v).length) = v := by
  rw [List.append_assoc, List.take_left, destuffInvertsStuff.1]

theorem fdRun_data_of_stuffed {v : List Bit} (hroom : o.filled + v.length ≤ cap) :
    fdRun cap .data ⟨stuff v ++ Config.eofMarker ++ rest, g⟩ o =
      { code := .ok, st := .trailing, inp := ⟨rest, []⟩, out := o.emit v } := by
  have hv := destuff_take_stuff v rest
  rw [fdRun_of_ret (fdStep_data_of_marker (firstMarkerEndsTheBody v rest) (by rwa [hv])), hv, Act.two,
    Fifo.consume_body_eofMarker]

theorem fdRun_data_of_stuffed_full {v : List Bit} (hfull : cap < o.filled + v.length) :
    fdRun cap .data ⟨stuff v ++ Config.eofMarker ++ rest, g⟩ o =
      { code := .needOutputSpace, st := .data, inp := ⟨stuff v ++ Config.eofMarker ++ rest, g⟩, out := o } := by
  have hv := destuff_take_stuff v rest
  exact fdRun_of_waits o (fdStep_data_of_marker_full (firstMarkerEndsTheBody v rest) (by rwa [hv]))

end Runs

/-! ### The first three stages of X2D_DEC.PROCESS -/

section DecFront

variable {d : DecSession} {ni na nb nc j r : Nat} {oa ob oc : BitOrder} {q : Fifo Byte} {pa pb pc : Fifo Bit}
  {u y : List Bit}

theorem x2dDecFront_full_a (flush : Bool) (ha : d.a = ⟨na, .bits oa pa⟩) (hj : 0 = min q.filled ((8 * na - pa.filled) / 8))
    (hq : 0 < q.filled) :
    x2dDecFront d flush ⟨ni, .bytes q⟩ =
      { code := .needOutputSpace, st := { d with xc1 := ⟨flush⟩, xc2 := ⟨flush⟩ }, buf := ⟨ni, .bytes q⟩ } := by
  rw [x2dDecFront_stop_one ((congrArg (xcProcess _ _) ha).trans (xcProcess_unpack_full _ hj hq)) (by simp), ← ha]

variable (flush : Bool) (ha : d.a = ⟨na, .bits oa pa⟩) (hb : d.b = ⟨nb, .bits ob pb⟩) (hc : d.c = ⟨nc, .bits oc pc⟩)
  (hj : j = min q.filled ((8 * na - pa.filled) / 8)) (hpos : 0 < j)
  (hu : u = pa.content ++ Spec.bitsOfBytes oa (q.content.take j))

include ha hb hj hpos hu

theorem x2dDecFront_full_b (hr : 0 = min (u.length / 2) (8 * nb - pb.filled)) :
    x2dDecFront d flush ⟨ni, .bytes q⟩ =
      { code := .needOutputSpace,
        st := { d with xc1 := ⟨flush⟩, xc2 := ⟨flush⟩, a := ⟨na, .bits oa ⟨u, pa.staged.drop (8 * j)⟩⟩ },
        buf := ⟨ni, .bytes ⟨q.content.drop j, []⟩⟩ } := by
  have hlen : (q.content.take j).length = j := List.length_take_of_le (hj ▸ min_le_left ..)
  have hbits : 2 ≤ u.length := by
    rw [hu, List.length_append, bitsOfBytes_length]
    omega
  subst hu
  rw [x2dDecFront_stop_two ((congrArg (xcProcess _ _) ha).trans (xcProcess_unpack_ok _ hj hpos)) rfl
    ((congrArg (bmcDecProcess _) hb).trans (bmcDecProcess_full hr hbits)) (by simp), ← hb]

include hc

/-- Past the first two stages a call does what the frame decoder does on what `DEC.B` then holds. -/
theorem x2dDecFront_of_fdRun (hr : r = min (u.length / 2) (8 * nb - pb.filled)) (hrpos : 0 < r)
    (hy : y = pb.content ++ Spec.dataBits (u.take (2 * r))) {f : FifoResult FdState Bit Bit}
    (hrun : fdRun (8 * nc) d.fd.st ⟨y, pb.staged.drop r⟩ pc = f) :
    x2dDecFront d flush ⟨ni, .bytes q⟩ =
      { code := f.code,
        st := { xc1 := ⟨flush⟩, fd := ⟨f.st⟩, xc2 := ⟨flush⟩, a := ⟨na, .bits oa ⟨u.drop (2 * r), []⟩⟩,
                b := ⟨nb, .bits ob f.inp⟩, c := ⟨nc, .bits oc f.out⟩ },
        buf := ⟨ni, .bytes ⟨q.content.drop j, []⟩⟩ } := by
  subst hu hy hrun
  exact x2dDecFront_three ((congrArg (xcProcess _ _) ha).trans (xcProcess_unpack_ok _ hj hpos)) rfl
    ((congrArg (bmcDecProcess _) hb).trans (bmcDecProcess_ok hr hrpos)) rfl
    ((congrArg (frameDecProcess _ _) hc).trans (frameDecProcess_bits ..))

/-- Where the frame decoder puts nothing out, `DEC.C` stays. -/
theorem x2dDecFront_of_fdRun_silent (hr : r = min (u.length / 2) (8 * nb - pb.filled)) (hrpos : 0 < r)
    (hy : y = pb.content ++ Spec.dataBits (u.take (2 * r))) {rc : ResultCode} {st : FdState} {i : Fifo Bit}
    (hrun : fdRun (8 * nc) d.fd.st ⟨y, pb.staged.drop r⟩ pc = { code := rc, st := st, inp := i, out := pc }) :
    x2dDecFront d flush ⟨ni, .bytes q⟩ =
      { code := rc,
        st := { d with xc1 := ⟨flush⟩, fd := ⟨st⟩, xc2 := ⟨flush⟩, a := ⟨na, .bits oa ⟨u.drop (2 * r), []⟩⟩,
                       b := ⟨nb, .bits ob i⟩ },
        buf := ⟨ni, .bytes ⟨q.content.drop j, []⟩⟩ } := by
  rw [x2dDecFront_of_fdRun flush ha hb hc hj hpos hu hr hrpos hy hrun, ← hc]

theorem x2dDecFront_ok (hr : r = min (u.length / 2) (8 * nb - pb.filled)) (hrpos : 0 < r) {lead v rest : List Bit}
    (hlead : Spec.Lead d.fd.st lead)
    (hy : pb.content ++ Spec.dataBits (u.take (2 * r)) = lead ++ (stuff v ++ Config.eofMarker ++ rest))
    (hroom : pc.filled + v.length ≤ 8 * nc) :
    x2dDecFront d flush ⟨ni, .bytes q⟩ =
      { code := .ok,
        st := { xc1 := ⟨flush⟩, fd := ⟨.trailing⟩, xc2 := ⟨flush⟩, a := ⟨na, .bits oa ⟨u.drop (2 * r), []⟩⟩,
                b := ⟨nb, .bits ob ⟨rest, []⟩⟩, c := ⟨nc, .bits oc (pc.emit v)⟩ },
        buf := ⟨ni, .bytes ⟨q.content.drop j, []⟩⟩ } := by
  obtain ⟨g, hrun⟩ := fdRun_of_lead (rest := stuff v ++ Config.eofMarker ++ rest) (pb.staged.drop r) pc hlead
  exact x2dDecFront_of_fdRun flush ha hb hc hj hpos hu hr hrpos hy.symm (hrun.trans (fdRun_data_of_stuffed g pc hroom))

end DecFront

/-- Settles O44: the frame decoder takes what precedes the body and delivers it, and stage 4 packs it as in O43. -/
theorem decodePipelineRecoversThePayload : Obligations.DecodePipelineRecoversThePayload := by
  intro s k inp out ni no na nb nc j r flush d oa ob oc q p pa pb pc u lead v rest hd ha hb hc hi hj hpos hu hr hrpos hlead
    hy hroom d'
  have front := x2dDecFront_ok (ni := ni) flush ha hb hc hj hpos hu hr hrpos hlead hy hroom
  refine ⟨fun m hne ho hm hmpos => ?_, fun m hm hmpos => ?_, fun payload hpayload => ?_⟩
  · exact exec_x2dDecProcess_of_ne hd hi ho hne front rfl (xcProcess_pack_ok _ hm hmpos)
  · exact exec_x2dDecProcess_one hd hi front rfl (xcProcess_pack_back _ rfl List.length_drop hm hmpos)
  · rw [hpayload, bitsOfBytes_length]
    refine ⟨by simp only [Spec.packedBytes]; split <;> omega, ?_⟩
    simpa using bytesOfBits_bitsOfBytes oc payload []

end Sys2Proof.Machine
end

section
/-!
What each stop of a pipeline call leaves (45_pipeline.md R229, R231; 44_frame_decoder.md R192 to R197).
-/
namespace Sys2Proof.Machine

/-! ### Stage 4 -/

/-- A stage 4 that does nothing leaves what the first three stages have left. -/
theorem exec_x2dEncProcess_stop_four {s : State} {k inp out : Nat} {flush : Bool} {bi bo : BitBuffer} {e : EncSession}
    {f : OneResult EncSession} {rc : ResultCode} (he : s.encs[k]? = some e) (hi : s.bufs[inp]? = some bi)
    (ho : s.bufs[out]? = some bo) (hne : inp ≠ out) (hf : x2dEncFront e flush bi = f) (hok : f.code = .ok)
    (hr : xcProcess f.st.xc2 f.st.c bo = { code := rc, st := f.st.xc2, inp := f.st.c, out := bo }) :
    exec (.x2dEncProcess k inp out flush) s =
      .next { s with encs := s.encs.set k f.st, bufs := s.bufs.set inp f.buf, response := some (.code rc) } := by
  rw [exec_x2dEncProcess_of_ne he hi ho hne hf hok hr, set_of_get ((List.getElem?_set_ne hne).trans ho)]

/-- A stage 4 that does nothing leaves what the first three stages have left. -/
theorem exec_x2dDecProcess_stop_four {s : State} {k inp out : Nat} {flush : Bool} {bi bo : BitBuffer} {d : DecSession}
    {f : OneResult DecSession} {rc : ResultCode} (hd : s.decs[k]? = some d) (hi : s.bufs[inp]? = some bi)
    (ho : s.bufs[out]? = some bo) (hne : inp ≠ out) (hf : x2dDecFront d flush bi = f) (hok : f.code = .ok)
    (hr : xcProcess f.st.xc2 f.st.c bo = { code := rc, st := f.st.xc2, inp := f.st.c, out := bo }) :
    exec (.x2dDecProcess k inp out flush) s =
      .next { s with decs := s.decs.set k f.st, bufs := s.bufs.set inp f.buf, response := some (.code rc) } := by
  rw [exec_x2dDecProcess_of_ne hd hi ho hne hf hok hr, set_of_get ((List.getElem?_set_ne hne).trans ho)]

/-! ### Frame decoders that wait -/

section Waits

variable {cap : Nat} {st : FdState} {y : List Bit} {g : List (Option Bit)}

theorem fdRun_of_run_unconfirmed (hst : st = .init ∨ st = .leadOnes) {n : Nat} {v : Bit} (hy : y = List.replicate n v)
    (o : Fifo Bit) : fdRun cap st ⟨y, g⟩ o = { code := .needInputData, st := st, inp := ⟨y, g⟩, out := o } :=
  fdRun_of_waits o (fdStep_of_no_run hst (hy ▸ confirmedRun_replicate n v) o)

theorem fdRun_trailing_few (hy : y.length < 7) (o : Fifo Bit) :
    fdRun cap .trailing ⟨y, g⟩ o = { code := .needInputData, st := .trailing, inp := ⟨y, g⟩, out := o } :=
  fdRun_of_waits o ((fdStep_trailing ..).trans (if_neg hy.not_ge))

variable (hno : ¬ Config.eofMarker <:+: y)

include hno

theorem fdRun_data_waits (hy : y.length < 128) (o : Fifo Bit) :
    fdRun cap .data ⟨y, g⟩ o = { code := .needInputData, st := .data, inp := ⟨y, g⟩, out := o } :=
  fdRun_of_waits o ((fdStep_data_of_no_marker (findMarker_of_not_infix hno) o).trans (congrArg _ (if_neg hy.not_ge)))

theorem fdRun_data_discards (hy : 128 ≤ y.length) (o : Fifo Bit) :
    fdRun cap .data ⟨y, g⟩ o = { code := .needInputData, st := .init, inp := ⟨[], []⟩, out := o } := by
  have hne : y ≠ [] := List.length_pos_iff.mp (by omega)
  have hstep := (fdStep_data_of_no_marker (cap := cap) (i := ⟨y, g⟩) (findMarker_of_not_infix hno) o).trans
    (congrArg _ (if_pos hy))
  rw [fdRun_of_ret hstep, Act.two, Fifo.consume_filled_of_ne_nil hne, Fifo.emit_nil]

end Waits

/-- Settles O46: the row of stages on a bench, and for each stop the stage at which the call ends. -/
theorem emptyInputStopsAtStageOne : Obligations.EmptyInputStopsAtStageOne := by
  refine ⟨?_, ?_, ?_, ?_⟩
  · intro s k inp out flush bi bo hi ho last ends
    refine ⟨fun e he => ?_, fun d hd => ?_⟩
    · obtain ⟨e', bi', bo', rc, hrow, hcall⟩ := exec_x2dEncProcess_eq_row flush he hi ho
      exact ⟨_, e', bi', bo', hrow, rfl, rfl, rfl, rfl, hcall⟩
    · obtain ⟨d', bi', bo', rc, hrow, hcall⟩ := exec_x2dDecProcess_eq_row flush hd hi ho
      exact ⟨_, d', bi', bo', hrow, rfl, rfl, rfl, hcall⟩
  · intro s k inp out ni flush g B hi ho
    refine ⟨fun e he ha => ?_, fun d hd ha => ?_⟩
    · rw [exec_x2dEncProcess_stop he hi ho (x2dEncFront_stop_one (xcProcess_empty _ g ha) (by simp)) (by simp),
        set_of_get hi]
    · rw [exec_x2dDecProcess_stop hd hi ho (x2dDecFront_stop_one (xcProcess_empty _ g ha) (by simp)) (by simp),
        set_of_get hi]
  · intro s k inp out ni no na nb nc j r flush e oa ob oc q p pa pb pc B x f line he ha hb hc hi ho hj hx hf hr hline stops
      taken e3 e4
    refine ⟨fun hq h0 => ?_, fun hpos hfull => ?_, fun hpos hroom h0 => ?_, fun hpos hroom hrpos hne hB => ?_⟩
    -- `ENC.A` is full
    · have hcall := exec_x2dEncProcess_stop he hi ho (x2dEncFront_full_a flush ha (h0 ▸ hj) hq) (by simp)
      rwa [set_of_get hi] at hcall
    -- the frame does not fit `ENC.B`
    · exact exec_x2dEncProcess_stop he hi ho (x2dEncFront_full_b flush ha hb hj hpos hx hf hfull) (by simp)
    -- `ENC.C` is full
    · exact exec_x2dEncProcess_stop he hi ho (x2dEncFront_full_c flush ha hb hc hj hpos hx hf hroom (h0 ▸ hr)) (by simp)
    -- too few line bits, or a full output
    · have front := x2dEncFront_ok (ni := ni) flush ha hb hc hj hpos hx hf hroom hr hrpos rfl
      rw [← hline] at front
      subst hB
      exact ⟨fun hfew => exec_x2dEncProcess_stop_four he hi ho hne front rfl (xcProcess_pack_few _ hfew),
        fun hsome hfull => exec_x2dEncProcess_stop_four he hi ho hne front rfl (xcProcess_pack_full _ hsome hfull)⟩
  · intro s k inp out ni no na nb nc j r flush d oa ob oc q p pa pb pc B u y hd ha hb hc hi ho hj hu hr hy stops taken d3
    have stop := fun {rc st i} hpos hrpos hrun (hrc : rc ≠ .ok) => exec_x2dDecProcess_stop hd hi ho
      (x2dDecFront_of_fdRun_silent (ni := ni) (rc := rc) (st := st) (i := i) flush ha hb hc hj hpos hu hr hrpos hy hrun) hrc
    refine ⟨fun hq h0 => ?_, fun hpos h0 => ?_, fun hpos hrpos hst hone => ?_, fun hpos hrpos hst hfew => ?_,
      fun hpos hrpos hst hno => ⟨fun hfew => ?_, fun hmany => ?_⟩, fun v rest hpos hrpos hst hv hfull => ?_,
      fun lead v rest hpos hrpos hlead hv hroom hne hB => ?_⟩
    -- `DEC.A` is full
    · have hcall := exec_x2dDecProcess_stop hd hi ho (x2dDecFront_full_a flush ha (h0 ▸ hj) hq) (by simp)
      rwa [set_of_get hi] at hcall
    -- `DEC.B` is full
    · exact exec_x2dDecProcess_stop hd hi ho (x2dDecFront_full_b flush ha hb hj hpos hu (h0 ▸ hr)) (by simp)
    -- a run that is not confirmed
    · obtain ⟨n, v, hone⟩ := hone
      exact stop hpos hrpos (fdRun_of_run_unconfirmed hst hone _) nofun
    -- a separator that is not whole
    · exact stop hpos hrpos (hst ▸ fdRun_trailing_few hfew _) nofun
    -- no marker, below the watchdog's bound and from it on
    · exact stop hpos hrpos (hst ▸ fdRun_data_waits hno hfew _) nofun
    · exact stop hpos hrpos (hst ▸ fdRun_data_discards hno hmany _) nofun
    -- the payload does not fit `DEC.C`
    · subst hv
      exact stop hpos hrpos (hst ▸ fdRun_data_of_stuffed_full _ _ hfull) nofun
    -- too few payload bits, or a full output
    · have front := x2dDecFront_ok (ni := ni) flush ha hb hc hj hpos hu hr hrpos hlead (hy ▸ hv) hroom
      subst hB
      exact ⟨fun hfew => exec_x2dDecProcess_stop_four hd hi ho hne front rfl (xcProcess_pack_few _ hfew),
        fun hsome hfull => exec_x2dDecProcess_stop_four hd hi ho hne front rfl (xcProcess_pack_full _ hsome hfull)⟩

end Sys2Proof.Machine
end

section
/-!
The round trip of a message through both pipelines (45_pipeline.md R230, R232).
-/
namespace Sys2Proof.Machine

/-! ### Bits through whole bytes, data through a padded line -/

/-- The bits of enough bytes packed of some bits begin with these. -/
theorem prefix_bitsOfBytes_bytesOfBits (order : BitOrder) {k : Nat} {bs : List Bit} (hk : bs.length ≤ 8 * k) :
    bs <+: Spec.bitsOfBytes order (Spec.bytesOfBits order k bs) := by
  rw [List.prefix_iff_getElem?]
  intro i hi
  have hsplit : 8 * (i / 8) + i % 8 = i := Nat.div_add_mod i 8
  have hj : i % 8 < 8 := Nat.mod_lt i (by decide)
  have hget := bitsOfBytes_getElem? order (Spec.bytesOfBits order k bs) (i / 8) hj
  rw [bytesOfBits_getElem?_map order bs (by omega) hj, hsplit] at hget
  rw [hget, List.getD_eq_getElem _ _ hi]

theorem Spec.dataBits_lineBits_append (p : Bit) (bs t : List Bit) :
    Spec.dataBits (Spec.lineBits p bs ++ t) = bs ++ Spec.dataBits t := by
  induction bs generalizing p with
  | nil => rfl
  | cons b bs ih => simp [Spec.lineBits, Spec.dataBits, ih]

theorem BitBuffer.cleared_of_order {B : BitBuffer} {n : Nat} {order : BitOrder} (hn : B.nbytes = n)
    (ho : B.order? = some order) : B.cleared = ⟨n, .bits order ⟨[], []⟩⟩ := by
  subst hn
  obtain ⟨n, _ | ⟨o, q⟩ | _⟩ := B <;> cases ho
  rfl

theorem FrameEnc.frame_reset (x : FrameEnc) (bs : List Bit) :
    x.reset.frame bs = x.preamble ++ (stuff bs ++ Config.eofMarker ++ Config.sepMarker) := by
  have howed : x.reset.preambleEmitted = false := rfl
  simp only [FrameEnc.frame, howed, Bool.false_eq_true, if_false, List.append_assoc]
  rfl

/-! ### A whole message through an empty session -/

section Message

variable {s : State} {cap nl : Nat} {order : BitOrder} {payload : List Byte}

/-- A whole message into an empty encode session with room for its line: the line's bytes go out. -/
theorem exec_x2dEncProcess_message {k msg line nm : Nat} {e : EncSession} {f : List Bit} {sm sl : List (Option Byte)}
    (he : s.encs[k]? = some e) (ha : e.a = ⟨cap, .bits order ⟨[], []⟩⟩) (hb : e.b = ⟨cap, .bits .lsb ⟨[], []⟩⟩)
    (hc : e.c = ⟨cap, .bits .msb ⟨[], []⟩⟩) (hne : msg ≠ line) (hmsg : s.bufs[msg]? = some ⟨nm, .bytes ⟨payload, sm⟩⟩)
    (hline : s.bufs[line]? = some ⟨nl, .bytes ⟨[], sl⟩⟩) (hpay : 0 < payload.length) (hcap : payload.length ≤ cap)
    (hf : f = e.fe.frame (Spec.bitsOfBytes order payload)) (hfit : f.length ≤ 4 * cap) (hroom : cap ≤ nl) :
    ∃ t g, exec (.x2dEncProcess k msg line true) s = .next t ∧ t.response = some (.code .ok) ∧ t.decs = s.decs ∧
      t.bufs[line]? = some ⟨nl, .bytes ⟨Spec.bytesOfBits .msb ((2 * f.length + 7) / 8) (Spec.lineBits e.be.phase f), g⟩⟩ ∧
      ∀ b, msg ≠ b → line ≠ b → t.bufs[b]? = s.bufs[b]? := by
  have hflen : 16 ≤ f.length := by
    rw [hf, FrameEnc.frame_length]
    omega
  have hj : payload.length = min (Fifo.filled ⟨payload, sm⟩) ((8 * cap - Fifo.filled (α := Bit) ⟨[], []⟩) / 8) := by
    change _ = min payload.length ((8 * cap - 0) / 8)
    omega
  have hr : f.length =
      min (Fifo.filled (α := Bit) ⟨[], []⟩ + f.length) ((8 * cap - Fifo.filled (α := Bit) ⟨[], []⟩) / 2) := by
    change _ = min (0 + f.length) ((8 * cap - 0) / 2)
    omega
  have hroomB : Fifo.filled (α := Bit) ⟨[], []⟩ + f.length ≤ 8 * cap := by
    change 0 + f.length ≤ _
    omega
  have hm : (2 * f.length + 7) / 8 =
      min (Spec.packedBytes true (Spec.lineBits e.be.phase f).length) (nl - Fifo.filled (α := Byte) ⟨[], sl⟩) := by
    rw [Spec.lineBits_length]
    change _ = min ((2 * f.length + 7) / 8) (nl - 0)
    omega
  have hcall := (encodePipelineMakesTheLine s k msg line nm nl cap cap cap payload.length f.length true e order .lsb .msb
    ⟨payload, sm⟩ ⟨[], sl⟩ ⟨[], []⟩ ⟨[], []⟩ ⟨[], []⟩ f (Spec.lineBits e.be.phase f) he ha hb hc hmsg hj hpay
    (by rw [List.take_length]; exact hf) hroomB hr (by omega)
    (by rw [List.nil_append, List.nil_append, List.take_length])).1 _ hne hline hm (by omega)
  refine ⟨_, _, hcall, rfl, rfl, getElem?_set_set_of_some hline hne _ _, fun b hmb hlb => ?_⟩
  rw [List.getElem?_set_ne hlb, List.getElem?_set_ne hmb]

/-- The bytes of a frame's line into an empty decode session with room for it: the message comes out. -/
theorem exec_x2dDecProcess_message {k line got ng m : Nat} {flush : Bool} {d : DecSession} {p : Bit} {f lead rest : List Bit}
    {sl sg : List (Option Byte)} (hd : s.decs[k]? = some d) (ha : d.a = ⟨cap, .bits .msb ⟨[], []⟩⟩)
    (hb : d.b = ⟨cap, .bits .lsb ⟨[], []⟩⟩) (hc : d.c = ⟨cap, .bits order ⟨[], []⟩⟩) (hne : line ≠ got)
    (hline : s.bufs[line]? = some ⟨nl, .bytes ⟨Spec.bytesOfBits .msb m (Spec.lineBits p f), sl⟩⟩)
    (hgot : s.bufs[got]? = some ⟨ng, .bytes ⟨[], sg⟩⟩) (hpos : 0 < m) (hm : 2 * f.length ≤ 8 * m) (hmcap : m ≤ cap)
    (hlead : Spec.Lead d.fd.st lead) (hf : f = lead ++ (stuff (Spec.bitsOfBytes order payload) ++ Config.eofMarker ++ rest))
    (hpay : 0 < payload.length) (hcap : payload.length ≤ cap) (hroom : payload.length ≤ ng) :
    ∃ t, exec (.x2dDecProcess k line got flush) s = .next t ∧ t.response = some (.code .ok) ∧
      t.bufs[got]?.bind BitBuffer.bytes? = some payload := by
  obtain ⟨pad, hpad⟩ := prefix_bitsOfBytes_bytesOfBits .msb (k := m) (bs := Spec.lineBits p f)
    (by rwa [Spec.lineBits_length])
  have hlen : (Spec.bytesOfBits .msb m (Spec.lineBits p f)).length = m := Spec.bytesOfBits_length ..
  generalize Spec.bytesOfBits .msb m (Spec.lineBits p f) = L at hline hpad hlen
  have hbits : (Spec.bitsOfBytes .msb L).length = 8 * m := by rw [bitsOfBytes_length, hlen]
  have hdata : Spec.dataBits (Spec.bitsOfBytes .msb L) =
      lead ++ (stuff (Spec.bitsOfBytes order payload) ++ Config.eofMarker ++ (rest ++ Spec.dataBits pad)) := by
    rw [← hpad, Spec.dataBits_lineBits_append, hf]
    simp only [List.append_assoc]
  have hj : m = min (Fifo.filled ⟨L, sl⟩) ((8 * cap - Fifo.filled (α := Bit) ⟨[], []⟩) / 8) := by
    change m = min L.length ((8 * cap - 0) / 8)
    omega
  have hr : 4 * m = min ((Spec.bitsOfBytes .msb L).length / 2) (8 * cap - Fifo.filled (α := Bit) ⟨[], []⟩) := by
    change _ = min _ (8 * cap - 0)
    omega
  have hroomC : Fifo.filled (α := Bit) ⟨[], []⟩ + (Spec.bitsOfBytes order payload).length ≤ 8 * cap := by
    rw [bitsOfBytes_length]
    change 0 + 8 * payload.length ≤ _
    omega
  obtain ⟨hcall, -, hback⟩ := decodePipelineRecoversThePayload s k line got nl ng cap cap cap m (4 * m) flush d .msb
    .lsb order ⟨L, sl⟩ ⟨[], sg⟩ ⟨[], []⟩ ⟨[], []⟩ ⟨[], []⟩ (Spec.bitsOfBytes .msb L) lead (Spec.bitsOfBytes order payload)
    (rest ++ Spec.dataBits pad) hd ha hb hc hline hj hpos (by rw [List.nil_append, ← hlen, List.take_length]) hr (by omega)
    hlead (by rw [List.nil_append, List.take_of_length_le (by omega), hdata]) hroomC
  obtain ⟨hcount, hbytes⟩ := hback payload rfl
  have hm2 : payload.length = min (Spec.packedBytes flush (Spec.bitsOfBytes order payload).length)
      (ng - Fifo.filled (α := Byte) ⟨[], sg⟩) := by
    rw [← List.nil_append (Spec.bitsOfBytes order payload), hcount]
    change _ = min payload.length (ng - 0)
    omega
  refine ⟨_, hcall payload.length hne hgot hm2 hpay, rfl, ?_⟩
  rw [getElem?_set_set_of_some hgot hne, hbytes]
  rfl

end Message

/-- Settles O45: the message goes through a session just reset, its line through another, which finds its frame again. -/
theorem pipelineRoundTrip : Obligations.PipelineRoundTrip := by
  intro s k j msg line got nm nl ng cap e d order payload sm sl sg he hd hea heb hec hda hdb hdc oea oeb oec oda odb odc
    hml hlg hmg hmsg hline hgot hne hng hnl hz ho hfit
  have hpay : 0 < payload.length := List.length_pos_of_ne_nil hne
  have hstuff : (Spec.bitsOfBytes order payload).length ≤ (stuff (Spec.bitsOfBytes order payload)).length :=
    (stuffFrom_length_bounds (Nat.succ_pos 4) _).1
  rw [bitsOfBytes_length] at hstuff
  obtain ⟨f, hf⟩ : ∃ f, f = e.reset.fe.frame (Spec.bitsOfBytes order payload) := ⟨_, rfl⟩
  have hflen : f.length = e.fe.z.toNat + e.fe.o.toNat + 1 + (stuff (Spec.bitsOfBytes order payload)).length + 16 := by
    rw [hf]
    exact FrameEnc.frame_length ..
  obtain ⟨t2, g, henc, hok, hdecs, hline2, hothers⟩ := exec_x2dEncProcess_message
    (s := { s with encs := s.encs.set k e.reset, response := some (.code .reset) }) (getElem?_set_of_some he _)
    (BitBuffer.cleared_of_order hea oea) (BitBuffer.cleared_of_order heb oeb) (BitBuffer.cleared_of_order hec oec) hml hmsg
    hline hpay (by omega) hf (by omega) hnl
  have hd2 : t2.decs[j]? = some d := hdecs ▸ hd
  obtain ⟨t4, hdec, hok4, hback⟩ := exec_x2dDecProcess_message (flush := true)
    (s := { t2 with decs := t2.decs.set j d.reset, response := some (.code .reset) }) (getElem?_set_of_some hd2 _)
    (BitBuffer.cleared_of_order hda oda) (BitBuffer.cleared_of_order hdb odb) (BitBuffer.cleared_of_order hdc odc) hlg hline2
    ((hothers got hmg hlg).trans hgot) (by omega) (by omega) (by omega) ⟨_, _, hz, ho, rfl⟩
    (hf.trans (FrameEnc.frame_reset ..)) hpay (by omega) hng
  exact ⟨_, t2, _, t4, exec_x2dEncReset he, henc, hok, exec_x2dDecReset hd2, hdec, hok4, hback⟩

end Sys2Proof.Machine
end

section
/-!
A PROCESS on a unit or session and on buffers that exist always answers a next state with a result code
(60_exceptions.md R240, R243).
-/
namespace Sys2Proof.Machine

section Process

variable {σ υ : Type} {s : State} {inp out k : Nat} {save : State → σ → State}

theorem State.process_completes {two : BitBuffer → BitBuffer → StageResult σ} {one : BitBuffer → Option (OneResult σ)}
    (hi : inp < s.bufs.length) (ho : out < s.bufs.length) (hone : inp = out → ∀ b, (one b).isSome = true) :
    ∃ t rc, s.process inp out two one save = .next t ∧ t.response = some (.code rc) := by
  have hbi := List.getElem?_eq_getElem hi
  by_cases hne : inp = out
  · subst hne
    obtain ⟨r, hr⟩ := Option.isSome_iff_exists.mp (hone rfl s.bufs[inp])
    exact ⟨_, _, State.process_of_eq hbi hr, rfl⟩
  · exact ⟨_, _, State.process_of_ne hbi (List.getElem?_eq_getElem ho) hne, rfl⟩

/-- The same where the stage is run from the unit or session that a reference names. -/
theorem withUnit_process_completes {units : List υ} {two : υ → BitBuffer → BitBuffer → StageResult σ}
    {one : υ → BitBuffer → Option (OneResult σ)} (hk : k < units.length) (hi : inp < s.bufs.length)
    (ho : out < s.bufs.length) (hone : inp = out → ∀ u b, (one u b).isSome = true) :
    ∃ t rc, withUnit units k (fun u => s.process inp out (two u) (one u) save) = .next t ∧
      t.response = some (.code rc) := by
  rw [withUnit_of_get (List.getElem?_eq_getElem hk)]
  exact State.process_completes hi ho fun he => hone he _

end Process

/-- Settles O49: on one buffer every stage but the transcoder ends, and a pipeline runs its transcoders on two. -/
theorem processAlwaysCompletes : Obligations.ProcessAlwaysCompletes := fun _ _ _ _ _ hi ho =>
  ⟨fun hk hne => withUnit_process_completes hk hi ho fun he => absurd he hne,
    fun hk => withUnit_process_completes hk hi ho fun _ => bmcEncOne_isSome,
    State.process_completes (save := fun s' _ => s') hi ho fun _ => bmcDecOne_isSome,
    fun hk => withUnit_process_completes hk hi ho fun _ => frameEncOne_isSome,
    fun hk => withUnit_process_completes hk hi ho fun _ => frameDecOne_isSome,
    fun hk => withUnit_process_completes hk hi ho fun _ _ _ => rfl,
    fun hk => withUnit_process_completes hk hi ho fun _ _ _ => rfl⟩

end Sys2Proof.Machine
end

section
/-!
A looping stage whose first step is blocked says so and changes nothing (41_bitwidth_converter.md R135,
60_exceptions.md R242).
-/
namespace Sys2Proof.Machine

variable {σ α β : Type}

/-! ### Where a step is blocked -/

/-- What is answered, or blocks a step, in want of input, and with enough of it in want of room (60_exceptions.md R242,
R244). -/
def InputThenOutput (few enough full : Prop) (answer : ResultCode → Prop) : Prop :=
  (few → answer .needInputData) ∧ (enough → full → answer .needOutputSpace)

theorem InputThenOutput.imp {few enough full : Prop} {A B : ResultCode → Prop} (h : InputThenOutput few enough full A)
    (hAB : ∀ {rc}, A rc → B rc) : InputThenOutput few enough full B :=
  ⟨fun hfew => hAB (h.1 hfew), fun henough hfull => hAB (h.2 henough hfull)⟩

theorem Fifo.not_hasSpace {q : Fifo α} {cap n : Nat} (h : cap < q.filled + n) : ¬ q.hasSpace cap 0 n = true :=
  mt (q.hasSpace_iff cap 0 n).mp h.not_ge

theorem Fifo.exists_read?_of_lt {q : Fifo α} {off : Nat} (h : off < q.filled) : ∃ u, q.read? off = some u :=
  ⟨_, List.getElem?_eq_getElem h⟩

theorem copyStep_blocks (cap : Nat) (st : σ) (i o : Fifo α) :
    InputThenOutput (i.filled = 0) (0 < i.filled) (cap ≤ o.filled) (copyStep cap st i o = .blocked ·) := by
  refine ⟨fun hfew => ?_, fun henough hfull => ?_⟩
  · rw [copyStep, Fifo.read?_eq_none hfew.le]
  · obtain ⟨u, hu⟩ := Fifo.exists_read?_of_lt henough
    rw [copyStep, hu]
    exact if_neg (Fifo.not_hasSpace (Nat.lt_succ_of_le hfull))

theorem packStep_blocks (order : BitOrder) (cap : Nat) (x : Xc) (i : Fifo Bit) (o : Fifo Byte) :
    InputThenOutput (i.filled < if x.flush then 1 else 8) ((if x.flush then 1 else 8) ≤ i.filled) (cap ≤ o.filled)
      (packStep order cap x i o = .blocked ·) := by
  refine ⟨fun hfew => if_neg fun hle => ?_, fun henough hfull => (if_pos ?_).trans (if_neg ?_)⟩
  · exact hfew.not_ge (hle.trans (min_le_right ..))
  · exact le_min (by split <;> decide) henough
  · exact Fifo.not_hasSpace (Nat.lt_succ_of_le hfull)

theorem unpackStep_blocks (order : BitOrder) (cap : Nat) (st : σ) (i : Fifo Byte) (o : Fifo Bit) :
    InputThenOutput (i.filled = 0) (0 < i.filled) (cap < o.filled + 8) (unpackStep order cap st i o = .blocked ·) := by
  refine ⟨fun hfew => ?_, fun henough hfull => ?_⟩
  · rw [unpackStep, Fifo.read?_eq_none hfew.le]
  · obtain ⟨v, hv⟩ := Fifo.exists_read?_of_lt henough
    rw [unpackStep, hv]
    exact if_neg (Fifo.not_hasSpace hfull)

theorem bmcEncStep_blocks (cap : Nat) (be : BiphaseEnc) (i o : Fifo Bit) :
    InputThenOutput (i.filled = 0) (0 < i.filled) (cap < o.filled + 2) (bmcEncStep cap be i o = .blocked ·) := by
  refine ⟨fun hfew => ?_, fun henough hfull => ?_⟩
  · rw [bmcEncStep, Fifo.read?_eq_none hfew.le]
  · obtain ⟨b, hb⟩ := Fifo.exists_read?_of_lt henough
    rw [bmcEncStep, hb]
    exact if_neg (Fifo.not_hasSpace hfull)

theorem bmcDecStep_blocks (cap : Nat) (i o : Fifo Bit) :
    InputThenOutput (i.filled < 2) (2 ≤ i.filled) (cap ≤ o.filled) (bmcDecStep cap () i o = .blocked ·) := by
  refine ⟨fun hfew => ?_, fun henough hfull => ?_⟩
  · simp only [bmcDecStep, Fifo.read?_eq_none (q := i) (off := 1) (Nat.le_of_lt_succ hfew)]
    cases i.read? 0 <;> rfl
  · obtain ⟨h0, hr0⟩ := Fifo.exists_read?_of_lt (Nat.lt_of_lt_of_le Nat.zero_lt_two henough)
    obtain ⟨h1, hr1⟩ := Fifo.exists_read?_of_lt henough
    rw [bmcDecStep, hr0, hr1]
    exact if_neg (Fifo.not_hasSpace (Nat.lt_succ_of_le hfull))

/-! ### Loops blocked at once -/

theorem runLoop_of_blocked {try1 : σ → Fifo α → Fifo β → StepTry σ β} {st : σ} {i : Fifo α} {o : Fifo β}
    {rc : ResultCode} (h : try1 st i o = .blocked rc) :
    runLoop try1 st i o = { code := rc, st := st, inp := i, out := o } := loopSteps_blocked h

theorem runOne_of_blocked {try1 : σ → Fifo α → Fifo α → StepTry σ α} {st : σ} {q : Fifo α} {rc : ResultCode}
    (h : try1 st q q = .blocked rc) (cap : Nat) :
    runOne try1 cap st q = some { code := rc, st := st, buf := q } := loopOne_blocked h

/-! ### Transactions that change nothing -/

/-- A stage that gives everything back as it was changes nothing but the response, on two buffers or on one. -/
theorem State.process_unchanged {s : State} {inp out : Nat} {two : BitBuffer → BitBuffer → StageResult σ}
    {one : BitBuffer → Option (OneResult σ)} {save : State → σ → State} {st : σ} {i o : BitBuffer} {rc : ResultCode}
    (hsave : save s st = s) (hi : s.bufs[inp]? = some i) (ho : s.bufs[out]? = some o)
    (htwo : inp ≠ out → two i o = { code := rc, st := st, inp := i, out := o })
    (hone : inp = out → i = o → one i = some { code := rc, st := st, buf := i }) :
    s.process inp out two one save = .next (s.respond (.code rc)) := by
  by_cases hne : inp = out
  · subst hne
    have hio : i = o := Option.some.inj (hi.symm.trans ho)
    rw [State.process_of_eq hi (hone rfl hio), hsave, State.putBuf_of_get hi]
  · rw [State.process_of_ne hi ho hne, htwo hne, hsave, State.putBuf_of_get hi, State.putBuf_of_get ho]

section Blocked

variable {s : State} {k inp out ni no : Nat} {oi oo : BitOrder} {qb rb : Fifo Bit} {qy ry : Fifo Byte}
  {rc : ResultCode}

theorem exec_xcProcess_bits_bits_blocked {u : Xc} (hu : s.xcs[k]? = some u) (hi : s.bufs[inp]? = some ⟨ni, .bits oi qb⟩)
    (ho : s.bufs[out]? = some ⟨no, .bits oo rb⟩) (h : copyStep (8 * no) u qb rb = .blocked rc) :
    exec (.xcProcess k inp out) s = .next (s.respond (.code rc)) := by
  refine (withUnit_of_get hu).trans (State.process_unchanged (State.putXc_of_get hu) hi ho (fun _ => ?_) ?_)
  · simp only [xcProcess, BitBuffer.capacity, runLoop_of_blocked h]
  · rintro - ⟨⟩
    simp only [xcOne, BitBuffer.capacity, runOne_of_blocked h, Option.map_some]

theorem exec_xcProcess_bytes_bytes_blocked {u : Xc} (hu : s.xcs[k]? = some u) (hi : s.bufs[inp]? = some ⟨ni, .bytes qy⟩)
    (ho : s.bufs[out]? = some ⟨no, .bytes ry⟩) (h : copyStep no u qy ry = .blocked rc) :
    exec (.xcProcess k inp out) s = .next (s.respond (.code rc)) := by
  refine (withUnit_of_get hu).trans (State.process_unchanged (State.putXc_of_get hu) hi ho (fun _ => ?_) ?_)
  · simp only [xcProcess, BitBuffer.capacity, runLoop_of_blocked h]
  · rintro - ⟨⟩
    simp only [xcOne, BitBuffer.capacity, runOne_of_blocked h, Option.map_some]

theorem exec_xcProcess_bits_bytes_blocked {u : Xc} (hu : s.xcs[k]? = some u)
    (hi : s.bufs[inp]? = some ⟨ni, .bits oi qb⟩) (ho : s.bufs[out]? = some ⟨no, .bytes ry⟩)
    (h : packStep oi no u qb ry = .blocked rc) :
    exec (.xcProcess k inp out) s = .next (s.respond (.code rc)) := by
  refine (withUnit_of_get hu).trans (State.process_unchanged (State.putXc_of_get hu) hi ho (fun _ => ?_) nofun)
  simp only [xcProcess, BitBuffer.capacity, runLoop_of_blocked h]

theorem exec_xcProcess_bytes_bits_blocked {u : Xc} (hu : s.xcs[k]? = some u) (hi : s.bufs[inp]? = some ⟨ni, .bytes qy⟩)
    (ho : s.bufs[out]? = some ⟨no, .bits oo rb⟩) (h : unpackStep oo (8 * no) u qy rb = .blocked rc) :
    exec (.xcProcess k inp out) s = .next (s.respond (.code rc)) := by
  refine (withUnit_of_get hu).trans (State.process_unchanged (State.putXc_of_get hu) hi ho (fun _ => ?_) nofun)
  simp only [xcProcess, BitBuffer.capacity, runLoop_of_blocked h]

variable (hi : s.bufs[inp]? = some ⟨ni, .bits oi qb⟩) (ho : s.bufs[out]? = some ⟨no, .bits oo rb⟩)

include hi ho

theorem exec_bmcEncProcess_blocked {be : BiphaseEnc} (hbe : s.bes[k]? = some be)
    (h : bmcEncStep (8 * no) be qb rb = .blocked rc) :
    exec (.bmcEncProcess k inp out) s = .next (s.respond (.code rc)) := by
  refine (withUnit_of_get hbe).trans (State.process_unchanged (State.putBe_of_get hbe) hi ho (fun _ => ?_) ?_)
  · simp only [bmcEncProcess, onBits, BitBuffer.capacity, runLoop_of_blocked h]
  · rintro - ⟨⟩
    simp only [bmcEncOne, onOneBits, BitBuffer.capacity, runOne_of_blocked h, Option.map_some]

theorem exec_bmcDecProcess_blocked (h : bmcDecStep (8 * no) () qb rb = .blocked rc) :
    exec (.bmcDecProcess inp out) s = .next (s.respond (.code rc)) := by
  refine State.process_unchanged (save := fun s' _ => s') (st := ()) rfl hi ho (fun _ => ?_) ?_
  · simp only [bmcDecProcess, onBits, BitBuffer.capacity, runLoop_of_blocked h]
  · rintro - ⟨⟩
    simp only [bmcDecOne, onOneBits, BitBuffer.capacity, runOne_of_blocked h, Option.map_some]

end Blocked

/-- Settles O48: in each case the first step is blocked, in want of input before it is in want of room. -/
theorem transientCodesOfLoopingStages : Obligations.TransientCodesOfLoopingStages := by
  intro s k inp out ni no oi oo qb rb qy ry answers
  refine ⟨fun u hu => ⟨fun hi ho => ?_, fun hi ho => ?_, fun hi ho => ?_, fun hi ho => ?_⟩, fun hi ho hk => ?_,
    fun hi ho => ?_⟩
  · exact (copyStep_blocks ..).imp (exec_xcProcess_bits_bits_blocked hu hi ho)
  · exact (copyStep_blocks ..).imp (exec_xcProcess_bytes_bytes_blocked hu hi ho)
  · exact (packStep_blocks ..).imp (exec_xcProcess_bits_bytes_blocked hu hi ho)
  · exact (unpackStep_blocks ..).imp (exec_xcProcess_bytes_bits_blocked hu hi ho)
  · exact (bmcEncStep_blocks ..).imp (exec_bmcEncProcess_blocked hi ho (List.getElem?_eq_getElem hk))
  · exact (bmcDecStep_blocks ..).imp (exec_bmcDecProcess_blocked hi ho)

end Sys2Proof.Machine
end

section
/-!
What a stage does that does not answer OK: it gives everything back as it was (60_exceptions.md R242, R244), but for the
frame decoder, which may have gone on to where it waits (44_frame_decoder.md R191, R195).
-/
namespace Sys2Proof.Machine

variable {σ α β : Type}

/-! ### Looping stages: OK, or nothing done -/

/-- What blocks a looping stage's step is never the code of a RESET. -/
def StepNeverResets (try1 : σ → Fifo α → Fifo β → StepTry σ β) : Prop :=
  ∀ st i o, try1 st i o ≠ .blocked .reset

theorem copyStep_neverResets (cap : Nat) :
    StepNeverResets (copyStep cap : σ → Fifo α → Fifo α → StepTry σ α) := by
  intro st i o
  unfold copyStep
  split
  · exact nofun
  · split <;> exact nofun

theorem packStep_neverResets (order : BitOrder) (cap : Nat) : StepNeverResets (packStep order cap) := by
  intro x i o
  simp only [packStep]
  by_cases hk : (if x.flush then 1 else 8) ≤ min 8 i.filled
  · rw [if_pos hk]
    split <;> exact nofun
  · rw [if_neg hk]
    exact nofun

theorem unpackStep_neverResets (order : BitOrder) (cap : Nat) :
    StepNeverResets (unpackStep order cap : σ → Fifo Byte → Fifo Bit → StepTry σ Bit) := by
  intro st i o
  unfold unpackStep
  split
  · exact nofun
  · split <;> exact nofun

theorem bmcEncStep_neverResets (cap : Nat) : StepNeverResets (bmcEncStep cap) := by
  intro be i o
  unfold bmcEncStep
  split
  · exact nofun
  · split <;> exact nofun

theorem bmcDecStep_neverResets (cap : Nat) : StepNeverResets (bmcDecStep cap) := by
  intro st i o
  unfold bmcDecStep
  split
  · split <;> exact nofun
  · exact nofun

theorem loopSteps_code_of_progress (try1 : σ → Fifo α → Fifo β → StepTry σ β) (fuel : Nat) (st : σ) (i : Fifo α)
    (o : Fifo β) : (loopSteps try1 fuel true st i o).code = .ok := by
  induction fuel generalizing st i o with
  | zero => rfl
  | succ fuel ih =>
    cases hs : try1 st i o with
    | done st' n us =>
      rw [loopSteps_done hs]
      exact ih st' _ _
    | blocked rc =>
      rw [loopSteps_blocked hs]
      rfl

/-- A transaction on the units of two buffers that answers OK, or did nothing and says why, with another code than
RESET. -/
def FifoResult.OkOrIdle (r : FifoResult σ α β) (st : σ) (i : Fifo α) (o : Fifo β) : Prop :=
  r.code = .ok ∨ ∃ rc ≠ .reset, r = { code := rc, st := st, inp := i, out := o }

/-- The same on one buffer. -/
def OneFifoResult.OkOrIdle (r : OneFifoResult σ α) (st : σ) (q : Fifo α) : Prop :=
  r.code = .ok ∨ ∃ rc ≠ .reset, r = { code := rc, st := st, buf := q }

theorem runLoop_okOrIdle {try1 : σ → Fifo α → Fifo β → StepTry σ β} (hstep : StepNeverResets try1) (st : σ)
    (i : Fifo α) (o : Fifo β) : (runLoop try1 st i o).OkOrIdle st i o := by
  cases hs : try1 st i o with
  | done st' n us =>
    rw [runLoop, loopSteps_done hs]
    exact .inl (loopSteps_code_of_progress ..)
  | blocked rc => exact .inr ⟨rc, fun hrc => hstep st i o (hrc ▸ hs), runLoop_of_blocked hs⟩

theorem runOne_okOrIdle {try1 : σ → Fifo α → Fifo α → StepTry σ α} (hstep : StepNeverResets try1) {cap : Nat} {st : σ}
    {q : Fifo α} {r : OneFifoResult σ α} (h : runOne try1 cap st q = some r) : r.OkOrIdle st q := by
  cases hs : try1 st q q with
  | done st' n us =>
    rw [runOne, loopOne_done hs] at h
    exact .inl (loopOne_code_of_progress h)
  | blocked rc =>
    rw [runOne_of_blocked hs] at h
    exact .inr ⟨rc, fun hrc => hstep st q q (hrc ▸ hs), (Option.some.inj h).symm⟩

/-! ### Atomic stages -/

/-- The act of an atomic stage that answers OK, or does nothing and says why, with another code than RESET. -/
def Act.OkOrIdle (a : Act σ β) (st : σ) : Prop := a.code = .ok ∨ ∃ rc ≠ .reset, a = .none rc st

theorem Act.OkOrIdle.two {a : Act σ β} {st : σ} (h : a.OkOrIdle st) (i : Fifo α) (o : Fifo β) :
    (a.two i o).OkOrIdle st i o := by
  obtain hok | ⟨rc, hrc, rfl⟩ := h
  · exact .inl hok
  · exact .inr ⟨rc, hrc, by rw [Act.two, Act.none, Fifo.consume_zero, Fifo.emit_nil]⟩

theorem Act.OkOrIdle.one {a : Act σ α} {st : σ} (h : a.OkOrIdle st) (q : Fifo α) : (a.one q).OkOrIdle st q := by
  obtain hok | ⟨rc, hrc, rfl⟩ := h
  · exact .inl hok
  · exact .inr ⟨rc, hrc, by rw [Act.one, Act.none, Fifo.consume_zero, Fifo.emit_nil]⟩

theorem frameEncAct_okOrIdle (fe : FrameEnc) (cap : Nat) (i o : Fifo Bit) : (frameEncAct fe cap i o).OkOrIdle fe := by
  unfold frameEncAct
  split
  · exact .inr ⟨_, by nofun, rfl⟩
  · simp only
    split
    · exact .inl rfl
    · exact .inr ⟨_, by nofun, rfl⟩

/-- A return of the frame decoder answers OK, does nothing and says why, or is the watchdog's, which discards all there
is (44_frame_decoder.md R195). -/
theorem fdStep_ret_cases {cap : Nat} {st : FdState} {i o : Fifo Bit} {a : Act FdState Bit}
    (h : fdStep cap st i o = .ret a) :
    a.OkOrIdle st ∨ a = { code := .needInputData, st := .init, n := i.filled, us := [] } := by
  by_cases hst : st = .data
  · subst hst
    cases hm : findMarker i.content with
    | none =>
      cases (fdStep_data_of_no_marker hm o).symm.trans h
      split
      · exact .inr rfl
      · exact .inl (.inr ⟨_, by nofun, rfl⟩)
    | some m =>
      obtain hfull | hroom := Nat.lt_or_ge cap (o.filled + (destuff (i.content.take m)).length)
      · cases (fdStep_data_of_marker_full hm hfull).symm.trans h
        exact .inl (.inr ⟨_, by nofun, rfl⟩)
      · cases (fdStep_data_of_marker hm hroom).symm.trans h
        exact .inl (.inl rfl)
  · exact .inl (.inr ⟨_, by nofun, fdStep_ret_of_ne_data hst h⟩)

/-! ### Stages on buffers -/

/-- A transaction on two buffers that answers OK, or gives everything back as it was and says why, with another code
than RESET. -/
def StageResult.OkOrIdle (r : StageResult σ) (st : σ) (i o : BitBuffer) : Prop :=
  r.code = .ok ∨ ∃ rc ≠ .reset, r = { code := rc, st := st, inp := i, out := o }

/-- The same on one buffer. -/
def OneResult.OkOrIdle (r : OneResult σ) (st : σ) (b : BitBuffer) : Prop :=
  r.code = .ok ∨ ∃ rc ≠ .reset, r = { code := rc, st := st, buf := b }

/-- A stage from unit state `st`, on two buffers and on one, that answers OK or gives everything back as it was. -/
structure StageOkOrIdle (st : σ) (two : BitBuffer → BitBuffer → StageResult σ)
    (one : BitBuffer → Option (OneResult σ)) : Prop where
  two : ∀ i o, (two i o).OkOrIdle st i o
  one : ∀ b r, one b = some r → r.OkOrIdle st b

/-- Units that were given back as they were stand in buffers that were. -/
theorem FifoResult.OkOrIdle.inBuffers {r : FifoResult σ α β} {st : σ} {i : Fifo α} {o : Fifo β} (h : r.OkOrIdle st i o)
    (inBuf : Fifo α → BitBuffer) (outBuf : Fifo β → BitBuffer) :
    StageResult.OkOrIdle { code := r.code, st := r.st, inp := inBuf r.inp, out := outBuf r.out } st (inBuf i)
      (outBuf o) := by
  obtain hok | ⟨rc, hrc, rfl⟩ := h
  · exact .inl hok
  · exact .inr ⟨rc, hrc, rfl⟩

theorem onBits_okOrIdle (st : σ) {body : Nat → Fifo Bit → Fifo Bit → FifoResult σ Bit Bit}
    {bodyOne : Nat → Fifo Bit → Option (OneFifoResult σ Bit)} (htwo : ∀ cap i o, (body cap i o).OkOrIdle st i o)
    (hone : ∀ cap q r, bodyOne cap q = some r → r.OkOrIdle st q) :
    StageOkOrIdle st (fun i o => onBits st i o body) (fun b => onOneBits st b bodyOne) where
  two := by
    rintro ⟨ni, _ | ⟨oi, iq⟩ | _⟩ ⟨no, _ | ⟨oo, oq⟩ | _⟩
    case bits.bits => exact (htwo (8 * no) iq oq).inBuffers (⟨ni, .bits oi ·⟩) (⟨no, .bits oo ·⟩)
    all_goals exact .inr ⟨_, by nofun, rfl⟩
  one := by
    rintro ⟨nb, _ | ⟨order, q⟩ | _⟩ r h
    case bits =>
      obtain ⟨r', hr', rfl⟩ := Option.map_eq_some_iff.mp h
      obtain hok | ⟨rc, hrc, rfl⟩ := hone _ _ _ hr'
      · exact .inl hok
      · exact .inr ⟨rc, hrc, rfl⟩
    all_goals cases h; exact .inr ⟨_, by nofun, rfl⟩

theorem bmcEnc_okOrIdle (be : BiphaseEnc) : StageOkOrIdle be (bmcEncProcess be) (bmcEncOne be) :=
  onBits_okOrIdle be (fun cap => runLoop_okOrIdle (bmcEncStep_neverResets cap) be)
    fun cap _ _ => runOne_okOrIdle (bmcEncStep_neverResets cap)

theorem bmcDec_okOrIdle : StageOkOrIdle () bmcDecProcess bmcDecOne :=
  onBits_okOrIdle () (fun cap => runLoop_okOrIdle (bmcDecStep_neverResets cap) ())
    fun cap _ _ => runOne_okOrIdle (bmcDecStep_neverResets cap)

theorem frameEnc_okOrIdle (fe : FrameEnc) : StageOkOrIdle fe (frameEncProcess fe) (frameEncOne fe) :=
  onBits_okOrIdle fe (fun cap i o => (frameEncAct_okOrIdle fe cap i o).two i o)
    fun cap q _ h => Option.some.inj h ▸ (frameEncAct_okOrIdle fe cap q q).one q

/-- Each of the transcoder's four cases is a loop, and a reserved mode gives everything back. -/
theorem xcProcess_okOrIdle (x : Xc) (i o : BitBuffer) : (xcProcess x i o).OkOrIdle x i o := by
  obtain ⟨ni, iq | ⟨oi, iq⟩ | _⟩ := i <;> obtain ⟨no, oq | ⟨oo, oq⟩ | _⟩ := o
  case bytes.bytes =>
    exact (runLoop_okOrIdle (copyStep_neverResets no) x iq oq).inBuffers (⟨ni, .bytes ·⟩) (⟨no, .bytes ·⟩)
  case bytes.bits =>
    exact (runLoop_okOrIdle (unpackStep_neverResets oo (8 * no)) x iq oq).inBuffers (⟨ni, .bytes ·⟩) (⟨no, .bits oo ·⟩)
  case bits.bytes =>
    exact (runLoop_okOrIdle (packStep_neverResets oi no) x iq oq).inBuffers (⟨ni, .bits oi ·⟩) (⟨no, .bytes ·⟩)
  case bits.bits =>
    exact (runLoop_okOrIdle (copyStep_neverResets (8 * no)) x iq oq).inBuffers (⟨ni, .bits oi ·⟩) (⟨no, .bits oo ·⟩)
  all_goals exact .inr ⟨_, by nofun, rfl⟩

theorem xcOne_code_ne_reset {x : Xc} {b : BitBuffer} {r : OneResult Xc} (h : xcOne x b = some r) : r.code ≠ .reset := by
  obtain ⟨nb, q | ⟨order, q⟩ | _⟩ := b
  · rw [xcOne_bytes] at h
    split_ifs at h <;> cases h <;> exact nofun
  · rw [xcOne_bits] at h
    split_ifs at h <;> cases h <;> exact nofun
  · cases h
    exact nofun

theorem xc_okOrIdle (x : Xc) : StageOkOrIdle x (xcProcess x) (xcOne x) where
  two := xcProcess_okOrIdle x
  one b r h := by
    obtain ⟨hst, hbuf⟩ := xcOne_eq_some h
    exact .inr ⟨r.code, xcOne_code_ne_reset h, by rw [← hst, ← hbuf]⟩

end Sys2Proof.Machine
end

section
/-!
Which codes an operation hands back, by its kind (60_exceptions.md R241).
-/
namespace Sys2Proof.Machine

variable {σ : Type}

/-! ### No PROCESS answers RESET -/

/-- A stage or pipeline, on two buffers and on one, that never answers RESET. -/
structure StageNeverResets (two : BitBuffer → BitBuffer → StageResult σ) (one : BitBuffer → Option (OneResult σ)) :
    Prop where
  two : ∀ i o, (two i o).code ≠ .reset
  one : ∀ b r, one b = some r → r.code ≠ .reset

theorem StageOkOrIdle.neverResets {st : σ} {two : BitBuffer → BitBuffer → StageResult σ}
    {one : BitBuffer → Option (OneResult σ)} (h : StageOkOrIdle st two one) : StageNeverResets two one where
  two i o := by
    obtain hok | ⟨rc, hrc, hr⟩ := h.two i o
    · rw [hok]
      exact nofun
    · rw [hr]
      exact hrc
  one b r hr := by
    obtain hok | ⟨rc, hrc, rfl⟩ := h.one b r hr
    · rw [hok]
      exact nofun
    · exact hrc

theorem fdStep_ret_ne_reset {cap : Nat} {st : FdState} {i o : Fifo Bit} {a : Act FdState Bit}
    (h : fdStep cap st i o = .ret a) : a.code ≠ .reset := by
  obtain (hok | ⟨rc, hrc, rfl⟩) | rfl := fdStep_ret_cases h
  · rw [hok]
    exact nofun
  · exact hrc
  · exact nofun

theorem fdRun_code_ne_reset (cap : Nat) (st : FdState) (i o : Fifo Bit) : (fdRun cap st i o).code ≠ .reset :=
  fdRun_induct (P := fun _ _ r => r.code ≠ .reset) (fun _ _ _ => fdStep_ret_ne_reset) (fun _ _ _ _ _ _ => id) st i

theorem fdRunOne_code_ne_reset (cap : Nat) (st : FdState) (q : Fifo Bit) : (fdRunOne cap st q).code ≠ .reset :=
  fdRunOne_induct (P := fun _ _ r => r.code ≠ .reset) (fun _ _ _ => fdStep_ret_ne_reset) (fun _ _ _ _ _ _ => id) st q

theorem frameDec_neverResets (fd : FrameDec) : StageNeverResets (frameDecProcess fd) (frameDecOne fd) where
  two := by
    rintro ⟨ni, _ | ⟨oi, iq⟩ | _⟩ ⟨no, _ | ⟨oo, oq⟩ | _⟩
    case bits.bits => exact fdRun_code_ne_reset (8 * no) fd.st iq oq
    all_goals exact nofun
  one := by
    rintro ⟨nb, _ | ⟨order, q⟩ | _⟩ r h <;> cases h
    case bits => exact fdRunOne_code_ne_reset (8 * nb) fd.st q
    all_goals exact nofun

theorem pipe_neverResets {front : BitBuffer → OneResult σ} {back : σ → BitBuffer → OneResult σ}
    (hfront : ∀ i, (front i).code ≠ .reset) (hback : ∀ u o, (back u o).code ≠ .reset) :
    StageNeverResets (pipeTwo front back) (fun b => some (pipeOne front back b)) where
  two i o := by
    by_cases hok : (front i).code = .ok
    · rw [pipeTwo_ok _ _ _ _ hok]
      exact hback _ o
    · rw [pipeTwo_stop _ _ _ _ hok]
      exact hfront i
  one b r h := by
    cases h
    unfold pipeOne
    simp only
    split
    · exact hfront b
    · exact hback _ _

theorem x2dEncFront_code_ne_reset (e : EncSession) (flush : Bool) (i : BitBuffer) :
    (x2dEncFront e flush i).code ≠ .reset := by
  unfold x2dEncFront
  simp only
  split
  · exact (xc_okOrIdle _).neverResets.two _ _
  split
  · exact (frameEnc_okOrIdle _).neverResets.two _ _
  · exact (bmcEnc_okOrIdle _).neverResets.two _ _

theorem x2dDecFront_code_ne_reset (d : DecSession) (flush : Bool) (i : BitBuffer) :
    (x2dDecFront d flush i).code ≠ .reset := by
  unfold x2dDecFront
  simp only
  split
  · exact (xc_okOrIdle _).neverResets.two _ _
  split
  · exact bmcDec_okOrIdle.neverResets.two _ _
  · exact (frameDec_neverResets _).two _ _

theorem x2dEnc_neverResets (e : EncSession) (flush : Bool) :
    StageNeverResets (x2dEncProcess e flush) (x2dEncOne e flush) :=
  pipe_neverResets (x2dEncFront_code_ne_reset e flush) fun u _ => (xc_okOrIdle u.xc2).neverResets.two _ _

theorem x2dDec_neverResets (d : DecSession) (flush : Bool) :
    StageNeverResets (x2dDecProcess d flush) (x2dDecOne d flush) :=
  pipe_neverResets (x2dDecFront_code_ne_reset d flush) fun u _ => (xc_okOrIdle u.xc2).neverResets.two _ _

/-! ### What each kind of operation answers -/

section Answers

variable {s t : State} {k buf off n inp out : Nat} {reg : Reg} {val : Byte} {rc : ResultCode}

theorem execBufRead_answers (h : execBufRead buf off s = .next t) : ∃ v, t.response = some (.value v) := by
  obtain ⟨⟨nb, store⟩, -, h⟩ := withBuffer_next h
  cases store <;> simp only at h
  case reserved => cases h
  all_goals
    split at h <;> cases h
    exact ⟨_, rfl⟩

theorem execBufHasAvail_answers (h : execBufHasAvail buf off n s = .next t) : ∃ b, t.response = some (.truth b) := by
  obtain ⟨⟨nb, store⟩, -, h⟩ := withBuffer_next h
  cases store <;> cases h <;> exact ⟨_, rfl⟩

theorem execBufHasSpace_answers (h : execBufHasSpace buf off n s = .next t) : ∃ b, t.response = some (.truth b) := by
  obtain ⟨⟨nb, store⟩, -, h⟩ := withBuffer_next h
  cases store <;> cases h <;> exact ⟨_, rfl⟩

/-- A RESET answers the same whatever unit it finds. -/
theorem withUnit_put_answers {units : List σ} {put : σ → State} {r : Response}
    (h : withUnit units k (fun u => .next ((put u).respond r)) = .next t) : t.response = some r := by
  obtain ⟨u, -, h⟩ := withUnit_next h
  cases h
  rfl

theorem execXcConfig_answers (h : execXcConfig k reg val s = .next t) : t.response = some (.code .ok) := by
  obtain ⟨x, -, h⟩ := withUnit_next h
  split at h
  · split at h <;> cases h
    rfl
  · cases h

theorem execFrameEncConfig_answers (h : execFrameEncConfig k reg val s = .next t) : t.response = some (.code .ok) := by
  obtain ⟨x, -, h⟩ := withUnit_next h
  split at h <;> cases h
  rfl

theorem execX2dEncConfig_answers (h : execX2dEncConfig k reg val s = .next t) : t.response = some (.code .ok) := by
  obtain ⟨e, -, h⟩ := withUnit_next h
  split at h <;> cases h
  rfl

theorem State.process_answer_ne_reset {two : BitBuffer → BitBuffer → StageResult σ}
    {one : BitBuffer → Option (OneResult σ)} {save : State → σ → State}
    (h : s.process inp out two one save = .next t) (hstage : StageNeverResets two one) :
    t.response ≠ some (.code .reset) := by
  obtain ⟨i, o, -, -, ⟨-, rfl⟩ | ⟨-, r, hr, rfl⟩⟩ := State.process_next h
  · simpa using hstage.two i o
  · simpa using hstage.one i r hr

/-- The same where the stage is run from the unit or session that a reference names. -/
theorem withUnit_process_answer_ne_reset {υ : Type} {units : List υ} {two : υ → BitBuffer → BitBuffer → StageResult σ}
    {one : υ → BitBuffer → Option (OneResult σ)} {save : State → σ → State}
    (h : withUnit units k (fun u => s.process inp out (two u) (one u) save) = .next t)
    (hstage : ∀ u, StageNeverResets (two u) (one u)) : t.response ≠ some (.code .reset) := by
  obtain ⟨u, -, h⟩ := withUnit_next h
  exact State.process_answer_ne_reset h (hstage u)

end Answers

/-- Settles O50: each RESET and each CONFIG answers its one code, no PROCESS answers RESET, and no primitive a code. -/
theorem codesByKind : Obligations.CodesByKind := by
  intro i s t rc h hrc
  have answers {rc' : ResultCode} (h' : t.response = some (.code rc')) : (rc == rc') = true :=
    beq_iff_eq.mpr (Response.code.inj (Option.some.inj (hrc.symm.trans h')))
  have not_reset (h' : t.response ≠ some (.code .reset)) : (rc != .reset) = true :=
    bne_iff_ne.mpr fun heq => h' (heq ▸ hrc)
  cases i with
  | bufRead =>
    obtain ⟨v, hv⟩ := execBufRead_answers h
    cases hrc.symm.trans hv
  | bufHasAvail =>
    obtain ⟨b, hb⟩ := execBufHasAvail_answers h
    cases hrc.symm.trans hb
  | bufHasSpace =>
    obtain ⟨b, hb⟩ := execBufHasSpace_answers h
    cases hrc.symm.trans hb
  | bufWrite =>
    obtain ⟨B, rfl⟩ := execBufWrite_next h
    cases hrc
  | bufConsume =>
    obtain ⟨B, rfl⟩ := execBufConsume_next h
    cases hrc
  | bufProduce =>
    obtain ⟨B, rfl⟩ := execBufProduce_next h
    cases hrc
  | xcReset | bmcEncReset | frameEncReset | frameDecReset | x2dEncReset | x2dDecReset =>
    exact answers (withUnit_put_answers h)
  | bmcDecReset =>
    cases h
    exact answers rfl
  | xcConfig => exact answers (execXcConfig_answers h)
  | frameEncConfig => exact answers (execFrameEncConfig_answers h)
  | x2dEncConfig => exact answers (execX2dEncConfig_answers h)
  | xcProcess => exact not_reset (withUnit_process_answer_ne_reset h fun x => (xc_okOrIdle x).neverResets)
  | bmcEncProcess => exact not_reset (withUnit_process_answer_ne_reset h fun x => (bmcEnc_okOrIdle x).neverResets)
  | bmcDecProcess =>
    exact not_reset (State.process_answer_ne_reset (save := fun s' _ => s') h bmcDec_okOrIdle.neverResets)
  | frameEncProcess => exact not_reset (withUnit_process_answer_ne_reset h fun x => (frameEnc_okOrIdle x).neverResets)
  | frameDecProcess => exact not_reset (withUnit_process_answer_ne_reset h frameDec_neverResets)
  | x2dEncProcess k inp out flush =>
    exact not_reset (withUnit_process_answer_ne_reset h (x2dEnc_neverResets · flush))
  | x2dDecProcess k inp out flush =>
    exact not_reset (withUnit_process_answer_ne_reset h (x2dDec_neverResets · flush))

end Sys2Proof.Machine
end

section
/-!
What a stage that could not get on does when it is called again (60_exceptions.md R245).
-/
namespace Sys2Proof.Machine

variable {σ α : Type}

/-! ### Stages run again -/

/-- A stage that did not answer OK does and answers the same when it is run again from what it left. -/
structure StageRetries (two : σ → BitBuffer → BitBuffer → StageResult σ) (one : σ → BitBuffer → Option (OneResult σ)) :
    Prop where
  two : ∀ u i o, (two u i o).code ≠ .ok → two (two u i o).st (two u i o).inp (two u i o).out = two u i o
  one : ∀ u b r, one u b = some r → r.code ≠ .ok → one r.st r.buf = some r

/-- What did nothing is run again from where it was. -/
theorem StageRetries.of_okOrIdle {two : σ → BitBuffer → BitBuffer → StageResult σ}
    {one : σ → BitBuffer → Option (OneResult σ)} (h : ∀ u, StageOkOrIdle u (two u) (one u)) : StageRetries two one where
  two u i o hcode := by
    obtain ⟨rc, -, hr⟩ := ((h u).two i o).resolve_left hcode
    rw [hr]
    exact hr
  one u b r hr hcode := by
    obtain ⟨rc, -, rfl⟩ := ((h u).one b r hr).resolve_left hcode
    exact hr

theorem Fifo.consume_filled_content (q : Fifo α) : (q.consume q.filled).content = [] := by
  rw [Fifo.consume_content, Fifo.filled, List.drop_length]

/-- With no bit there INIT waits, so what the watchdog leaves is left again. -/
theorem fdStep_init_of_empty (cap : Nat) {i : Fifo Bit} (hi : i.content = []) (o : Fifo Bit) :
    fdStep cap .init i o = .ret (.none .needInputData .init) :=
  fdStep_of_no_run (.inl rfl) (hi ▸ rfl) o

theorem fdRunOne_of_waits {cap : Nat} {st : FdState} {q : Fifo Bit} {rc : ResultCode}
    (h : fdStep cap st q q = .ret (.none rc st)) : fdRunOne cap st q = { code := rc, st := st, buf := q } := by
  rw [fdRunOne_of_ret h, Act.one, Act.none, Fifo.emit_nil, Fifo.consume_zero]

theorem fdRun_retries (cap : Nat) (st : FdState) (i o : Fifo Bit) (h : (fdRun cap st i o).code ≠ .ok) :
    fdRun cap (fdRun cap st i o).st (fdRun cap st i o).inp (fdRun cap st i o).out = fdRun cap st i o := by
  refine fdRun_induct (P := fun _ _ r => r.code ≠ .ok → fdRun cap r.st r.inp r.out = r) ?_ ?_ st i h
  · intro st i a hs hcode
    obtain hidle | rfl := fdStep_ret_cases hs
    · obtain ⟨rc, -, hr⟩ := (hidle.two i o).resolve_left hcode
      rw [hr]
      exact (fdRun_of_ret hs).trans hr
    · rw [Act.two, Fifo.emit_nil]
      exact fdRun_of_waits o (fdStep_init_of_empty cap i.consume_filled_content o)
  · exact fun _ _ _ _ _ _ hr => hr

theorem fdRunOne_retries (cap : Nat) (st : FdState) (q : Fifo Bit) (h : (fdRunOne cap st q).code ≠ .ok) :
    fdRunOne cap (fdRunOne cap st q).st (fdRunOne cap st q).buf = fdRunOne cap st q := by
  refine fdRunOne_induct (P := fun _ _ r => r.code ≠ .ok → fdRunOne cap r.st r.buf = r) ?_ ?_ st q h
  · intro st q a hs hcode
    obtain hidle | rfl := fdStep_ret_cases hs
    · obtain ⟨rc, -, hr⟩ := (hidle.one q).resolve_left hcode
      rw [hr]
      exact (fdRunOne_of_ret hs).trans hr
    · rw [Act.one, Fifo.emit_nil]
      exact fdRunOne_of_waits (fdStep_init_of_empty cap q.consume_filled_content _)
  · exact fun _ _ _ _ _ _ hr => hr

theorem frameDec_retries : StageRetries frameDecProcess frameDecOne where
  two := by
    rintro fd ⟨ni, _ | ⟨oi, iq⟩ | _⟩ ⟨no, _ | ⟨oo, oq⟩ | _⟩ hcode
    case bits.bits =>
      have hagain := fdRun_retries (8 * no) fd.st iq oq hcode
      simp only [frameDecProcess_bits, hagain]
    all_goals rfl
  one := by
    rintro fd ⟨nb, _ | ⟨order, q⟩ | _⟩ r h hcode
    case bits =>
      cases (frameDecOne_bits ..).symm.trans h
      have hagain := fdRunOne_retries (8 * nb) fd.st q hcode
      simp only [frameDecOne_bits, hagain]
    all_goals cases h; rfl

/-! ### Transactions -/

section Process

variable {s t : State} {k inp out : Nat}

/-- A transaction that did not answer OK changes nothing when it is run again, from the unit state it put back. -/
theorem State.process_retry {two : σ → BitBuffer → BitBuffer → StageResult σ}
    {one : σ → BitBuffer → Option (OneResult σ)} {save : State → σ → State} {u : σ}
    (h : s.process inp out (two u) (one u) save = .next t) (hbufs : ∀ u', (save s u').bufs = s.bufs)
    (hstage : StageRetries two one) (hcode : t.response ≠ some (.code .ok)) :
    ∃ u' m r, t = { save s u' with bufs := m, response := r } ∧
      (save t u' = t → t.process inp out (two u') (one u') save = .next t) := by
  obtain ⟨i, o, hi, ho, ⟨hne, rfl⟩ | ⟨rfl, r, hr, rfl⟩⟩ := State.process_next h
  · refine ⟨(two u i o).st, _, _, rfl, fun hsave => ?_⟩
    have hagain := hstage.two u i o (by simpa using hcode)
    refine State.process_unchanged hsave (i := (two u i o).inp) (o := (two u i o).out) ?_ ?_ (fun _ => hagain)
      fun he => absurd he hne
    · rw [State.respond_bufs, State.putBuf_bufs, State.putBuf_bufs, hbufs, List.getElem?_set_ne hne.symm]
      exact getElem?_set_of_some hi _
    · rw [State.respond_bufs, State.putBuf_bufs, State.putBuf_bufs, hbufs]
      exact getElem?_set_set_of_some ho hne _ _
  · refine ⟨r.st, _, _, rfl, fun hsave => ?_⟩
    have hagain := hstage.one u i r hr (by simpa using hcode)
    have hbuf : (((save s r.st).putBuf inp r.buf).respond (.code r.code)).bufs[inp]? = some r.buf := by
      rw [State.respond_bufs, State.putBuf_bufs, hbufs]
      exact getElem?_set_of_some hi _
    exact State.process_unchanged hsave hbuf hbuf (absurd rfl) fun _ _ => hagain

/-- The same where the stage is run from the unit that a reference names: the unit put back is there. -/
theorem withUnit_process_retry {units : State → List σ} {put : State → Nat → σ → State}
    {two : σ → BitBuffer → BitBuffer → StageResult σ} {one : σ → BitBuffer → Option (OneResult σ)}
    (h : withUnit (units s) k (fun u => s.process inp out (two u) (one u) fun s' u' => put s' k u') = .next t)
    (hunits : ∀ u m r, units { put s k u with bufs := m, response := r } = (units s).set k u)
    (hput : ∀ {u}, (units t)[k]? = some u → put t k u = t) (hbufs : ∀ u, (put s k u).bufs = s.bufs)
    (hstage : StageRetries two one) (hcode : t.response ≠ some (.code .ok)) :
    withUnit (units t) k (fun u => t.process inp out (two u) (one u) fun s' u' => put s' k u') = .next t := by
  obtain ⟨u, hu, h⟩ := withUnit_next h
  obtain ⟨u', m, r, ht, hagain⟩ := State.process_retry h hbufs hstage hcode
  have hu' : (units t)[k]? = some u' := by
    rw [ht, hunits]
    exact getElem?_set_of_some hu u'
  exact (withUnit_of_get hu').trans (hagain (hput hu'))

end Process

/-- Settles O51: run again, a stage that did nothing does nothing, and so does the frame decoder from where it waits. -/
theorem retryChangesNothing : Obligations.RetryChangesNothing := by
  intro i s t hkind h hcode
  replace hcode : t.response ≠ some (.code .ok) := by
    obtain hr | hr := hcode <;> rw [hr] <;> exact nofun
  cases i with
  | xcProcess =>
    exact withUnit_process_retry h (fun _ _ _ => rfl) State.putXc_of_get (fun _ => rfl) (.of_okOrIdle xc_okOrIdle) hcode
  | bmcEncProcess =>
    exact withUnit_process_retry h (fun _ _ _ => rfl) State.putBe_of_get (fun _ => rfl) (.of_okOrIdle bmcEnc_okOrIdle)
      hcode
  | bmcDecProcess =>
    obtain ⟨-, -, -, -, hagain⟩ := State.process_retry (two := fun _ => bmcDecProcess) (one := fun _ => bmcDecOne)
      (save := fun s' _ => s') (u := ()) h (fun _ => rfl) (.of_okOrIdle fun _ => bmcDec_okOrIdle) hcode
    exact hagain rfl
  | frameEncProcess =>
    exact withUnit_process_retry h (fun _ _ _ => rfl) State.putFe_of_get (fun _ => rfl) (.of_okOrIdle frameEnc_okOrIdle)
      hcode
  | frameDecProcess =>
    exact withUnit_process_retry h (fun _ _ _ => rfl) State.putFd_of_get (fun _ => rfl) frameDec_retries hcode
  | _ => nomatch hkind

end Sys2Proof.Machine
end

section
/-!
What a PROCESS does depends on its unit or session and its buffers alone (60_exceptions.md R251).
-/
namespace Sys2Proof.Machine

variable {σ : Type}

/-! ### Updates of two states that agree -/

theorem getElem?_set_congr {l l' : List σ} {j : Nat} (h : l[j]? = l'[j]?) (k : Nat) (u : σ) :
    (l.set k u)[j]? = (l'.set k u)[j]? := by
  simp only [List.getElem?_set', h]

section Updates

variable {fp : Footprint} {s s' : State}

theorem AgreeOn.respond (h : AgreeOn fp s s') (r : Response) : AgreeOn fp (s.respond r) (s'.respond r) := h

theorem AgreeOn.putXc (h : AgreeOn fp s s') (k : Nat) (x : Xc) : AgreeOn fp (s.putXc k x) (s'.putXc k x) := by
  obtain ⟨hxcs, hrest⟩ := h
  exact ⟨fun j hj => getElem?_set_congr (hxcs j hj) k x, hrest⟩

theorem AgreeOn.putBe (h : AgreeOn fp s s') (k : Nat) (x : BiphaseEnc) :
    AgreeOn fp (s.putBe k x) (s'.putBe k x) := by
  obtain ⟨hxcs, hbes, hrest⟩ := h
  exact ⟨hxcs, fun j hj => getElem?_set_congr (hbes j hj) k x, hrest⟩

theorem AgreeOn.putFe (h : AgreeOn fp s s') (k : Nat) (x : FrameEnc) : AgreeOn fp (s.putFe k x) (s'.putFe k x) := by
  obtain ⟨hxcs, hbes, hfes, hrest⟩ := h
  exact ⟨hxcs, hbes, fun j hj => getElem?_set_congr (hfes j hj) k x, hrest⟩

theorem AgreeOn.putFd (h : AgreeOn fp s s') (k : Nat) (x : FrameDec) : AgreeOn fp (s.putFd k x) (s'.putFd k x) := by
  obtain ⟨hxcs, hbes, hfes, hfds, hrest⟩ := h
  exact ⟨hxcs, hbes, hfes, fun j hj => getElem?_set_congr (hfds j hj) k x, hrest⟩

theorem AgreeOn.putEnc (h : AgreeOn fp s s') (k : Nat) (e : EncSession) :
    AgreeOn fp (s.putEnc k e) (s'.putEnc k e) := by
  obtain ⟨hxcs, hbes, hfes, hfds, hencs, hrest⟩ := h
  exact ⟨hxcs, hbes, hfes, hfds, fun j hj => getElem?_set_congr (hencs j hj) k e, hrest⟩

theorem AgreeOn.putDec (h : AgreeOn fp s s') (k : Nat) (d : DecSession) :
    AgreeOn fp (s.putDec k d) (s'.putDec k d) := by
  obtain ⟨hxcs, hbes, hfes, hfds, hencs, hdecs, hbufs⟩ := h
  exact ⟨hxcs, hbes, hfes, hfds, hencs, fun j hj => getElem?_set_congr (hdecs j hj) k d, hbufs⟩

theorem AgreeOn.putBuf (h : AgreeOn fp s s') (k : Nat) (B : BitBuffer) :
    AgreeOn fp (s.putBuf k B) (s'.putBuf k B) := by
  obtain ⟨hxcs, hbes, hfes, hfds, hencs, hdecs, hbufs⟩ := h
  exact ⟨hxcs, hbes, hfes, hfds, hencs, hdecs, fun j hj => getElem?_set_congr (hbufs j hj) k B⟩

theorem AgreeOn.bufs_get (h : AgreeOn fp s s') {k : Nat} (hk : k ∈ fp.bufs) : s'.bufs[k]? = s.bufs[k]? := by
  obtain ⟨-, -, -, -, -, -, hbufs⟩ := h
  exact (hbufs k hk).symm

end Updates

/-! ### Transactions -/

section Process

variable {fp : Footprint} {s s' : State} {inp out : Nat}

/-- An operation does to two states that agree on a footprint the same within it, and answers the same. -/
def ActsAlike (fp : Footprint) (x y : Host.Outcome State Fault Refusal) : Prop :=
  ∀ t, x = .next t → ∃ t', y = .next t' ∧ t'.response = t.response ∧ AgreeOn fp t t'

/-- A stage sees the two buffers only, and what is put back is the same in both states. -/
theorem State.process_actsAlike {two : BitBuffer → BitBuffer → StageResult σ} {one : BitBuffer → Option (OneResult σ)}
    {save : State → σ → State} (hagree : AgreeOn fp s s') (hbufs : fp.bufs = [inp, out])
    (hsave : ∀ u, AgreeOn fp (save s u) (save s' u)) :
    ActsAlike fp (s.process inp out two one save) (s'.process inp out two one save) := by
  intro t h
  have hinp : s'.bufs[inp]? = s.bufs[inp]? := hagree.bufs_get (by simp [hbufs])
  have hout : s'.bufs[out]? = s.bufs[out]? := hagree.bufs_get (by simp [hbufs])
  obtain ⟨i, o, hi, ho, ⟨hne, rfl⟩ | ⟨rfl, r, hr, rfl⟩⟩ := State.process_next h
  · exact ⟨_, State.process_of_ne (hinp.trans hi) (hout.trans ho) hne, rfl,
      (((hsave _).putBuf inp _).putBuf out _).respond _⟩
  · exact ⟨_, State.process_of_eq (hinp.trans hi) hr, rfl, ((hsave _).putBuf inp _).respond _⟩

/-- The same where the stage is run from the unit or session that a reference names. -/
theorem withUnit_process_actsAlike {υ : Type} {units units' : List υ} {k : Nat}
    {two : υ → BitBuffer → BitBuffer → StageResult σ} {one : υ → BitBuffer → Option (OneResult σ)}
    {save : State → σ → State} (hunits : units[k]? = units'[k]?) (hagree : AgreeOn fp s s')
    (hbufs : fp.bufs = [inp, out]) (hsave : ∀ u, AgreeOn fp (save s u) (save s' u)) :
    ActsAlike fp (withUnit units k fun u => s.process inp out (two u) (one u) save)
      (withUnit units' k fun u => s'.process inp out (two u) (one u) save) := by
  intro t h
  obtain ⟨u, hu, h⟩ := withUnit_next h
  rw [withUnit_of_get (hunits.symm.trans hu)]
  exact State.process_actsAlike hagree hbufs hsave t h

end Process

/-- Settles O58: a PROCESS reads the unit or session and the buffers of its footprint, and puts back only these. -/
theorem sessionsAreIsolated : Obligations.SessionsAreIsolated := by
  intro i s s' t hkind hagree h
  have ⟨hxcs, hbes, hfes, hfds, hencs, hdecs, _⟩ := hagree
  cases i with
  | xcProcess k => exact withUnit_process_actsAlike (hxcs k rfl) hagree rfl (hagree.putXc k) t h
  | bmcEncProcess k => exact withUnit_process_actsAlike (hbes k rfl) hagree rfl (hagree.putBe k) t h
  | bmcDecProcess => exact State.process_actsAlike (save := fun s' _ => s') hagree rfl (fun _ => hagree) t h
  | frameEncProcess k => exact withUnit_process_actsAlike (hfes k rfl) hagree rfl (hagree.putFe k) t h
  | frameDecProcess k => exact withUnit_process_actsAlike (hfds k rfl) hagree rfl (hagree.putFd k) t h
  | x2dEncProcess k => exact withUnit_process_actsAlike (hencs k rfl) hagree rfl (hagree.putEnc k) t h
  | x2dDecProcess k => exact withUnit_process_actsAlike (hdecs k rfl) hagree rfl (hagree.putDec k) t h
  | _ => nomatch hkind

end Sys2Proof.Machine
end
